-- ==== Sys2Proof/Word.lean ====
section
/-! DEFINITION. The word types of the SEV-RC UART block: its byte, its command word, its host address, its character. -/

namespace Sys2Proof

/-- An 8-bit register or one byte of host memory (spec/00_scope.md R8, REG_WIDTH; spec/20_memory.md R42). -/
abbrev Byte := BitVec 8

/-- A 32-bit command word (spec/00_scope.md R8, CMD_WIDTH; spec/30_encoding.md R56). -/
abbrev CmdWord := BitVec 32

/-- A 16-bit host address, and the width of RES and of a TXBYTE value (R8 HADDR_WIDTH, R36, R59). -/
abbrev Word16 := BitVec 16

/-- A character inside the block: eight data bits and the ninth bit (spec/20_memory.md R46). -/
abbrev Char9 := BitVec 9

end Sys2Proof
end

