-- ==== Sys2Proof/Syntax.lean ====
section
/-! DEFINITION. The seven commands, the pseudo-instructions, and the causes for which the block enters its fault state. -/

namespace Sys2Proof

/-- The commands, one constructor per row of spec/opcode_table.json, with the operands of formats I, B, V and N
(spec/30_encoding.md R57 to R61). Flags are Booleans (true is 1); counts are natural numbers; the parity code, a value and
a host address are bits. -/
inductive Instr where
  /-- `INIT mode, speed, fbits, parity, stopb` (R57): `mode` true is Synchronous, `speed` true is Double. -/
  | init (mode speed : Bool) (fbits : Nat) (par : BitVec 2) (stopb : Nat)
  /-- `SETBAUD bps` (R58): the target rate in bits per second. -/
  | setbaud (bps : Nat)
  /-- `ENABLE` (R60). -/
  | enable
  /-- `TXBYTE value` (R59). -/
  | txbyte (value : Word16)
  /-- `TXLINE addr` (R59): the host address of the first character. -/
  | txline (addr : Word16)
  /-- `RXBYTE` (R60). -/
  | rxbyte
  /-- `RXLINE` (R60). -/
  | rxline
deriving DecidableEq, Repr

/-- The pseudo-instructions of spec/30_encoding.md R67. -/
inductive Pseudo where
  /-- `OPEN mode, speed, fbits, parity, stopb, bps`. -/
  | openLine (mode speed : Bool) (fbits : Nat) (par : BitVec 2) (stopb bps : Nat)
  /-- `REBAUD bps`. -/
  | rebaud (bps : Nat)
  /-- `ECHOLINE`. -/
  | echoline
deriving DecidableEq, Repr

/-- Every cause of the fault state, one constructor per row of the table of spec/60_exceptions.md R116. Taking one is a
next state (R119), never a stop of the model. -/
inductive Cause where
  /-- F_RESERVED_OPCODE: the word's OP field names no command. -/
  | reservedOpcode (op : BitVec 4)
  /-- F_RESERVED_FIELD: a defined command with a non-zero reserved field. -/
  | reservedField (op : BitVec 4)
  /-- F_LIFECYCLE 1: INIT when CONFIGURED = 1. -/
  | secondInit
  /-- F_LIFECYCLE 2: SETBAUD when CONFIGURED = 0. -/
  | baudBeforeInit
  /-- F_LIFECYCLE 3: ENABLE when DIV_SET = 0. -/
  | enableBeforeBaud
  /-- F_BAUD_ZERO: SETBAUD with a target rate of 0. -/
  | baudZero
  /-- F_DIV_RANGE 1: the quotient is 0, so the divisor would be -1. -/
  | divisorNegative
  /-- F_DIV_RANGE 2: the divisor exceeds 0xFFFF. -/
  | divisorTooWide
  /-- F_INVALID_CONFIG 1: a frame width outside 5 to 9 under STRICT_CONFIG. -/
  | widthOutOfRange
  /-- F_INVALID_CONFIG 2: the reserved parity code 1 would be written. -/
  | parityReserved
  /-- F_INVALID_CONFIG 3: more than two stop bits with a parity write. -/
  | stopBitsTooMany
  /-- F_MEM_RANGE: TXLINE passed host address 0xFFFF. -/
  | memRange
deriving DecidableEq, Repr

end Sys2Proof
end

