-- ==== Sys2Proof/WellFormed.lean ====
section
/-! DEFINITION. Which commands have an encoding: the counts fit their fields (spec/30_encoding.md R57, R58). -/

namespace Sys2Proof

/-- FBITS and STOPB fit 4 bits, BPS fits 28 bits; the other operands have the width of their field by type. -/
def Instr.wellFormed : Instr → Bool
  | .init _ _ fbits _ stopb => decide (fbits < 16) && decide (stopb < 16)
  | .setbaud bps => decide (bps < 268435456)
  | .enable => true
  | .txbyte _ => true
  | .txline _ => true
  | .rxbyte => true
  | .rxline => true

/-- The same check for a pseudo-instruction: each command it expands to has an encoding. -/
def Pseudo.wellFormed : Pseudo → Bool
  | .openLine _ _ fbits _ stopb bps => decide (fbits < 16) && decide (stopb < 16) && decide (bps < 268435456)
  | .rebaud bps => decide (bps < 268435456)
  | .echoline => true

end Sys2Proof
end

