-- ==== Sys2Proof/Decode.lean ====
section
/-! DEFINITION. The decoder, total on every 32-bit word and rejecting by cause, then the encoder, the opcode map and the
pseudo-instruction expansions (spec/30_encoding.md). -/

namespace Sys2Proof

/-- `v[hi:lo]` of a command word, as an unsigned number (spec/00_scope.md R9). -/
def slice (w : CmdWord) (hi lo : Nat) : Nat := w.toNat / 2 ^ lo % 2 ^ (hi - lo + 1)

/-- The decoder of R63. -/
def decode (w : CmdWord) : Except Cause Instr :=
  if slice w 31 28 = 1 then
    if slice w 27 12 ≠ 0 then .error (.reservedField 1)
    else .ok (.init (slice w 11 11 == 1) (slice w 10 10 == 1) (slice w 9 6) (BitVec.ofNat 2 (slice w 5 4)) (slice w 3 0))
  else if slice w 31 28 = 2 then .ok (.setbaud (slice w 27 0))
  else if slice w 31 28 = 3 then
    if slice w 27 0 ≠ 0 then .error (.reservedField 3) else .ok .enable
  else if slice w 31 28 = 4 then
    if slice w 27 16 ≠ 0 then .error (.reservedField 4) else .ok (.txbyte (BitVec.ofNat 16 (slice w 15 0)))
  else if slice w 31 28 = 5 then
    if slice w 27 16 ≠ 0 then .error (.reservedField 5) else .ok (.txline (BitVec.ofNat 16 (slice w 15 0)))
  else if slice w 31 28 = 6 then
    if slice w 27 0 ≠ 0 then .error (.reservedField 6) else .ok .rxbyte
  else if slice w 31 28 = 7 then
    if slice w 27 0 ≠ 0 then .error (.reservedField 7) else .ok .rxline
  else .error (.reservedOpcode (BitVec.ofNat 4 (slice w 31 28)))

/-- The word of a well-formed command: the fields of R57 to R60 at their places, the reserved fields 0, summed as R68's
working does. -/
def encode : Instr → CmdWord
  | .init mode speed fbits par stopb =>
    BitVec.ofNat 32 (0x10000000 + mode.toNat * 2048 + speed.toNat * 1024 + fbits * 64 + par.toNat * 16 + stopb)
  | .setbaud bps => BitVec.ofNat 32 (0x20000000 + bps)
  | .enable => 0x30000000#32
  | .txbyte value => BitVec.ofNat 32 (0x40000000 + value.toNat)
  | .txline addr => BitVec.ofNat 32 (0x50000000 + addr.toNat)
  | .rxbyte => 0x60000000#32
  | .rxline => 0x70000000#32

/-- The OP field of each command (R62). -/
def opOf : Instr → Nat
  | .init _ _ _ _ _ => 1
  | .setbaud _ => 2
  | .enable => 3
  | .txbyte _ => 4
  | .txline _ => 5
  | .rxbyte => 6
  | .rxline => 7

/-- The `mask` column of R62. -/
def maskOf : Instr → CmdWord
  | .init _ _ _ _ _ => 0xFFFFF000#32
  | .setbaud _ => 0xF0000000#32
  | .enable => 0xFFFFFFFF#32
  | .txbyte _ => 0xFFFF0000#32
  | .txline _ => 0xFFFF0000#32
  | .rxbyte => 0xFFFFFFFF#32
  | .rxline => 0xFFFFFFFF#32

/-- The `match` column of R62. -/
def matchOf : Instr → CmdWord
  | .init _ _ _ _ _ => 0x10000000#32
  | .setbaud _ => 0x20000000#32
  | .enable => 0x30000000#32
  | .txbyte _ => 0x40000000#32
  | .txline _ => 0x50000000#32
  | .rxbyte => 0x60000000#32
  | .rxline => 0x70000000#32

/-- The pseudo-instructions' expansions (R67); `lineBuf` is LINEBUF_BASE. -/
def expand (lineBuf : Word16) : Pseudo → List Instr
  | .openLine mode speed fbits par stopb bps => [.init mode speed fbits par stopb, .setbaud bps, .enable]
  | .rebaud bps => [.setbaud bps, .enable]
  | .echoline => [.rxline, .txline lineBuf]

/-- The command word whose bits are those of `w` below `nbits` and 0 above. A command word is one 32-bit value with no
byte order (spec/20_memory.md R44), so its bits are numbered as the opcode table numbers them. -/
def tableWord (nbits w : Nat) : CmdWord := BitVec.ofNat 32 (w % 2 ^ nbits)

/-- What the decoder reads from the instruction with the bits `w`, numbered as spec/opcode_table.json numbers them. -/
def decodeTableWord (nbits w : Nat) : Option Instr :=
  match decode (tableWord nbits w) with
  | .ok i => some i
  | .error _ => none

end Sys2Proof
end

