-- ==== Sys2Proof/Config.lean ====
section
/-! DEFINITION. What an implementation fixes (the parameters of spec/00_scope.md R8), the events that come from outside the
sequencer's program, and the free values. -/

namespace Sys2Proof

/-- DIV_ARITH: how the divisor quotient is computed (R8; spec/42_divisor.md R86). -/
inductive DivArith where
  | exact
  | binary32
  | binary64
deriving DecidableEq, Repr

/-- The parameters of R8 that are OPEN or have more than one described value. They are plain data that State carries and no
step changes, so a statement about every state speaks of every value of them (log 2). -/
structure Params where
  /-- F_CLK, the CPU clock frequency in Hz. -/
  fClk : Nat
  /-- LINEBUF_BASE, the host address of line buffer byte 0. -/
  linebufBase : Word16
  /-- STRICT_CONFIG. -/
  strictConfig : Bool
  /-- DIV_ARITH. -/
  divArith : DivArith
  /-- CAP_EXTRA_READ. -/
  capExtraRead : Bool
  /-- LOOPBACK. -/
  loopback : Bool
deriving DecidableEq, Repr

/-- R8's constraints: F_CLK is a positive integer, and LINEBUF_BASE + 9 does not exceed 0xFFFF. -/
def Params.wf (p : Params) : Bool := decide (0 < p.fClk) && decide (p.linebufBase.toNat + 9 ≤ 0xFFFF)

/-- The parameters State.reset carries: this hardware's values and defaults of R8 where it gives one; for the two OPEN
parameters without a default, the values of the spec's examples (DESIGN CHOICE, log 2, unsafe for a claim about the run from
State.reset alone). -/
def Params.examples : Params :=
  { fClk := 12000000, linebufBase := 0x0100#16, strictConfig := false, divArith := .exact, capExtraRead := false,
    loopback := false }

/-- What can happen next: one agent's turn, an offer of the environment, or reset (spec/40_sequencer.md R75,
spec/43_frame_codec.md R96, R97, R101, spec/70_reset_and_hazards.md R130). -/
inductive Event where
  /-- The sequencer's turn (R70, R73). -/
  | sequencer
  /-- The TX engine's step LOAD (R96). -/
  | txLoad
  /-- The TX engine's step SHIFT (R97). -/
  | txShift
  /-- The environment offers a frame and the RX engine takes it (R101, R102); bit `i` of `free` is frame bit `i + 1`, free
  in the spec, and a frame has at most twelve bits. -/
  | offer (free : BitVec 11)
  /-- The platform asserts reset (R130). -/
  | reset
deriving DecidableEq, Repr, Inhabited

/-- FREE VALUE (log 3): which event comes next when nothing has decided it, the n-th free value taken (R75: "which one is
free"; R101: nothing obliges the environment ever to offer a frame). -/
opaque Config.freeEvent : Nat → Event

/-- FREE VALUE (log 6): the draw a read of `CTRLB.RXB8` gives with an empty FIFO (spec/10_state.md R24). -/
opaque Config.freeBit : Nat → Bool

/-- FREE VALUE (log 6): the draw a read of `DATA` gives with an empty FIFO (spec/10_state.md R18). -/
opaque Config.freeByte : Nat → Byte

/-- FREE VALUE (log 18): bit `i` of the n-th draw, the bits of a corrupt frame that a reader of the wire sees in place of those
the encoder made (spec/43_frame_codec.md R98). -/
opaque Config.freeWireBit : Nat → Nat → Bool

end Sys2Proof
end

