-- ==== Sys2Proof/Machine/State.lean ====
section
/-! DEFINITION. The state of the block as plain data (spec/10_state.md R13), its value after reset (R38), and the reasons
for which the model itself stops. -/

namespace Sys2Proof.Machine

/-- A frame of the transmit path: its bits in wire order and whether a divisor write corrupted it (R30, R33). The bits of a
corrupt frame are a draw (spec/43_frame_codec.md R98, log 18). -/
structure Frame where
  bits : List Bool
  corrupt : Bool
deriving DecidableEq, Repr

/-- An entry of the receive FIFO (R31). -/
structure RxEntry where
  data : Char9
  fe : Bool
  pe : Bool
deriving DecidableEq, Repr

/-- The sequencer's control state (R35). -/
inductive Seq where
  /-- Ready to decode the command at CI. -/
  | idle
  /-- TXBYTE with the value `v`, waiting for UDRE. -/
  | txbWait (v : Word16)
  /-- TXLINE, about to read host byte `a`. -/
  | txlFetch (a : Nat)
  /-- TXLINE, byte `c` read from address `a`, waiting for UDRE. -/
  | txlWait (a : Nat) (c : Byte)
  /-- RXBYTE waiting for RXC. -/
  | rxbWait
  /-- RXLINE with `i` characters stored. -/
  | rxl (i : Nat)
  /-- The fault state, left only by reset. -/
  | faulted
deriving DecidableEq, Repr

/-- One write of INIT, SETBAUD or ENABLE that is a step of its own. spec/20_memory.md R46 makes each register access one; a field
write with its read-modify-write (R41) is one access here, and so is `write_fsz`'s write of the latched flag EXT, which no
register holds (DESIGN CHOICE, log 21). -/
inductive Access where
  /-- `CTRLC.MODE <- b`. -/
  | mode (b : Bool)
  /-- `STATA.U2X <- b`. -/
  | u2x (b : Bool)
  /-- `CTRLB.FSZ2 <- b`. -/
  | fsz2 (b : Bool)
  /-- `CTRLC.FSZ1_0 <- c`. -/
  | fsz10 (c : BitVec 2)
  /-- `EXT <- b`, of `write_fsz` (spec/41_config.md R81). -/
  | ext (b : Bool)
  /-- `CTRLC.PAR <- p`. -/
  | par (p : BitVec 2)
  /-- `CTRLC.STOP <- b`. -/
  | stop (b : Bool)
  /-- `CTRLB.TXEN <- b`. -/
  | txen (b : Bool)
  /-- `CTRLB.RXEN <- b`. -/
  | rxen (b : Bool)
  /-- `BAUDH <- v`. -/
  | baudh (v : Byte)
  /-- `BAUDL <- v`. -/
  | baudl (v : Byte)
deriving DecidableEq, Repr

/-- A parity scheme (spec/41_config.md R82: codes 0, 2 and 3). -/
inductive Parity where
  | none
  | even
  | odd
deriving DecidableEq, Repr

/-- The frame format the register file holds (spec/43_frame_codec.md R91): data bits `n`, parity, stop bits. -/
structure Format where
  n : Nat
  parity : Parity
  stops : Nat
deriving DecidableEq, Repr

/-- The registers of the register file (spec/20_memory.md R40). -/
inductive Reg where
  | data
  | stata
  | ctrlb
  | ctrlc
  | baudh
  | baudl
deriving DecidableEq, Repr

/-- Host memory: the bytes that differ from 0x00, by rising address; an address not listed reads as 0x00 (log 10). -/
abbrev Memory := List Host.Cell

/-- The whole state: what R13 names, then the inputs the spec keeps outside the block and a step must read (program,
parameters), then the model's own fields (pending and lineChar, log 21; agenda and draws, log 3). A bit that R19 to R25
compute or hardwire is no field. -/
structure State where
  /-- The parameters of R8 (log 2); no step changes them. -/
  params : Params
  /-- The program P of spec/40_sequencer.md R69 (log 1); no step changes it. -/
  program : List CmdWord
  /-- MODEF: true is Synchronous (R16). -/
  modef : Bool
  /-- U2XF: true is Double speed (R16). -/
  u2xf : Bool
  /-- EXT: true when the frame width is 9 (R16). -/
  ext : Bool
  /-- CONFIGURED, set by INIT (R17). -/
  configured : Bool
  /-- DIV_SET, set by SETBAUD (R17). -/
  divSet : Bool
  /-- STATA.TXC (R22). -/
  txc : Bool
  /-- STATA.DOR (R23). -/
  dor : Bool
  /-- STATA.U2X (R19). -/
  u2x : Bool
  /-- CTRLB.RXEN (R24). -/
  rxen : Bool
  /-- CTRLB.TXEN (R24). -/
  txen : Bool
  /-- CTRLB.FSZ2 (R24, R26). -/
  fsz2 : Bool
  /-- CTRLB.TXB8 (R24). -/
  txb8 : Bool
  /-- CTRLC.MODE (R25). -/
  mode : Bool
  /-- CTRLC.PAR (R25). -/
  par : BitVec 2
  /-- CTRLC.STOP (R25). -/
  stop : Bool
  /-- CTRLC.FSZ1_0 (R25, R26). -/
  fsz10 : BitVec 2
  /-- BAUDH (R27). -/
  baudh : Byte
  /-- BAUDL (R27). -/
  baudl : Byte
  /-- DIV_ACTIVE, the divisor in use (R28). -/
  divActive : BitVec 16
  /-- TXBUF (R29). -/
  txbuf : Option Char9
  /-- TSR (R30). -/
  tsr : Option Frame
  /-- RXFIFO, oldest first (R31). -/
  rxfifo : List RxEntry
  /-- CI, the command index (R15). -/
  ci : Nat
  /-- SEQ (R35). -/
  seq : Seq
  /-- RES (R36). -/
  res : Word16
  /-- FCODE (R37). -/
  fcode : Byte
  /-- FSUB (R37). -/
  fsub : Byte
  /-- FCMD (R37). -/
  fcmd : Nat
  /-- HMEM, the line buffer included (spec/20_memory.md R42, R43). -/
  mem : Memory
  /-- TXWIRE, oldest first (R33). -/
  txwire : List Frame
  /-- LBPTR (R33). -/
  lbptr : Nat
  /-- The model's own: the accesses the command under way has still to make, in order. Between two accesses R35 names no other
  state, so SEQ stays IDLE meanwhile (log 21). -/
  pending : List Access
  /-- The model's own: RXLINE's variable `c` of R111, between the step that reads a character and the step that stores it; SEQ
  stays RXL(i) meanwhile (log 21). -/
  lineChar : Option Byte
  /-- The model's own: the events already decided, first one next (log 3). -/
  agenda : List Event
  /-- The model's own: how many free values have been taken (log 3). -/
  draws : Nat
deriving DecidableEq, Repr

/-- Why the model stops although the block has no such stop. No state a run can reach meets either. -/
inductive Fault where
  /-- Raised by the TX engine's LOAD and the RX engine's RECEIVE when the register file holds a reserved frame-size code
  (4 to 6) or the reserved parity code 1, for which spec/10_state.md R26 and spec/43_frame_codec.md R91 give no format.
  SAFE: no command writes such a code (log 8). -/
  | reservedFormat
  /-- Raised by RXLINE when the line-buffer byte it writes lies above host address 0xFFFF, which spec/20_memory.md R49 says
  does not exist. SAFE: R8 constrains LINEBUF_BASE so that it cannot happen (log 9). -/
  | hostAddress
deriving DecidableEq, Repr

/-- Why the model gives an instruction no meaning. -/
inductive Refusal where
  /-- An arm of exec that has no meaning yet; no arm answers so. SAFE: nothing can be proved about a refused step. -/
  | notModelled (mnemonic : String)
deriving DecidableEq, Repr

/-- The outcome of a step of this machine. -/
abbrev Out := Host.Outcome State Fault Refusal

/-- The state right after the reset of launch (R38, R130), for given parameters, program and host memory: the three launch
inputs, of which R38 fixes only that the line buffer holds zeros. The fields of the model's own start empty and at 0
(DESIGN CHOICE, logs 3 and 21). -/
def State.launch (p : Params) (program : List CmdWord) (mem : Memory) : State :=
  { params := p, program := program,
    modef := false, u2xf := false, ext := false, configured := false, divSet := false,
    txc := false, dor := false, u2x := false,
    rxen := false, txen := false, fsz2 := false, txb8 := false,
    mode := false, par := 0, stop := false, fsz10 := 3,
    baudh := 0, baudl := 0, divActive := 0,
    txbuf := .none, tsr := .none, rxfifo := [],
    ci := 0, seq := .idle, res := 0,
    fcode := 0, fsub := 0, fcmd := 0,
    mem := mem, txwire := [], lbptr := 0,
    pending := [], lineChar := .none, agenda := [], draws := 0 }

/-- The machine right after reset, with nothing loaded: the example parameters (log 2), no program (log 1), host memory all
0x00 (log 10). -/
def State.reset : State := State.launch Params.examples [] []

end Sys2Proof.Machine
end

