-- ==== Sys2Proof/Machine/Flags.lean ====
section
/-! DEFINITION. The flags of the status and control registers that are computed, not stored, and the registers read as whole
bytes (spec/10_state.md R19 to R27). -/

namespace Sys2Proof.Machine

/-- STATA.RXC: the receive FIFO is non-empty (R20). -/
def rxc (s : State) : Bool := !s.rxfifo.isEmpty

/-- STATA.UDRE: the transmit buffer is empty (R21). -/
def udre (s : State) : Bool := s.txbuf.isNone

/-- STATA.FE: the framing error of the FIFO head, 0 when the FIFO is empty (R23). -/
def feFlag (s : State) : Bool :=
  match s.rxfifo with
  | [] => false
  | e :: _ => e.fe

/-- STATA.PE: the parity error of the FIFO head, 0 when the FIFO is empty (R23). -/
def peFlag (s : State) : Bool :=
  match s.rxfifo with
  | [] => false
  | e :: _ => e.pe

/-- CTRLB.RXB8: the ninth bit of the FIFO head, a draw when the FIFO is empty (R24, log 6). -/
def rxb8 (s : State) : Bool :=
  match s.rxfifo with
  | [] => Config.freeBit s.draws
  | e :: _ => e.data.getLsbD 8

/-- A byte from its bits, bit 7 first. -/
def byteOf (b7 b6 b5 b4 b3 b2 b1 b0 : Bool) : Byte := BitVec.ofBoolListLE [b0, b1, b2, b3, b4, b5, b6, b7]

/-- STATA as a byte (R19); MPCM is hardwired 0. -/
def stataByte (s : State) : Byte :=
  byteOf (rxc s) s.txc (udre s) (feFlag s) s.dor (peFlag s) s.u2x false

/-- CTRLB as a byte (R24); bits 7:5 are hardwired 0. -/
def ctrlbByte (s : State) : Byte :=
  byteOf false false false s.rxen s.txen s.fsz2 (rxb8 s) s.txb8

/-- CTRLC as a byte (R25); bits 7 and 0 are hardwired 0. -/
def ctrlcByte (s : State) : Byte :=
  byteOf false s.mode (s.par.getLsbD 1) (s.par.getLsbD 0) s.stop (s.fsz10.getLsbD 1) (s.fsz10.getLsbD 0) false

/-- FSZ, the 3-bit frame-size code `{CTRLB.FSZ2, CTRLC.FSZ1_0}` (R26). -/
def fsz (s : State) : BitVec 3 := BitVec.ofBool s.fsz2 ++ s.fsz10

/-- The 16-bit divisor the register pair holds, `{BAUDH, BAUDL}` (R27). -/
def baudPair (s : State) : BitVec 16 := s.baudh ++ s.baudl

end Sys2Proof.Machine
end

