-- ==== Sys2Proof/Machine/Ops.lean ====
section
/-! DEFINITION. The named operations over memory, registers and the sequencer, and the fault entry and reset that every
command shares. -/

namespace Sys2Proof.Machine

/-! ## Host memory (spec/20_memory.md R42, R43) -/

/-- The number of host addresses (R42). -/
def hostBytes : Nat := 0x10000

/-- `MemRead(a, 1)`: an address that is not listed reads as 0x00 (log 10). -/
def memRead : Memory → Nat → Byte
  | [], _ => 0
  | (a, b) :: m, x => if x = a then b else memRead m x

/-- `MemWrite(a, 1, v)`, keeping the canonical form: addresses rise, and no listed byte is 0x00. -/
def memWrite : Memory → Nat → Byte → Memory
  | [], x, v => if v = 0 then [] else [(x, v)]
  | (a, b) :: m, x, v =>
    if x < a then (if v = 0 then (a, b) :: m else (x, v) :: (a, b) :: m)
    else if x = a then (if v = 0 then m else (x, v) :: m)
    else (a, b) :: memWrite m x v

/-- The canonical form from address `lo` on. -/
def memWfFrom : Nat → Memory → Bool
  | _, [] => true
  | lo, (a, b) :: m => decide (lo ≤ a) && decide (a < hostBytes) && (b != 0) && memWfFrom (a + 1) m

/-- The canonical form of host memory: addresses strictly rise and exist, and no listed byte is what an unlisted address
reads as. -/
def Memory.wf (m : Memory) : Bool := memWfFrom 0 m

/-- The host address of `LINEBUF[j]` (R43). -/
def lineAddr (s : State) (j : Nat) : Nat := s.params.linebufBase.toNat + j

/-- The line buffer's first `k` bytes, from the address `base`, set to 0x00. -/
def memZero (m : Memory) (base : Nat) : Nat → Memory
  | 0 => m
  | k + 1 => memWrite (memZero m base k) (base + k) 0

/-- Write one byte of the line buffer and go on with `k`; an address that host memory does not have stops the model (R49,
log 9). -/
def storeLine (j : Nat) (v : Byte) (s : State) (k : State → State) : Out :=
  if lineAddr s j < hostBytes then .next (k { s with mem := memWrite s.mem (lineAddr s j) v })
  else .fault .hostAddress

/-! ## Registers (spec/20_memory.md R40, R41) -/

/-- The register at an offset; offsets 0x6 to 0xFF are reserved and no operation accesses them (R40). -/
def regOfOffset (off : Byte) : Option Reg :=
  if off = 0 then some .data
  else if off = 1 then some .stata
  else if off = 2 then some .ctrlb
  else if off = 3 then some .ctrlc
  else if off = 4 then some .baudh
  else if off = 5 then some .baudl
  else .none

/-- `CTRLB.TXEN <- b`. -/
def setTxen (b : Bool) (s : State) : State := { s with txen := b }

/-- `CTRLB.RXEN <- b`; a change from 1 to 0 empties RXFIFO and clears DOR (spec/10_state.md R32). -/
def setRxen (b : Bool) (s : State) : State :=
  { s with rxen := b, rxfifo := if s.rxen && !b then [] else s.rxfifo, dor := s.dor && !(s.rxen && !b) }

/-- `CTRLB.TXB8 <- b`. -/
def setTxb8 (b : Bool) (s : State) : State := { s with txb8 := b }

/-- `CTRLB.FSZ2 <- b`. -/
def setFsz2 (b : Bool) (s : State) : State := { s with fsz2 := b }

/-- `CTRLC.FSZ1_0 <- c`. -/
def setFsz10 (c : BitVec 2) (s : State) : State := { s with fsz10 := c }

/-- `CTRLC.MODE <- b`. -/
def setMode (b : Bool) (s : State) : State := { s with mode := b }

/-- `STATA.U2X <- b`. -/
def setU2x (b : Bool) (s : State) : State := { s with u2x := b }

/-- `EXT <- b` (spec/41_config.md R81). -/
def setExt (b : Bool) (s : State) : State := { s with ext := b }

/-- `CTRLC.PAR <- p`. -/
def setPar (p : BitVec 2) (s : State) : State := { s with par := p }

/-- `CTRLC.STOP <- b`. -/
def setStop (b : Bool) (s : State) : State := { s with stop := b }

/-- A write of `DATA`: `TXBUF <- {CTRLB.TXB8, b}` (R41, spec/10_state.md R18, R29). -/
def writeData (b : Byte) (s : State) : State := { s with txbuf := some (BitVec.ofBool s.txb8 ++ b) }

/-- A write of `BAUDH`: it only stores the byte (spec/10_state.md R27). -/
def writeBaudh (b : Byte) (s : State) : State := { s with baudh := b }

/-- The first `len` bits of the n-th draw (log 18). -/
def drawBits (n len : Nat) : List Bool := (List.range len).map (Config.freeWireBit n)

/-- A frame marked corrupt: it keeps its length, and its bits are the n-th draw (spec/43_frame_codec.md R98, log 18). -/
def corruptFrame (n : Nat) (f : Frame) : Frame := { bits := drawBits n f.bits.length, corrupt := true }

/-- A write of `BAUDL`: it stores the byte, copies the pair into DIV_ACTIVE and marks a frame in TSR corrupt, which takes a draw
(R41, spec/10_state.md R27, spec/43_frame_codec.md R98). -/
def writeBaudl (b : Byte) (s : State) : State :=
  { s with baudl := b, divActive := s.baudh ++ b, tsr := s.tsr.map (corruptFrame s.draws),
           draws := if s.tsr.isSome then s.draws + 1 else s.draws }

/-- `RegWrite`, with the side effects of R41. -/
def regWrite : Reg → Byte → State → State
  | .data, b, s => writeData b s
  | .stata, v, s => { s with u2x := v.getLsbD 1, txc := s.txc && !v.getLsbD 6 }
  | .ctrlb, v, s => { setRxen (v.getLsbD 4) s with txen := v.getLsbD 3, fsz2 := v.getLsbD 2, txb8 := v.getLsbD 0 }
  | .ctrlc, v, s =>
    { s with mode := v.getLsbD 6, par := v.extractLsb' 4 2, stop := v.getLsbD 3, fsz10 := v.extractLsb' 1 2 }
  | .baudh, b, s => writeBaudh b s
  | .baudl, b, s => writeBaudl b s

/-- One more free value has been taken. -/
def drawn (s : State) : State := { s with draws := s.draws + 1 }

/-- `RegRead`, with the side effects of R41: a `DATA` read removes the FIFO head and clears DOR; with an empty FIFO it
gives a draw and removes nothing (spec/10_state.md R18), and so does the bit RXB8 of `CTRLB` (R24). -/
def regRead : Reg → State → Byte × State
  | .data, s =>
    match s.rxfifo with
    | [] => (Config.freeByte s.draws, drawn s)
    | e :: rest => (e.data.setWidth 8, { s with rxfifo := rest, dor := false })
  | .stata, s => (stataByte s, s)
  | .ctrlb, s => (ctrlbByte s, if rxc s then s else drawn s)
  | .ctrlc, s => (ctrlcByte s, s)
  | .baudh, s => (s.baudh, s)
  | .baudl, s => (s.baudl, s)

/-! ## The sequencer (spec/40_sequencer.md) -/

/-- `SEQ <- q`. -/
def setSeq (q : Seq) (s : State) : State := { s with seq := q }

/-- `complete`: SEQ <- IDLE and CI <- CI + 1 (R71). -/
def complete (s : State) : State := { s with seq := .idle, ci := s.ci + 1 }

/-- The sequencer takes no step: its condition is false, it is FAULTED, or its program has ended (R70, R73). -/
def hold (s : State) : Out := .next s

/-- The word at a position of the program, replaced; the program is lengthened with zero words where it is too short. -/
def setWordAt : List CmdWord → Nat → CmdWord → List CmdWord
  | [], 0, w => [w]
  | [], n + 1, w => 0 :: setWordAt [] n w
  | _ :: ws, 0, w => w :: ws
  | v :: ws, n + 1, w => v :: setWordAt ws n w

/-- The next event and the state with it taken: the head of the agenda, or a free value (log 3). -/
def takeEvent (s : State) : Event × State :=
  match s.agenda with
  | e :: rest => (e, { s with agenda := rest })
  | [] => (Config.freeEvent s.draws, drawn s)

/-! ## Fault entry, accesses and reset (spec/60_exceptions.md R116, R119, R120; spec/70_reset_and_hazards.md R130) -/

/-- FCODE of each cause (R116). -/
def causeCode : Cause → Byte
  | .reservedOpcode _ => 1
  | .reservedField _ => 2
  | .secondInit => 3
  | .baudBeforeInit => 3
  | .enableBeforeBaud => 3
  | .baudZero => 4
  | .divisorNegative => 5
  | .divisorTooWide => 5
  | .widthOutOfRange => 6
  | .parityReserved => 6
  | .stopBitsTooMany => 6
  | .memRange => 7

/-- FSUB of each cause (R116). -/
def causeSub : Cause → Byte
  | .reservedOpcode op => op.setWidth 8
  | .reservedField op => op.setWidth 8
  | .secondInit => 1
  | .baudBeforeInit => 2
  | .enableBeforeBaud => 3
  | .baudZero => 0
  | .divisorNegative => 1
  | .divisorTooWide => 2
  | .widthOutOfRange => 1
  | .parityReserved => 2
  | .stopBitsTooMany => 3
  | .memRange => 0

/-- `raise Fault`: the record is written, CI is not advanced, SEQ becomes FAULTED, and nothing else changes (R119). There is
no return from it but reset (R120). -/
def raise (c : Cause) (s : State) : State :=
  { s with fcode := causeCode c, fsub := causeSub c, fcmd := s.ci, seq := .faulted }

/-- What one access writes, with its side effects (R41). -/
def access (a : Access) (s : State) : State :=
  match a with
  | .mode b => setMode b s
  | .u2x b => setU2x b s
  | .fsz2 b => setFsz2 b s
  | .fsz10 c => setFsz10 c s
  | .ext b => setExt b s
  | .par p => setPar p s
  | .stop b => setStop b s
  | .txen b => setTxen b s
  | .rxen b => setRxen b s
  | .baudh v => writeBaudh v s
  | .baudl v => writeBaudl v s

/-- The next of the accesses left, one step (spec/20_memory.md R46); the last one takes the command's ending `fin` with it
(log 21). -/
def accessStep (fin : State → State) (s : State) : Out :=
  match s.pending with
  | [] => hold s
  | [a] => .next (fin (access a { s with pending := [] }))
  | a :: rest => .next (access a { s with pending := rest })

/-- A step of a command that is all checks and register writes: with no access left over, its first failing check `cause` or
its first access, after the latches `latch`; otherwise its next access. In a sequencer state of another command, or FAULTED, no
step (log 12). -/
def commandStep (cause : Option Cause) (latch : State → State) (as : List Access) (fin : State → State) (s : State) : Out :=
  match s.seq with
  | .idle =>
    match s.pending with
    | [] =>
      match cause with
      | some c => .next (raise c s)
      | Option.none => accessStep fin { latch s with pending := as }
    | _ :: _ => accessStep fin s
  | _ => hold s

/-- The reset event (R130): every piece of state takes its value of R38; host memory outside the line buffer, the program
and the parameters stay, and so do the model's agenda and draws (log 11). The command in progress is abandoned, with the
accesses it had left and the character it held (log 21). -/
def resetBlock (s : State) : State :=
  { State.launch s.params s.program (memZero s.mem s.params.linebufBase.toNat 10) with
    agenda := s.agenda, draws := s.draws }

end Sys2Proof.Machine
end

