-- ==== Sys2Proof/Machine/Operands.lean ====
section
/-! DEFINITION. What the commands compute from their operands: frame-size codes, the accesses each configuration command makes,
the oversampling factor, the divisor quotient, and the frame format (spec/41_config.md, spec/42_divisor.md, spec/10_state.md). -/

namespace Sys2Proof.Machine

/-! ## Fixed parameters (spec/00_scope.md R8) -/

/-- LINE_CAP. -/
def lineCap : Nat := 9

/-- SENTINEL, the character `#`. -/
def sentinel : Byte := 0x23#8

/-- RX_FIFO_DEPTH. -/
def rxFifoDepth : Nat := 2

/-! ## INIT (spec/41_config.md R79 to R82) -/

/-- The frame-size code that `write_fsz` writes; none for a width outside 5 to 9 (R81). -/
def fszCode (fbits : Nat) : Option (BitVec 3) :=
  if fbits = 5 then some 0
  else if fbits = 6 then some 1
  else if fbits = 7 then some 2
  else if fbits = 8 then some 3
  else if fbits = 9 then some 7
  else .none

/-- The first check of INIT that fails, in the order of R79 (R118). -/
def initCause (fbits : Nat) (par : BitVec 2) (stopb : Nat) (s : State) : Option Cause :=
  if s.configured then some .secondInit
  else if s.params.strictConfig && !(decide (5 ≤ fbits) && decide (fbits ≤ 9)) then some .widthOutOfRange
  else if 0 < par.toNat ∧ 0 < stopb then
    if par = 1 then some .parityReserved
    else if 2 < stopb then some .stopBitsTooMany
    else .none
  else .none

/-- The register accesses of `write_fsz(fbits)` (R81): `FSZ <- c` is `CTRLB.FSZ2 <- c[2]` and `CTRLC.FSZ1_0 <- c[1:0]`. -/
def fszAccesses (fbits : Nat) : List Access :=
  match fszCode fbits with
  | some c => [.fsz2 (c.getLsbD 2), .fsz10 (c.extractLsb' 0 2)]
  | .none => []

/-- The accesses of `write_ps(par, stopb)` (R82): only when both are above 0. -/
def psAccesses (par : BitVec 2) (stopb : Nat) : List Access :=
  if 0 < par.toNat ∧ 0 < stopb then [.par par, .stop (decide (stopb = 2))] else []

/-- INIT's accesses after its checks, in the order of R79: mode and speed (R80), width and EXT (R81), parity and stop bits
(R82). -/
def initAccesses (mode speed : Bool) (fbits : Nat) (par : BitVec 2) (stopb : Nat) : List Access :=
  .mode mode :: .u2x speed :: (fszAccesses fbits ++ .ext (decide (fbits = 9)) :: psAccesses par stopb)

/-! ## SETBAUD (spec/42_divisor.md R84 to R87) -/

/-- The oversampling factor k from the mode and speed flags (R84). -/
def kfactor (sync double : Bool) : Nat :=
  if sync then 2 else if double then 8 else 16

/-- A natural number rounded to `p` significant bits, ties to even: `fl` of R86 on a number. -/
def roundNat (p n : Nat) : Nat :=
  if n < 2 ^ p then n
  else
    let u := 2 ^ (Nat.log2 n + 1 - p)
    let m := n / u
    let r := n % u
    if u < 2 * r ∨ (2 * r = u ∧ m % 2 = 1) then (m + 1) * u else m * u

/-- The whole part of `a / b` rounded to `p` significant bits, ties to even: the quotient is scaled by a power of two that
leaves more than `p` bits of it, and what the scaling drops only breaks ties (R86; exponents are not limited, log 14). -/
def floorQuotient (p a b : Nat) : Nat :=
  let sc := 2 ^ (p + Nat.log2 b + 1)
  let t := a * sc / b
  let lost := a * sc % b
  if t < 2 ^ p then t / sc
  else
    let u := 2 ^ (Nat.log2 t + 1 - p)
    let m := t / u
    let r := t % u
    (if u < 2 * r ∨ (2 * r = u ∧ (0 < lost ∨ m % 2 = 1)) then (m + 1) * u else m * u) / sc

/-- `floor(fl(fl(F_CLK) / fl(k * bps)))` in a binary format of `p` significant bits (R86). -/
def quotientFloat (p fClk den : Nat) : Nat := floorQuotient p (roundNat p fClk) (roundNat p den)

/-- `quotient(F_CLK, k, bps)` of R86. -/
def quotient (arith : DivArith) (fClk k bps : Nat) : Nat :=
  match arith with
  | .exact => fClk / (k * bps)
  | .binary32 => quotientFloat 24 fClk (k * bps)
  | .binary64 => quotientFloat 53 fClk (k * bps)

/-- The quotient a SETBAUD in this state computes. -/
def baudQuotient (bps : Nat) (s : State) : Nat :=
  quotient s.params.divArith s.params.fClk (kfactor s.modef s.u2xf) bps

/-- The first check of SETBAUD that fails, in the order of spec/42_divisor.md R88. -/
def setbaudCause (bps : Nat) (s : State) : Option Cause :=
  if !s.configured then some .baudBeforeInit
  else if bps = 0 then some .baudZero
  else if baudQuotient bps s = 0 then some .divisorNegative
  else if 0xFFFF < baudQuotient bps s - 1 then some .divisorTooWide
  else .none

/-- The divisor `d = q - 1` of R85, 16 bits. -/
def baudDivisor (bps : Nat) (s : State) : BitVec 16 := BitVec.ofNat 16 (baudQuotient bps s - 1)

/-- SETBAUD's accesses with the divisor `d`, in the order of R88: both paths off, high byte, low byte. -/
def setbaudAccesses (d : BitVec 16) : List Access :=
  [.txen false, .rxen false, .baudh (d.extractLsb' 8 8), .baudl (d.setWidth 8)]

/-! ## The frame format (spec/10_state.md R26, spec/43_frame_codec.md R91) -/

/-- The number of data bits a frame-size code selects; none for the reserved codes (R26). -/
def dataBits (c : BitVec 3) : Option Nat :=
  if c = 0 then some 5
  else if c = 1 then some 6
  else if c = 2 then some 7
  else if c = 3 then some 8
  else if c = 7 then some 9
  else .none

/-- The parity scheme a parity code selects; none for the reserved code 1 (R25). -/
def parityOf (p : BitVec 2) : Option Parity :=
  if p = 0 then some .none
  else if p = 2 then some .even
  else if p = 3 then some .odd
  else Option.none

/-- The format the register file holds (R91), none when it holds a reserved code (log 8). -/
def formatOf (s : State) : Option Format :=
  match dataBits (fsz s), parityOf s.par with
  | some n, some p => some { n := n, parity := p, stops := s.stop.toNat + 1 }
  | _, _ => Option.none

/-- `pb` of R91: 1 when the format has a parity bit. -/
def parityBits (f : Format) : Nat :=
  match f.parity with
  | .none => 0
  | .even => 1
  | .odd => 1

/-- `L`, the length of a transmitted frame (R91). -/
def frameLen (f : Format) : Nat := 1 + f.n + parityBits f + f.stops

/-- `Lr`, the length of a received frame as sampled (R91). -/
def sampledLen (f : Format) : Nat := 1 + f.n + parityBits f + 1

/-! ## Bit timing, which no step reads (spec/42_divisor.md R89, spec/70_reset_and_hazards.md R143) -/

/-- The periods of F_CLK one bit lasts (R89): `k` is taken from CTRLC.MODE and STATA.U2X. -/
def bitPeriod (s : State) : Nat := kfactor s.mode s.u2x * (s.divActive.toNat + 1)

/-- The achieved bit rate (R89). -/
def achievedRate (s : State) : Rat := (s.params.fClk : Rat) / (bitPeriod s : Rat)

/-- The periods of F_CLK a frame of `len` bits lasts (R143). -/
def frameCycles (len : Nat) (s : State) : Nat := len * bitPeriod s

/-- The rate error of the divisor `d` for the target rate `bps` (R90). -/
def rateError (fClk k d bps : Nat) : Rat := (fClk : Rat) / ((k * (d + 1) * bps : Nat) : Rat) - 1

end Sys2Proof.Machine
end

