-- ==== Sys2Proof/Machine/CharIo.lean ====
section
/-! DEFINITION. The character commands TXBYTE and RXBYTE and the procedures the line commands share with them
(spec/44_char_io.md). -/

namespace Sys2Proof.Machine

/-- `send_char(v)` (R106): with EXT = 1 the ninth bit first, then the data byte. -/
def sendChar (v : Word16) (s : State) : State :=
  writeData (v.setWidth 8) (if s.ext then setTxb8 (v.getLsbD 8) (setTxb8 false s) else s)

/-- `read_char()` (R108): with EXT = 1 CTRLB first, for RXB8, then DATA. -/
def readChar (s : State) : Char9 × State :=
  if s.ext then
    let st := regRead .ctrlb s
    let lo := regRead .data st.2
    (BitVec.ofBool (st.1.getLsbD 1) ++ lo.1, lo.2)
  else
    let lo := regRead .data s
    (lo.1.setWidth 9, lo.2)

/-- Step 2 of TXBYTE, from TXB_WAIT(v) (R107). -/
def txbWaitStep (v : Word16) (s : State) : Out :=
  if udre s then .next (complete (sendChar v s)) else hold s

/-- Step 2 of RXBYTE, from RXB_WAIT (R109). -/
def rxbWaitStep (s : State) : Out :=
  if rxc s then .next (complete { (readChar s).2 with res := (readChar s).1.setWidth 16 }) else hold s

/-- TXBYTE (R107): the step its sequencer state calls for. -/
def execTxbyte (value : Word16) (s : State) : Out :=
  match s.seq with
  | .idle => .next (setSeq (.txbWait value) s)
  | .txbWait v => txbWaitStep v s
  | _ => hold s

/-- RXBYTE (R109): the step its sequencer state calls for. -/
def execRxbyte (s : State) : Out :=
  match s.seq with
  | .idle => .next (setSeq .rxbWait s)
  | .rxbWait => rxbWaitStep s
  | _ => hold s

end Sys2Proof.Machine
end

