-- ==== Sys2Proof/Machine/ConfigCmds.lean ====
section
/-! DEFINITION. The configuration commands INIT and ENABLE (spec/41_config.md): checks and latches with the first access, one
step for each access (spec/20_memory.md R46). -/

namespace Sys2Proof.Machine

/-- INIT's latched flags MODEF and U2XF, written before its first access (R79; they are no registers and go with that access,
DESIGN CHOICE, log 21). -/
def initLatch (mode speed : Bool) (s : State) : State := { s with modef := mode, u2xf := speed }

/-- INIT's end (R79): CONFIGURED and completion, with its last access (DESIGN CHOICE, log 21). -/
def initEnd (s : State) : State := complete { s with configured := true }

/-- INIT (R79): the step that the accesses left call for (log 21). -/
def execInit (mode speed : Bool) (fbits : Nat) (par : BitVec 2) (stopb : Nat) (s : State) : Out :=
  commandStep (initCause fbits par stopb s) (initLatch mode speed) (initAccesses mode speed fbits par stopb) initEnd s

/-- The check of ENABLE (R83). -/
def enableCause (s : State) : Option Cause := if s.divSet then Option.none else some .enableBeforeBaud

/-- ENABLE (R83): `CTRLB.TXEN <- 1`, then `CTRLB.RXEN <- 1`, one step each (log 21). -/
def execEnable (s : State) : Out := commandStep (enableCause s) id [.txen true, .rxen true] complete s

end Sys2Proof.Machine
end

