-- ==== Sys2Proof/Machine/Divisor.lean ====
section
/-! DEFINITION. The baud-rate command SETBAUD (spec/42_divisor.md R88): one step for each of its four register writes, so that
between the two of the divisor the pair holds the new high byte beside the old low byte (spec/20_memory.md R46). -/

namespace Sys2Proof.Machine

/-- SETBAUD's end (R88): DIV_SET and completion, with its last access (DESIGN CHOICE, log 21). -/
def setbaudEnd (s : State) : State := complete { s with divSet := true }

/-- SETBAUD (R88): the step that the accesses left call for (log 21). -/
def execSetbaud (bps : Nat) (s : State) : Out :=
  commandStep (setbaudCause bps s) id (setbaudAccesses (baudDivisor bps s)) setbaudEnd s

end Sys2Proof.Machine
end

