-- ==== Sys2Proof/Machine/LineIo.lean ====
section
/-! DEFINITION. The line commands TXLINE and RXLINE (spec/45_line_io.md). -/

namespace Sys2Proof.Machine

/-- TXLINE from TXL_FETCH(a) (R110). -/
def txlFetchStep (a : Nat) (s : State) : Out :=
  if 0xFFFF < a then .next (raise .memRange s)
  else if memRead s.mem a = 0 then .next (complete s)
  else .next (setSeq (.txlWait a (memRead s.mem a)) s)

/-- TXLINE from TXL_WAIT(a, c) (R110): the character goes with bit 8 = 0. -/
def txlWaitStep (a : Nat) (c : Byte) (s : State) : Out :=
  if udre s then .next (setSeq (.txlFetch (a + 1)) (sendChar (c.setWidth 16) s)) else hold s

/-- TXLINE (R110): the step its sequencer state calls for. -/
def execTxline (addr : Word16) (s : State) : Out :=
  match s.seq with
  | .idle => .next (setSeq (.txlFetch addr.toNat) s)
  | .txlFetch a => txlFetchStep a s
  | .txlWait a c => txlWaitStep a c s
  | _ => hold s

/-- The end of a line with `i` characters stored (R111): the terminator, RES, completion. -/
def finishLine (i : Nat) (s : State) : Out :=
  storeLine i 0 s fun t => complete { t with res := t.params.linebufBase }

/-- RXLINE's read of one character with RXC = 1 (R111): `read_char` is one step (R108), and its low 8 bits are kept for the
store (log 21). -/
def rxlReadStep (s : State) : Out :=
  if rxc s then .next { (readChar s).2 with lineChar := some ((readChar s).1.setWidth 8) } else hold s

/-- RXLINE's store of the character `c` read with `i` characters stored (R111, R112), a step of its own (spec/20_memory.md
R46); at the cap `c` is discarded and the line ends (R113). -/
def rxlStoreStep (i : Nat) (c : Byte) (s : State) : Out :=
  if i = lineCap ∨ c = sentinel then finishLine i s
  else storeLine i c s fun t => setSeq (.rxl (i + 1)) t

/-- RXLINE from RXL(i) (R111): the store of a character that was read; at the cap, unless R113 has one more read, the end of the
line; otherwise the read of a character. -/
def rxlStep (i : Nat) (s : State) : Out :=
  match s.lineChar with
  | some c => rxlStoreStep i c { s with lineChar := Option.none }
  | Option.none => if i = lineCap ∧ s.params.capExtraRead = false then finishLine lineCap s else rxlReadStep s

/-- RXLINE (R111): the step its sequencer state calls for. -/
def execRxline (s : State) : Out :=
  match s.seq with
  | .idle => .next (setSeq (.rxl 0) s)
  | .rxl i => rxlStep i s
  | _ => hold s

end Sys2Proof.Machine
end

