-- ==== Sys2Proof/Machine/Dispatch.lean ====
section
/-! DEFINITION. One arm per command, each one call of its meaning. -/

namespace Sys2Proof.Machine

/-- The sequencer's step of one command (spec/40_sequencer.md R70, R73). -/
def exec (i : Instr) (s : State) : Host.Outcome State Fault Refusal :=
  match i with
  | .init mode speed fbits par stopb => Sys2Proof.Machine.execInit mode speed fbits par stopb s
  | .setbaud bps => Sys2Proof.Machine.execSetbaud bps s
  | .enable => Sys2Proof.Machine.execEnable s
  | .txbyte value => Sys2Proof.Machine.execTxbyte value s
  | .txline addr => Sys2Proof.Machine.execTxline addr s
  | .rxbyte => Sys2Proof.Machine.execRxbyte s
  | .rxline => Sys2Proof.Machine.execRxline s

end Sys2Proof.Machine
end

