-- ==== Sys2Proof/Machine/FrameCodec.lean ====
section
/-! DEFINITION. The frame encoder and decoder (spec/43_frame_codec.md R92 to R94). -/

namespace Sys2Proof.Machine

/-- `even_parity(x)` (R92). -/
def evenParity : List Bool → Bool
  | [] => false
  | b :: bs => b ^^ evenParity bs

/-- The parity bits of data bits `x` under a scheme: none, or one (R92, R93). -/
def parityField (p : Parity) (x : List Bool) : List Bool :=
  match p with
  | .none => []
  | .even => [evenParity x]
  | .odd => [!evenParity x]

/-- Data bits `v[0]` to `v[n-1]`, least significant first (R93). -/
def dataField (n : Nat) (v : Char9) : List Bool := (List.range n).map v.getLsbD

/-- The encoder (R93): start bit, data, parity, stop bits. -/
def encodeFrame (f : Format) (v : Char9) : List Bool :=
  false :: (dataField f.n v ++ parityField f.parity (dataField f.n v) ++ List.replicate f.stops true)

/-- Sampled bit `i` of a frame. -/
def sampled (b : List Bool) (i : Nat) : Bool := b.getD i false

/-- The number whose bits are `x`, least significant first. -/
def bitsToNat : List Bool → Nat
  | [] => 0
  | b :: bs => b.toNat + 2 * bitsToNat bs

/-- The sampled data bits of a frame, least significant first. -/
def sampledData (f : Format) (b : List Bool) : List Bool := (List.range f.n).map fun i => sampled b (1 + i)

/-- The parity check of R94 on the sampled bits. -/
def parityError (f : Format) (b : List Bool) : Bool :=
  match f.parity with
  | .none => false
  | .even => sampled b (1 + f.n) != evenParity (sampledData f b)
  | .odd => sampled b (1 + f.n) != !evenParity (sampledData f b)

/-- The decoder (R94): the data, whether the first stop bit is 0, and the parity check. -/
def decodeFrame (f : Format) (b : List Bool) : RxEntry :=
  { data := BitVec.ofNat 9 (bitsToNat (sampledData f b)),
    fe := !sampled b (1 + f.n + parityBits f),
    pe := parityError f b }

end Sys2Proof.Machine
end

