-- ==== Sys2Proof/Machine/Engines.lean ====
section
/-! DEFINITION. The TX engine, the RX engine and the environment (spec/43_frame_codec.md R96 to R102). An engine chosen
without an enabled step changes nothing (log 4). -/

namespace Sys2Proof.Machine

/-- TX engine step LOAD (R96), enabled when TXEN = 1, TXBUF is full and TSR is empty. -/
def txLoad (s : State) : Out :=
  match s.txen, s.txbuf, s.tsr with
  | true, some v, Option.none =>
    match formatOf s with
    | some f => .next { s with tsr := some { bits := encodeFrame f v, corrupt := false }, txbuf := Option.none }
    | Option.none => .fault .reservedFormat
  | _, _, _ => .next s

/-- `Emit(f)` (R99). -/
def emit (f : Frame) (s : State) : State := { s with txwire := s.txwire ++ [f] }

/-- TX engine step SHIFT (R97), enabled when TSR is full, whatever TXEN holds. -/
def txShift (s : State) : Out :=
  match s.tsr with
  | some f => .next { emit f s with tsr := Option.none, txc := s.txc || udre s }
  | Option.none => .next s

/-- Bit `i` of a frame the environment makes up: the start bit is 0, the others are free (R101). -/
def peerBit (free : BitVec 11) : Nat → Bool
  | 0 => false
  | i + 1 => free.getLsbD i

/-- The `len` bits the receive wire carries: the peer's; in loopback those of the frame at LBPTR, or a draw of this reading when
it is corrupt (R101, logs 7 and 18). -/
def wireBits (free : BitVec 11) (len : Nat) (source : Option Frame) : List Bool :=
  (List.range len).map fun i =>
    match source with
    | Option.none => peerBit free i
    | some f => if f.corrupt then peerBit free i else f.bits.getD i (peerBit free i)

/-- RX engine step RECEIVE (R102), joint with the offer of `source` (R101). -/
def receive (free : BitVec 11) (source : Option Frame) (s : State) : Out :=
  if s.rxen then
    match formatOf s with
    | some f =>
      if s.rxfifo.length < rxFifoDepth then
        .next { s with rxfifo := s.rxfifo ++ [decodeFrame f (wireBits free (sampledLen f) source)] }
      else .next { s with dor := true }
    | Option.none => .fault .reservedFormat
  else .next s

/-- An offer of the environment (R101): with LOOPBACK = true it is the frame of TXWIRE at LBPTR, if there is one, and LBPTR
advances; otherwise the peer's free bits. -/
def offerFrame (free : BitVec 11) (s : State) : Out :=
  if s.params.loopback then
    match s.txwire[s.lbptr]? with
    | some f => receive free (some f) { s with lbptr := s.lbptr + 1 }
    | Option.none => .next s
  else receive free Option.none s

end Sys2Proof.Machine
end

