-- ==== Sys2Proof/Machine/Sequencer.lean ====
section
/-! DEFINITION. The sequencer's turn: fetch and decode at IDLE, or the next step of the command in progress
(spec/40_sequencer.md R70, R73), and what each event does. -/

namespace Sys2Proof.Machine

/-- The command at CI, decoded and given its first step, or its next access when some are left (log 21); a word that does not
decode raises its fault; with no word there the sequencer has no step (R70). -/
def fetchStep (s : State) : Out :=
  match s.program[s.ci]? with
  | some w =>
    match decode w with
    | .ok i => exec i s
    | .error c => .next (raise c s)
  | Option.none => hold s

/-- The sequencer's turn. A waiting command goes on from what SEQ holds, without a fetch (R73); TXLINE's operand is not read
again. -/
def sequencerTurn (s : State) : Out :=
  match s.seq with
  | .idle => fetchStep s
  | .txbWait v => exec (.txbyte v) s
  | .txlFetch a => exec (.txline (BitVec.ofNat 16 a)) s
  | .txlWait a _ => exec (.txline (BitVec.ofNat 16 a)) s
  | .rxbWait => exec .rxbyte s
  | .rxl _ => exec .rxline s
  | .faulted => hold s

/-- What an event does (R75). -/
def runEvent (e : Event) (s : State) : Out :=
  match e with
  | .sequencer => sequencerTurn s
  | .txLoad => txLoad s
  | .txShift => txShift s
  | .offer free => offerFrame free s
  | .reset => .next (resetBlock s)

/-- The state in which the sequencer's turn comes next and runs the command `w` from its first step. -/
def placeCommand (w : CmdWord) (s : State) : State :=
  { s with program := setWordAt s.program s.ci w, seq := .idle, pending := [], lineChar := Option.none,
           agenda := .sequencer :: s.agenda }

end Sys2Proof.Machine
end

