-- ==== Sys2Proof/Machine/Step.lean ====
section
/-! DEFINITION. One step of the machine, and placing a command where the next step fetches it. -/

namespace Sys2Proof.Machine

/-- One atomic step of one agent (spec/20_memory.md R50): the next event is taken and happens. -/
def step (s : State) : Host.Outcome State Fault Refusal :=
  runEvent (takeEvent s).1 (takeEvent s).2

/-- `s` with the command of bits `w` at CI, the sequencer at IDLE and its turn next (log 1). -/
def State.withFetchWord (s : State) (nbits w : Nat) : State := placeCommand (tableWord nbits w) s

end Sys2Proof.Machine
end

