-- ==== Sys2Proof/Safety.lean ====
section
/-! DEFINITION. The terms claims use: final, waiting and stuck states, the invariants of the block, and what it means that two
states differ in named places only. -/

namespace Sys2Proof.Machine

/-! ## The end of a run, waiting, stuck -/

/-- A final state (spec/40_sequencer.md R78). -/
def Final (s : State) : Prop :=
  s.seq = .idle ∧ s.ci = s.program.length ∧ s.tsr = none ∧ s.txbuf = none

/-- The sequencer is in a state whose condition is UDRE = 1 (R73). -/
def WaitsTx (s : State) : Prop :=
  match s.seq with
  | .txbWait _ => True
  | .txlWait _ _ => True
  | .idle => False
  | .txlFetch _ => False
  | .rxbWait => False
  | .rxl _ => False
  | .faulted => False

/-- The sequencer is in a state whose condition is RXC = 1 (R73, spec/90_conflicts.md C7); RXLINE that has read a character and
has still to store it waits for nothing (log 21). -/
def WaitsRx (s : State) : Prop :=
  match s.seq with
  | .rxbWait => True
  | .rxl i => s.lineChar = none ∧ (i < lineCap ∨ (i = lineCap ∧ s.params.capExtraRead = true))
  | .idle => False
  | .txbWait _ => False
  | .txlFetch _ => False
  | .txlWait _ _ => False
  | .faulted => False

/-- In loopback the environment offers no further frame: TXWIRE is used up and no character can still reach it
(spec/43_frame_codec.md R101). -/
def LoopbackEmpty (s : State) : Prop :=
  s.params.loopback = true ∧ s.txwire[s.lbptr]? = none ∧ s.tsr = none ∧ (s.txbuf = none ∨ s.txen = false)

/-- A state that is stuck by itself (R74): a wait for UDRE with TXBUF full and TXEN = 0; or a wait for RXC with RXFIFO empty and
RXEN = 0, or in loopback no further frame. That a peer offers no further frame is no fact of the state but of the run:
`StuckIn` has it. -/
def Stuck (s : State) : Prop :=
  (WaitsTx s ∧ s.txbuf ≠ none ∧ s.txen = false) ∨
  (WaitsRx s ∧ s.rxfifo = [] ∧ (s.rxen = false ∨ LoopbackEmpty s))

/-- The event the next step takes. -/
def nextEvent (s : State) : Event := (takeEvent s).1

/-- What the next step's event finds: the state with the event taken. -/
def afterEvent (s : State) : State := (takeEvent s).2

/-! ## Runs (spec/40_sequencer.md R74, R75) -/

/-- A run: the events of `ε` happen one after another, and `σ` is the state before each (R75: which agent steps is free). -/
def IsRun (ε : Nat → Event) (σ : Nat → State) : Prop := ∀ n, runEvent (ε n) (σ n) = .next (σ (n + 1))

/-- No reset from the n-th event on. -/
def NoReset (ε : Nat → Event) (n : Nat) : Prop := ∀ m, n ≤ m → ε m ≠ .reset

/-- The TX engine's LOAD is enabled (spec/43_frame_codec.md R96). -/
def LoadEnabled (s : State) : Prop := s.txen = true ∧ s.txbuf ≠ none ∧ s.tsr = none

/-- The TX engine's SHIFT is enabled (spec/43_frame_codec.md R97). -/
def ShiftEnabled (s : State) : Prop := s.tsr ≠ none

/-- The sequencer has a step: a command at CI, a wait whose condition holds, or a step without a condition (R70, R73). -/
def SeqEnabled (s : State) : Prop :=
  match s.seq with
  | .idle => s.ci < s.program.length
  | .txbWait _ => s.txbuf = none
  | .txlFetch _ => True
  | .txlWait _ _ => s.txbuf = none
  | .rxbWait => s.rxfifo ≠ []
  | .rxl i => s.lineChar ≠ none ∨ (i = lineCap ∧ s.params.capExtraRead = false) ∨ s.rxfifo ≠ []
  | .faulted => False

/-- Weak fairness of the steps of one event: enabled from some point on, it is eventually taken. -/
def WeaklyFair (enabled : State → Prop) (e : Event) (ε : Nat → Event) (σ : Nat → State) : Prop :=
  ∀ n, (∀ m, n ≤ m → enabled (σ m)) → ∃ m, n ≤ m ∧ ε m = e

/-- A run R75 admits: the TX engine is weakly fair (item 1) and so is the sequencer (item 2); the environment has no fairness
(item 3). -/
def FairRun (ε : Nat → Event) (σ : Nat → State) : Prop :=
  IsRun ε σ ∧ WeaklyFair LoadEnabled .txLoad ε σ ∧ WeaklyFair ShiftEnabled .txShift ε σ ∧
  WeaklyFair SeqEnabled .sequencer ε σ

/-- The m-th event of a run is an offer: of the peer, or in loopback of a frame of TXWIRE (spec/43_frame_codec.md R101). -/
def Offers (ε : Nat → Event) (σ : Nat → State) (m : Nat) : Prop :=
  (∃ free, ε m = .offer free) ∧ ((σ m).params.loopback = true → (σ m).txwire[(σ m).lbptr]? ≠ none)

/-- The sequencer is in a waiting state (R73). -/
def Waits (s : State) : Prop := WaitsTx s ∨ WaitsRx s

/-- Stuck at the n-th state of a run, word for word R74: a wait for UDRE with TXBUF full and TXEN = 0; or a wait for RXC with
RXFIFO empty and either RXEN = 0 or no further frame offered. -/
def StuckIn (ε : Nat → Event) (σ : Nat → State) (n : Nat) : Prop :=
  (WaitsTx (σ n) ∧ (σ n).txbuf ≠ none ∧ (σ n).txen = false) ∨
  (WaitsRx (σ n) ∧ (σ n).rxfifo = [] ∧ ((σ n).rxen = false ∨ ∀ m, n ≤ m → ¬ Offers ε σ m))

/-! ## Commands under way (spec/20_memory.md R46, log 21) -/

/-- The word at CI decodes to `i`. -/
def Fetches (s : State) (i : Instr) : Prop := ∃ w, s.program[s.ci]? = some w ∧ decode w = .ok i

/-- The accesses of a list, one after another. -/
def allAccesses (as : List Access) (s : State) : State := as.foldl (fun t a => access a t) s

/-- The framing fields of the register file are as before: U2X, MODE, PAR, STOP, FSZ (R19, R25, R26). -/
def SameFraming (s t : State) : Prop :=
  t.u2x = s.u2x ∧ t.mode = s.mode ∧ t.par = s.par ∧ t.stop = s.stop ∧ t.fsz2 = s.fsz2 ∧ t.fsz10 = s.fsz10

/-- The field an access writes holds what it writes. -/
def Shows (a : Access) (s : State) : Prop :=
  match a with
  | .mode b => s.mode = b
  | .u2x b => s.u2x = b
  | .fsz2 b => s.fsz2 = b
  | .fsz10 c => s.fsz10 = c
  | .ext b => s.ext = b
  | .par p => s.par = p
  | .stop b => s.stop = b
  | .txen b => s.txen = b
  | .rxen b => s.rxen = b
  | .baudh v => s.baudh = v
  | .baudl v => s.baudl = v

/-- Of the accesses `as` of a command some have been made, which the registers show, and the others are left. -/
def Made (as : List Access) (s : State) : Prop :=
  ∃ made, made ≠ [] ∧ made ++ s.pending = as ∧ ∀ a ∈ made, Shows a s

/-- A command that has made some of its accesses and has others to make: its checks have passed, and the registers show the
accesses made. INIT's have been made on the register file of reset, and nothing else has changed EXT or the framing fields. -/
def UnderWay (i : Instr) (s : State) : Prop :=
  match i with
  | .init mode speed fbits par stopb =>
    initCause fbits par stopb s = none ∧ s.modef = mode ∧ s.u2xf = speed ∧
    ∃ made, made ≠ [] ∧ made ++ s.pending = initAccesses mode speed fbits par stopb ∧
      s.ext = (allAccesses made (State.launch s.params s.program [])).ext ∧
      SameFraming (allAccesses made (State.launch s.params s.program [])) s
  | .setbaud bps => setbaudCause bps s = none ∧ Made (setbaudAccesses (baudDivisor bps s)) s
  | .enable => enableCause s = none ∧ Made [.txen true, .rxen true] s
  | .txbyte _ => False
  | .txline _ => False
  | .rxbyte => False
  | .rxline => False

/-! ## Invariants -/

/-- The register file holds no reserved frame-size or parity code (spec/43_frame_codec.md R91). -/
def FormatLegal (s : State) : Prop := formatOf s ≠ none

/-- RXFIFO holds at most RX_FIFO_DEPTH entries (spec/10_state.md R31). -/
def FifoBounded (s : State) : Prop := s.rxfifo.length ≤ rxFifoDepth

/-- The lifecycle (spec/43_frame_codec.md R104): both enables need DIV_SET, DIV_SET needs CONFIGURED, and before CONFIGURED no
frame has been loaded, sent or received. -/
def Lifecycle (s : State) : Prop :=
  (s.txen = true → s.divSet = true) ∧ (s.rxen = true → s.divSet = true) ∧ (s.divSet = true → s.configured = true) ∧
  (s.configured = false → s.tsr = none ∧ s.txwire = [] ∧ s.rxfifo = [])

/-- The latched flags agree with the register file once CONFIGURED; before, unless an INIT is under way, they and the framing
fields are those of reset; before, and without 9-bit frames, TXB8 keeps its reset value (spec/10_state.md R16, spec/41_config.md
R80, R81, spec/44_char_io.md R107). -/
def LatchesAgree (s : State) : Prop :=
  (s.configured = true → s.modef = s.mode ∧ s.u2xf = s.u2x ∧ s.ext = decide (fsz s = 7)) ∧
  (s.configured = false → s.txb8 = false) ∧
  (s.configured = false → s.pending = [] →
    s.modef = false ∧ s.u2xf = false ∧ s.ext = false ∧ SameFraming (State.launch s.params s.program []) s) ∧
  (s.ext = false → s.txb8 = false)

/-- The divisor in use is the register pair, but between the two writes of a SETBAUD, where the pair holds the new high byte and
DIV_ACTIVE the old divisor; and it is 0 until SETBAUD (R27, R28, spec/20_memory.md R46). -/
def DivisorCommitted (s : State) : Prop :=
  ((∀ l, s.pending ≠ [.baudl l]) → s.divActive = baudPair s) ∧ (s.divSet = false → s.divActive = 0)

/-- The fault record (R37, spec/60_exceptions.md R116, R119): it is written exactly when SEQ is FAULTED. -/
def RecordOk (s : State) : Prop :=
  (s.seq = .faulted → 1 ≤ s.fcode.toNat ∧ s.fcode.toNat ≤ 7 ∧ s.fcmd = s.ci) ∧
  (s.seq ≠ .faulted → s.fcode = 0 ∧ s.fsub = 0 ∧ s.fcmd = 0)

/-- SEQ is a state of the command at CI (spec/40_sequencer.md R76), with the bounds of R35, R110 and R111. Accesses are left only
at IDLE, and then the command at CI is the one under way; a character is held only between RXLINE's read and its store (log
21). -/
def SeqOk (s : State) : Prop :=
  s.ci ≤ s.program.length ∧
  (s.seq ≠ .idle → s.pending = []) ∧
  (s.pending ≠ [] → ∃ i, Fetches s i ∧ UnderWay i s) ∧
  (s.lineChar ≠ none → ∃ i, s.seq = .rxl i ∧ (i < lineCap ∨ s.params.capExtraRead = true)) ∧
  match s.seq with
  | .idle => True
  | .txbWait v => Fetches s (.txbyte v)
  | .txlFetch a => ∃ addr : Word16, Fetches s (.txline addr) ∧ addr.toNat ≤ a ∧ a ≤ 0x10000
  | .txlWait a c => (∃ addr : Word16, Fetches s (.txline addr) ∧ addr.toNat ≤ a) ∧ a ≤ 0xFFFF ∧ memRead s.mem a = c ∧ c ≠ 0
  | .rxbWait => Fetches s .rxbyte
  | .rxl i => Fetches s .rxline ∧ i ≤ lineCap
  | .faulted => s.ci < s.program.length

/-- Every frame in TSR and on TXWIRE has the length of the present format, and one that is not corrupt is one the encoder made in
it (spec/43_frame_codec.md R98, R104). -/
def FramesEncoded (s : State) : Prop :=
  ∀ f, formatOf s = some f → ∀ fr ∈ s.tsr.toList ++ s.txwire,
    fr.bits.length = frameLen f ∧ (fr.corrupt = false → ∃ v, fr.bits = encodeFrame f v)

/-- LBPTR is an index of TXWIRE or its length (spec/43_frame_codec.md R101). -/
def LoopbackOk (s : State) : Prop := s.lbptr ≤ s.txwire.length

/-- The invariant of the block: R8's constraints on the parameters, and all of the above. -/
def Inv (s : State) : Prop :=
  s.params.wf = true ∧ Memory.wf s.mem = true ∧ FormatLegal s ∧ FifoBounded s ∧ Lifecycle s ∧ LatchesAgree s ∧
  DivisorCommitted s ∧ RecordOk s ∧ SeqOk s ∧ FramesEncoded s ∧ LoopbackOk s

/-! ## What a step leaves alone -/

/-- Every byte of host memory reads as before. -/
def SameMemory (s t : State) : Prop := ∀ a, memRead t.mem a = memRead s.mem a

/-- No access is left over or made, and RXLINE's character is as before (log 21). -/
def SameProgress (s t : State) : Prop := t.pending = s.pending ∧ t.lineChar = s.lineChar

/-- The parameters, the program and the model's fields of logs 1 to 3 are as before. -/
def SameInputs (s t : State) : Prop :=
  t.params = s.params ∧ t.program = s.program ∧ t.agenda = s.agenda ∧ t.draws = s.draws

/-- The latched configuration and the lifecycle flags are as before (R16, R17). -/
def SameLatches (s t : State) : Prop :=
  t.modef = s.modef ∧ t.u2xf = s.u2xf ∧ t.ext = s.ext ∧ t.configured = s.configured ∧ t.divSet = s.divSet

/-- The divisor registers and the divisor in use are as before (R27, R28). -/
def SameDivisor (s t : State) : Prop := t.baudh = s.baudh ∧ t.baudl = s.baudl ∧ t.divActive = s.divActive

/-- Both enables are as before (R24). -/
def SameEnables (s t : State) : Prop := t.rxen = s.rxen ∧ t.txen = s.txen

/-- The receive path is as before: RXFIFO and DOR (R31, R23). -/
def SameRx (s t : State) : Prop := t.rxfifo = s.rxfifo ∧ t.dor = s.dor

/-- The shift register, TXC, the wire and the loopback index are as before (R30, R22, R33). -/
def SameWire (s t : State) : Prop := t.tsr = s.tsr ∧ t.txc = s.txc ∧ t.txwire = s.txwire ∧ t.lbptr = s.lbptr

/-- The transmit buffer and the ninth bit to send are as before (R29, R24). -/
def SameTxbuf (s t : State) : Prop := t.txbuf = s.txbuf ∧ t.txb8 = s.txb8

/-- The fault record is as before (R37). -/
def SameRecord (s t : State) : Prop := t.fcode = s.fcode ∧ t.fsub = s.fsub ∧ t.fcmd = s.fcmd

/-! ## Claims about faults, fields and draws -/

/-- `s` with a fault of these numbers recorded at CI and SEQ FAULTED, nothing else changed (spec/60_exceptions.md R119). -/
def recorded (code sub : Byte) (s : State) : State :=
  { s with fcode := code, fsub := sub, fcmd := s.ci, seq := .faulted }

/-- A byte with its bit `i` replaced (the read-modify-write of spec/20_memory.md R41). -/
def withBit (v : Byte) (i : Nat) (b : Bool) : Byte :=
  (v &&& ~~~(1#8 <<< i)) ||| ((BitVec.ofBool b).setWidth 8 <<< i)

/-- An outcome with its next state changed by `g`. -/
def mapNext (g : State → State) (o : Out) : Out :=
  match o with
  | .next t => .next (g t)
  | .fault r => .fault r
  | .refused r => .refused r

/-! ## Claims over several steps -/

/-- The sequencer has the next `k` turns, then `rest` follows. -/
def seqTurns (k : Nat) (rest : List Event) : List Event := List.replicate k Event.sequencer ++ rest

/-- The bits of a frame that the model fixes: those the encoder made, none for a corrupt frame (spec/43_frame_codec.md R98). -/
def fixedBits (fr : Frame) : Option (List Bool) := if fr.corrupt then none else some fr.bits

/-- The frames of the transmit path in the order they leave: those on the wire, the one being sent, the one buffered, each as the
bits that are fixed, none for a corrupt frame (spec/43_frame_codec.md R98, R100). -/
def outgoing (s : State) : List (Option (List Bool)) :=
  s.txwire.map fixedBits ++ s.tsr.toList.map fixedBits ++
    match formatOf s, s.txbuf with
    | some f, some v => [some (encodeFrame f v)]
    | _, _ => []

/-- A frame without what is a draw in it: the bits of a corrupt one, all but how many they are (spec/43_frame_codec.md R98). -/
def withoutDraw (fr : Frame) : Frame :=
  if fr.corrupt then { fr with bits := List.replicate fr.bits.length false } else fr

/-- A state without the draws: how many have been taken, and the bits of corrupt frames. -/
def forgetDraws (s : State) : State :=
  { s with draws := 0, tsr := s.tsr.map withoutDraw, txwire := s.txwire.map withoutDraw }

/-- The free bits of an offer that carries the frame of `v` in the format `f` (spec/43_frame_codec.md R93, R101). -/
def offerOf (f : Format) (v : Char9) : Event := .offer (BitVec.ofNat 11 (bitsToNat (encodeFrame f v).tail))

/-- A peer sends the characters `vs`, the sequencer taking two turns after each: the read and the store. -/
def receiveTurns (f : Format) (vs : List Char9) : List Event :=
  vs.flatMap fun v => [offerOf f v, .sequencer, .sequencer]

/-- The turns of one TXLINE character: read it, buffer it, load it, shift it out. -/
def sendTurns (n : Nat) : List Event :=
  (List.replicate n [Event.sequencer, Event.sequencer, Event.txLoad, Event.txShift]).flatten

end Sys2Proof.Machine
end

