-- ==== Sys2Proof/Certificates/Slice0/Obligations.lean ====
section
/-! DEFINITION. The statements for the provers. Each docstring names what it formalises; `spec/` paths are left out before a
rule's number where the number alone is unique. -/

open Sys2Proof Sys2Proof.Machine

/-! ## Encoding -/

/-- Every well-formed command is read back from its word (R57 to R63). -/
def Obligations.DecodeEncodeRoundTrip : Prop :=
  ∀ i : Instr, i.wellFormed = true → decode (encode i) = .ok i

/-- Every word that decodes is the word of the command it decodes to, and that command is well-formed (R57 to R63). -/
def Obligations.EncodeDecodeRoundTrip : Prop :=
  ∀ (w : CmdWord) (i : Instr), decode w = .ok i → i.wellFormed = true ∧ encode i = w

/-- A word is a row's command exactly when it matches under the row's mask (R62). -/
def Obligations.WordMatchesRow : Prop :=
  ∀ w : CmdWord,
    (w &&& 0xFFFFF000#32 = 0x10000000#32 ↔ ∃ m d f p t, decode w = .ok (.init m d f p t)) ∧
    (w &&& 0xF0000000#32 = 0x20000000#32 ↔ ∃ bps, decode w = .ok (.setbaud bps)) ∧
    (w &&& 0xFFFFFFFF#32 = 0x30000000#32 ↔ decode w = .ok .enable) ∧
    (w &&& 0xFFFF0000#32 = 0x40000000#32 ↔ ∃ v, decode w = .ok (.txbyte v)) ∧
    (w &&& 0xFFFF0000#32 = 0x50000000#32 ↔ ∃ a, decode w = .ok (.txline a)) ∧
    (w &&& 0xFFFFFFFF#32 = 0x60000000#32 ↔ decode w = .ok .rxbyte) ∧
    (w &&& 0xFFFFFFFF#32 = 0x70000000#32 ↔ decode w = .ok .rxline)

/-- The words that do not decode, and the cause each raises: a reserved OP, or a defined OP with a non-zero reserved field
(R63, R64 items 1 and 2). -/
def Obligations.DecodeRejectsReserved : Prop :=
  ∀ (w : CmdWord) (c : Cause), decode w = .error c ↔
    ((w.extractLsb' 28 4 = 0 ∨ 8 ≤ (w.extractLsb' 28 4).toNat) ∧ c = .reservedOpcode (w.extractLsb' 28 4)) ∨
    (w.extractLsb' 28 4 = 1 ∧ w.extractLsb' 12 16 ≠ 0 ∧ c = .reservedField 1) ∨
    ((w.extractLsb' 28 4 = 4 ∨ w.extractLsb' 28 4 = 5) ∧ w.extractLsb' 16 12 ≠ 0 ∧
      c = .reservedField (w.extractLsb' 28 4)) ∨
    ((w.extractLsb' 28 4 = 3 ∨ w.extractLsb' 28 4 = 6 ∨ w.extractLsb' 28 4 = 7) ∧ w.extractLsb' 0 28 ≠ 0 ∧
      c = .reservedField (w.extractLsb' 28 4))

/-- The spec's fourteen example words decode to the commands they stand for (R68, derived by the spec from R57 to R60). -/
def Obligations.SpecWordsDecode : Prop :=
  decode 0x10000201#32 = .ok (.init false false 8 0 1) ∧
  decode 0x10000661#32 = .ok (.init false true 9 2 1) ∧
  decode 0x100009F2#32 = .ok (.init true false 7 3 2) ∧
  decode 0x10000202#32 = .ok (.init false false 8 0 2) ∧
  decode 0x10000101#32 = .ok (.init false false 4 0 1) ∧
  decode 0x20009600#32 = .ok (.setbaud 38400) ∧
  decode 0x20002580#32 = .ok (.setbaud 9600) ∧
  decode 0x2001C200#32 = .ok (.setbaud 115200) ∧
  decode 0x30000000#32 = .ok .enable ∧
  decode 0x40000041#32 = .ok (.txbyte 0x41) ∧
  decode 0x40000145#32 = .ok (.txbyte 0x145) ∧
  decode 0x50000100#32 = .ok (.txline 0x100) ∧
  decode 0x60000000#32 = .ok .rxbyte ∧
  decode 0x70000000#32 = .ok .rxline

/-! ## Steps and the sequencer -/

/-- When the sequencer's turn comes at IDLE and the word at CI decodes to `i`, the step is exec of `i` at the state with the
event taken. What taking the event does is stated too; it is the model's own convention (log 3), no rule of the spec. -/
def Obligations.StepRunsDecoded : Prop :=
  (∀ (s : State) (w : CmdWord) (i : Instr), nextEvent s = .sequencer → s.seq = .idle → s.program[s.ci]? = some w →
    decode w = .ok i → step s = exec i (afterEvent s)) ∧
  (∀ (s : State) (e : Event) (rest : List Event), s.agenda = e :: rest →
    nextEvent s = e ∧ afterEvent s = { s with agenda := rest }) ∧
  (∀ s : State, s.agenda = [] → nextEvent s = Config.freeEvent s.draws ∧ afterEvent s = { s with draws := s.draws + 1 })

/-- The sequencer's turn where no command runs (R64 items 1 and 2, R70): a word that does not decode raises the decoder's fault;
at the end of the program and in FAULTED there is no step. -/
def Obligations.SequencerTurnWithoutCommand : Prop :=
  ∀ s : State, nextEvent s = .sequencer →
    (∀ w, s.seq = .idle → s.program[s.ci]? = some w →
      ((w.extractLsb' 28 4 = 0 ∨ 8 ≤ (w.extractLsb' 28 4).toNat) →
        step s = .next (recorded 1 ((w.extractLsb' 28 4).setWidth 8) (afterEvent s))) ∧
      (∀ op, decode w = .error (.reservedField op) → step s = .next (recorded 2 (op.setWidth 8) (afterEvent s)))) ∧
    (s.seq = .idle → s.program.length ≤ s.ci → step s = .next (afterEvent s)) ∧
    (s.seq = .faulted → step s = .next (afterEvent s))

/-- In a waiting state the sequencer's turn is a step of the command at CI (R73, R76). -/
def Obligations.WaitingCommandResumes : Prop :=
  ∀ s : State, SeqOk s → s.seq ≠ .idle → s.seq ≠ .faulted → nextEvent s = .sequencer →
    ∃ i, Fetches s i ∧ step s = exec i (afterEvent s)

/-- While its condition is false a waiting command takes no step, and no step is taken in any state in which the sequencer has none
(R70, R73). -/
def Obligations.UnmetWaitHolds : Prop :=
  ∀ s : State, nextEvent s = .sequencer →
    (((WaitsTx s ∧ s.txbuf ≠ none) ∨ (WaitsRx s ∧ s.rxfifo = [])) → step s = .next (afterEvent s)) ∧
    (¬ SeqEnabled s → step s = .next (afterEvent s))

/-! ## Faults -/

/-- No step but reset leaves FAULTED, changes the record or moves CI; the sequencer has no step there; reset leaves it with a
clear record; a FAULTED state is not final (R120). -/
def Obligations.FaultedUntilReset : Prop :=
  ∀ s : State, s.seq = .faulted →
    ¬ Final s ∧
    (nextEvent s = .sequencer → step s = .next (afterEvent s)) ∧
    (∀ t, step s = .next t → nextEvent s ≠ .reset →
      t.seq = .faulted ∧ t.fcode = s.fcode ∧ t.fsub = s.fsub ∧ t.fcmd = s.fcmd ∧ t.ci = s.ci) ∧
    (nextEvent s = .reset → ∃ t, step s = .next t ∧ t.seq = .idle ∧ t.fcode = 0 ∧ t.fsub = 0 ∧ t.fcmd = 0)

/-- A step that enters FAULTED is the sequencer's, records a code and subcode of the table of R116 with CI, and changes
nothing else (R116, R119). -/
def Obligations.FaultEntryWritesRecordOnly : Prop :=
  ∀ s t : State, s.seq ≠ .faulted → step s = .next t → t.seq = .faulted →
    nextEvent s = .sequencer ∧ t = recorded t.fcode t.fsub (afterEvent s) ∧
    ((t.fcode = 1 ∧ (t.fsub = 0 ∨ (8 ≤ t.fsub.toNat ∧ t.fsub.toNat ≤ 15))) ∨
     (t.fcode = 2 ∧ (t.fsub = 1 ∨ (3 ≤ t.fsub.toNat ∧ t.fsub.toNat ≤ 7))) ∨
     (t.fcode = 3 ∧ 1 ≤ t.fsub.toNat ∧ t.fsub.toNat ≤ 3) ∨
     (t.fcode = 4 ∧ t.fsub = 0) ∨
     (t.fcode = 5 ∧ 1 ≤ t.fsub.toNat ∧ t.fsub.toNat ≤ 2) ∨
     (t.fcode = 6 ∧ 1 ≤ t.fsub.toNat ∧ t.fsub.toNat ≤ 3) ∨
     (t.fcode = 7 ∧ t.fsub = 0))

/-! ## INIT -/

/-- INIT completes, for every operand that passes its checks (R79 to R82): its accesses stand in the order of R79, the first step
latches mode and speed and makes the first, each further step makes the next one, and the last one completes it; with that many
turns in a row the result is the whole of its writes. That an access is a step of its own is R46's; that the write of EXT is one
too, and what goes with the first and the last, is the model's choice (log 21). The first two clauses speak of whatever
accesses are left; that a command makes those another has left is the model's choice (log 17), and no run reaches it. -/
def Obligations.InitCompletes : Prop :=
  ∀ (s : State) (mode speed : Bool) (fbits : Nat) (par : BitVec 2) (stopb : Nat), s.seq = .idle →
    (∀ a b more, s.pending = a :: b :: more →
      exec (.init mode speed fbits par stopb) s = .next (access a { s with pending := b :: more })) ∧
    (∀ a, s.pending = [a] → exec (.init mode speed fbits par stopb) s = .next { access a s with
      pending := [], configured := true, seq := .idle, ci := s.ci + 1 }) ∧
    (s.pending = [] → s.configured = false →
      (s.params.strictConfig = true → 5 ≤ fbits ∧ fbits ≤ 9) →
      (par = 0 ∨ stopb = 0 ∨ ((par = 2 ∨ par = 3) ∧ stopb ≤ 2)) →
      exec (.init mode speed fbits par stopb) s = .next { s with
        modef := mode, u2xf := speed, mode := mode,
        pending := (initAccesses mode speed fbits par stopb).tail } ∧
      initAccesses mode speed fbits par stopb =
        [.mode mode, .u2x speed] ++
        (if 5 ≤ fbits ∧ fbits ≤ 9 then
          [.fsz2 (decide (fbits = 9)), .fsz10 (if fbits = 9 then 3 else BitVec.ofNat 2 (fbits - 5))] else []) ++
        [.ext (decide (fbits = 9))] ++
        (if par ≠ 0 ∧ 0 < stopb then [.par par, .stop (decide (stopb = 2))] else []) ∧
      ∀ rest, Fetches s (.init mode speed fbits par stopb) →
        s.agenda = seqTurns (initAccesses mode speed fbits par stopb).length rest →
        Host.Core.run Sys2Proof.core (initAccesses mode speed fbits par stopb).length s = .next { s with
          modef := mode, u2xf := speed, mode := mode, u2x := speed,
          ext := decide (fbits = 9),
          fsz2 := if fbits = 9 then true else if 5 ≤ fbits ∧ fbits ≤ 8 then false else s.fsz2,
          fsz10 := if fbits = 9 then 3 else if 5 ≤ fbits ∧ fbits ≤ 8 then BitVec.ofNat 2 (fbits - 5) else s.fsz10,
          par := if par ≠ 0 ∧ 0 < stopb then par else s.par,
          stop := if par ≠ 0 ∧ 0 < stopb then decide (stopb = 2) else s.stop,
          configured := true, seq := .idle, ci := s.ci + 1, agenda := rest })

/-- INIT's checks, in the order of R79 (R118): a faulting INIT writes the record only. The checks come with its first step, before
any access is left (log 21). -/
def Obligations.InitFaultsInOrder : Prop :=
  ∀ (s : State) (mode speed : Bool) (fbits : Nat) (par : BitVec 2) (stopb : Nat), s.seq = .idle → s.pending = [] →
    (s.configured = true → exec (.init mode speed fbits par stopb) s = .next (recorded 3 1 s)) ∧
    (s.configured = false → s.params.strictConfig = true → (fbits < 5 ∨ 9 < fbits) →
      exec (.init mode speed fbits par stopb) s = .next (recorded 6 1 s)) ∧
    (s.configured = false → (s.params.strictConfig = false ∨ (5 ≤ fbits ∧ fbits ≤ 9)) → par = 1 → 0 < stopb →
      exec (.init mode speed fbits par stopb) s = .next (recorded 6 2 s)) ∧
    (s.configured = false → (s.params.strictConfig = false ∨ (5 ≤ fbits ∧ fbits ≤ 9)) → (par = 2 ∨ par = 3) → 2 < stopb →
      exec (.init mode speed fbits par stopb) s = .next (recorded 6 3 s))

/-- What a step of INIT or ENABLE leaves unchanged, from every sequencer state, with no accesses left or its own (SeqOk gives that
of the command at CI). INIT: all but the latched flags, CONFIGURED, the framing fields, SEQ, CI, the record and the accesses
left; ENABLE: all but both enables, SEQ, CI, the record and the accesses left. On a fault nothing but SEQ and the record
changes, otherwise the record stays (R79, R83, R119). -/
def Obligations.InitAndEnableFrame : Prop :=
  (∀ (s t : State) (mode speed : Bool) (fbits : Nat) (par : BitVec 2) (stopb : Nat),
    (s.pending = [] ∨ UnderWay (.init mode speed fbits par stopb) s) →
    exec (.init mode speed fbits par stopb) s = .next t →
    SameInputs s t ∧ SameDivisor s t ∧ SameEnables s t ∧ SameRx s t ∧ SameWire s t ∧ SameTxbuf s t ∧
    t.res = s.res ∧ t.divSet = s.divSet ∧ t.lineChar = s.lineChar ∧ SameMemory s t ∧
    (t.seq = .faulted → SameLatches s t ∧ SameFraming s t ∧ SameProgress s t ∧ t.ci = s.ci) ∧
    (t.seq ≠ .faulted → SameRecord s t)) ∧
  (∀ s t : State, (s.pending = [] ∨ UnderWay .enable s) → exec .enable s = .next t →
    SameInputs s t ∧ SameLatches s t ∧ SameFraming s t ∧ SameDivisor s t ∧ SameRx s t ∧ SameWire s t ∧ SameTxbuf s t ∧
    t.res = s.res ∧ t.lineChar = s.lineChar ∧ SameMemory s t ∧
    (t.seq = .faulted → SameEnables s t ∧ SameProgress s t ∧ t.ci = s.ci) ∧ (t.seq ≠ .faulted → SameRecord s t))

/-! ## SETBAUD -/

/-- SETBAUD completes, for every rate whose quotient fits and each DIV_ARITH (R84, R88; R32, R98 for the flush and the frame in
flight): one step for each of its four register writes, so that after the third the pair holds the new high byte beside the old
low byte while DIV_ACTIVE still holds the old divisor (R46); with four turns in a row the result is the whole of its writes. A
frame in TSR is marked corrupt, its bits being the next draw, whatever that is (R98, log 18). What goes with the first and the
last access is log 21. -/
def Obligations.SetbaudCompletes : Prop :=
  ∀ (s : State) (bps k q : Nat) (hi lo : Byte), s.seq = .idle →
    (s.pending = [.rxen false, .baudh hi, .baudl lo] → exec (.setbaud bps) s = .next { s with
      rxen := false, rxfifo := if s.rxen then [] else s.rxfifo, dor := if s.rxen then false else s.dor,
      pending := [.baudh hi, .baudl lo] }) ∧
    (s.pending = [.baudh hi, .baudl lo] → exec (.setbaud bps) s = .next { s with baudh := hi, pending := [.baudl lo] }) ∧
    (s.pending = [.baudl lo] → exec (.setbaud bps) s = .next { s with
      baudl := lo, divActive := s.baudh ++ lo,
      tsr := s.tsr.map fun f => { bits := drawBits s.draws f.bits.length, corrupt := true },
      draws := if s.tsr = none then s.draws else s.draws + 1,
      divSet := true, pending := [], seq := .idle, ci := s.ci + 1 }) ∧
    (s.pending = [] → s.configured = true →
      k = (if s.modef then 2 else if s.u2xf then 8 else 16) →
      q = quotient s.params.divArith s.params.fClk k bps →
      0 < bps → 1 ≤ q → q ≤ 65536 →
      exec (.setbaud bps) s = .next { s with
        txen := false,
        pending := [.rxen false, .baudh (BitVec.ofNat 8 ((q - 1) / 256)), .baudl (BitVec.ofNat 8 ((q - 1) % 256))] } ∧
      ∀ rest, Fetches s (.setbaud bps) → s.agenda = seqTurns 4 rest →
        Host.Core.run Sys2Proof.core 4 s = .next { s with
          txen := false, rxen := false,
          rxfifo := if s.rxen then [] else s.rxfifo,
          dor := if s.rxen then false else s.dor,
          baudh := BitVec.ofNat 8 ((q - 1) / 256), baudl := BitVec.ofNat 8 ((q - 1) % 256),
          divActive := BitVec.ofNat 16 (q - 1),
          tsr := s.tsr.map fun f => { bits := drawBits s.draws f.bits.length, corrupt := true },
          draws := if s.tsr = none then s.draws else s.draws + 1,
          divSet := true, seq := .idle, ci := s.ci + 1, agenda := rest })

/-- SETBAUD's checks, in the order of R88: before INIT, rate 0, quotient 0, divisor above 0xFFFF (R87, R118). The checks come with
its first step, before any access is left (log 21). -/
def Obligations.SetbaudFaultsInOrder : Prop :=
  ∀ (s : State) (bps k q : Nat), s.seq = .idle → s.pending = [] →
    k = (if s.modef then 2 else if s.u2xf then 8 else 16) →
    q = quotient s.params.divArith s.params.fClk k bps →
    (s.configured = false → exec (.setbaud bps) s = .next (recorded 3 2 s)) ∧
    (s.configured = true → bps = 0 → exec (.setbaud bps) s = .next (recorded 4 0 s)) ∧
    (s.configured = true → 0 < bps → q = 0 → exec (.setbaud bps) s = .next (recorded 5 1 s)) ∧
    (s.configured = true → 0 < bps → 65536 < q → exec (.setbaud bps) s = .next (recorded 5 2 s))

/-- What a step of SETBAUD leaves unchanged, from every sequencer state, with no accesses left or its own (SeqOk gives that of the
command at CI): all but both enables, RXFIFO and DOR, the divisor registers, a frame in TSR, which if it changes is marked
corrupt with a draw for its bits (R98, log 18), DIV_SET, SEQ, CI, the record and the accesses left; on a fault all but SEQ and
the record (R88, R119). -/
def Obligations.SetbaudFrame : Prop :=
  ∀ (s t : State) (bps : Nat), (s.pending = [] ∨ UnderWay (.setbaud bps) s) → exec (.setbaud bps) s = .next t →
    t.params = s.params ∧ t.program = s.program ∧ t.agenda = s.agenda ∧
    SameFraming s t ∧ SameTxbuf s t ∧ t.res = s.res ∧
    t.modef = s.modef ∧ t.u2xf = s.u2xf ∧ t.ext = s.ext ∧ t.configured = s.configured ∧
    t.txc = s.txc ∧ t.txwire = s.txwire ∧ t.lbptr = s.lbptr ∧ t.lineChar = s.lineChar ∧
    ((t.tsr = s.tsr ∧ t.draws = s.draws) ∨
      ∃ fr, s.tsr = some fr ∧ t.tsr = some { bits := drawBits s.draws fr.bits.length, corrupt := true } ∧
        t.draws = s.draws + 1) ∧
    SameMemory s t ∧
    (t.seq = .faulted → t.divSet = s.divSet ∧ SameDivisor s t ∧ SameEnables s t ∧ SameRx s t ∧ t.tsr = s.tsr ∧
      t.draws = s.draws ∧ SameProgress s t ∧ t.ci = s.ci) ∧
    (t.seq ≠ .faulted → SameRecord s t)

/-- With exact arithmetic a SETBAUD completes, in its four steps, exactly when `0 <= d <= 0xFFFF` for
`d = floor(F_CLK / (k * bps)) - 1`, and then the divisor in use is that d: d + 1 is the greatest number whose product with
k * bps does not exceed F_CLK; otherwise the divisor stays (R85). That it takes four steps is the model's reading of R46 (log
21). -/
def Obligations.DivisorIsFloorMinusOne : Prop :=
  ∀ (s : State) (bps k : Nat) (rest : List Event), s.seq = .idle → s.pending = [] → s.configured = true →
    s.params.divArith = .exact → 0 < bps →
    k = (if s.modef then 2 else if s.u2xf then 8 else 16) →
    Fetches s (.setbaud bps) → s.agenda = seqTurns 4 rest →
    ∃ t : State, Host.Core.run Sys2Proof.core 4 s = .next t ∧
    (t.seq = .idle ↔ k * bps ≤ s.params.fClk ∧ s.params.fClk < 65537 * (k * bps)) ∧
    (t.seq = .idle →
      (t.divActive.toNat + 1) * (k * bps) ≤ s.params.fClk ∧
      s.params.fClk < (t.divActive.toNat + 2) * (k * bps) ∧
      baudPair t = t.divActive) ∧
    (t.seq ≠ .idle → SameDivisor s t)

/-- The achieved rate is never below the target, and equals it exactly when `k * bps` divides F_CLK (R90, the spec's
own inference from R85 and R89). -/
def Obligations.AchievedRateNotBelowTarget : Prop :=
  ∀ fClk k d bps : Nat, 0 < k → 0 < bps → d + 1 = fClk / (k * bps) →
    0 ≤ rateError fClk k d bps ∧ (rateError fClk k d bps = 0 ↔ k * bps ∣ fClk)

/-- Floating-point division then truncation gives the exact quotient whenever F_CLK is below 2^24 (binary32) or 2^53 (binary64):
the bound behind the remark of R86. That exponents are not limited is the model's reading (log 14). -/
def Obligations.FloatQuotientAgrees : Prop :=
  ∀ fClk k bps : Nat, 0 < k → 0 < bps →
    (fClk < 2 ^ 24 → quotient .binary32 fClk k bps = quotient .exact fClk k bps) ∧
    (fClk < 2 ^ 53 → quotient .binary64 fClk k bps = quotient .exact fClk k bps)

/-! ## ENABLE -/

/-- ENABLE (R83): with a divisor set its two steps set TXEN and then RXEN and it completes with nothing else changed, so a second
one moves CI only; without a divisor it faults. That each access is a step of its own is R46's; that completion goes with the
second is log 21. -/
def Obligations.EnableCompletes : Prop :=
  ∀ s : State, s.seq = .idle →
    (s.pending = [] → s.divSet = true → exec .enable s = .next { s with txen := true, pending := [.rxen true] }) ∧
    (s.pending = [.rxen true] →
      exec .enable s = .next { s with rxen := true, pending := [], seq := .idle, ci := s.ci + 1 }) ∧
    (s.pending = [] → s.divSet = false → exec .enable s = .next (recorded 3 3 s)) ∧
    (∀ rest, s.pending = [] → s.divSet = true → Fetches s .enable → s.agenda = seqTurns 2 rest →
      Host.Core.run Sys2Proof.core 2 s = .next { s with
        txen := true, rxen := true, seq := .idle, ci := s.ci + 1, agenda := rest })

/-! ## Transmit commands -/

/-- TXBYTE (R106, R107): from IDLE it waits; while UDRE = 0 it holds; once UDRE = 1 it completes: with EXT = 1 the ninth bit of
the value goes to TXB8 and into TXBUF, otherwise TXB8 stays and goes into TXBUF. -/
def Obligations.TxbyteCompletes : Prop :=
  ∀ (s : State) (v value : Word16) (ninth : Bool),
    (s.seq = .txbWait v → s.txbuf = none → ninth = (if s.ext then v.getLsbD 8 else s.txb8) →
      exec (.txbyte value) s = .next { s with
        txb8 := ninth, txbuf := some (BitVec.ofNat 9 (ninth.toNat * 256 + v.toNat % 256)),
        seq := .idle, ci := s.ci + 1 }) ∧
    (s.seq = .txbWait v → s.txbuf ≠ none → exec (.txbyte value) s = .next s) ∧
    (s.seq = .idle → exec (.txbyte value) s = .next { s with seq := .txbWait value })

/-- TXLINE (R110): from IDLE it fetches from its address; past 0xFFFF it faults; a 0x00 byte completes it unsent; another byte
waits, holds while UDRE = 0, and once UDRE = 1 is buffered, with ninth bit 0 when EXT = 1. -/
def Obligations.TxlineCompletes : Prop :=
  ∀ (s : State) (a : Nat) (c : Byte) (ninth : Bool) (addr : Word16),
    (s.seq = .txlFetch a → a ≤ 0xFFFF → memRead s.mem a = 0 →
      exec (.txline addr) s = .next { s with seq := .idle, ci := s.ci + 1 }) ∧
    (s.seq = .txlFetch a → a ≤ 0xFFFF → memRead s.mem a ≠ 0 →
      exec (.txline addr) s = .next { s with seq := .txlWait a (memRead s.mem a) }) ∧
    (s.seq = .txlFetch a → 0xFFFF < a → exec (.txline addr) s = .next (recorded 7 0 s)) ∧
    (s.seq = .txlWait a c → s.txbuf = none → ninth = (if s.ext then false else s.txb8) →
      exec (.txline addr) s = .next { s with
        txb8 := ninth, txbuf := some (BitVec.ofNat 9 (ninth.toNat * 256 + c.toNat)), seq := .txlFetch (a + 1) }) ∧
    (s.seq = .txlWait a c → s.txbuf ≠ none → exec (.txline addr) s = .next s) ∧
    (s.seq = .idle → exec (.txline addr) s = .next { s with seq := .txlFetch addr.toNat })

/-- What TXBYTE and TXLINE leave unchanged, from every sequencer state: all but TXBUF, TXB8 (only with EXT = 1), SEQ, CI and,
for a TXLINE that faults, the record (R106, R107, R110). -/
def Obligations.TransmitFrame : Prop :=
  ∀ (s t : State) (v : Word16),
    (exec (.txbyte v) s = .next t ∨ exec (.txline v) s = .next t) →
    SameInputs s t ∧ SameLatches s t ∧ SameFraming s t ∧ SameDivisor s t ∧ SameEnables s t ∧ SameRx s t ∧ SameWire s t ∧
    t.res = s.res ∧ (s.ext = false → t.txb8 = s.txb8) ∧ SameProgress s t ∧ SameMemory s t ∧
    (t.seq = .faulted → SameTxbuf s t) ∧ (t.seq ≠ .faulted → SameRecord s t) ∧
    (exec (.txbyte v) s = .next t → SameRecord s t)

/-- A TXLINE with the transmit path empty and enabled sends exactly the characters up to the 0x00 byte, in order, one frame
each with ninth bit 0, and completes (R110, R96, R97). -/
def Obligations.TxlineSendsString : Prop :=
  ∀ (s : State) (a : Nat) (cs : List Byte) (f : Format) (rest : List Event),
    s.seq = .txlFetch a → formatOf s = some f → s.txen = true → s.txbuf = none → s.tsr = none →
    (s.ext = false → s.txb8 = false) →
    (∀ j c, cs[j]? = some c → memRead s.mem (a + j) = c ∧ c ≠ 0) → memRead s.mem (a + cs.length) = 0 →
    a + cs.length ≤ 0xFFFF → s.agenda = sendTurns cs.length ++ Event.sequencer :: rest →
    ∃ t : State, Host.Core.run Sys2Proof.core (4 * cs.length + 1) s = .next t ∧
      t.seq = .idle ∧ t.ci = s.ci + 1 ∧ t.agenda = rest ∧ t.txbuf = none ∧ t.tsr = none ∧
      t.txwire = s.txwire ++ cs.map (fun c => { bits := encodeFrame f (c.setWidth 9), corrupt := false }) ∧
      SameMemory s t

/-! ## Receive commands -/

/-- RXBYTE (R108, R109): from IDLE it waits; while RXC = 0 it holds; once RXC = 1 it completes: RES gets the oldest character,
with its ninth bit when EXT = 1, and the character leaves the FIFO. -/
def Obligations.RxbyteCompletes : Prop :=
  ∀ (s : State) (e : RxEntry) (more : List RxEntry),
    (s.seq = .rxbWait → s.rxfifo = e :: more →
      exec .rxbyte s = .next { s with
        res := BitVec.ofNat 16 (if s.ext then e.data.toNat else e.data.toNat % 256),
        rxfifo := more, dor := false, seq := .idle, ci := s.ci + 1 }) ∧
    (s.seq = .rxbWait → s.rxfifo = [] → exec .rxbyte s = .next s) ∧
    (s.seq = .idle → exec .rxbyte s = .next { s with seq := .rxbWait })

/-- RXLINE (R111, R112, R113). From IDLE it starts with no character stored; below the cap it holds while RXC = 0, reads the oldest
character in one step and in the next stores its low 8 bits if they are not `#`, or completes at `#`, which is consumed, with
the terminator and RES; with nine characters stored it completes without a further read, or with CAP_EXTRA_READ = true after
one character read and discarded. That the read and the store are two steps is R46's; what holds the character and what SEQ is
between them is the model's choice (log 21), and so is RXL(9) with a character held where CAP_EXTRA_READ = false, which no run
reaches (log 17). -/
def Obligations.RxlineCompletes : Prop :=
  ∀ (s : State) (i : Nat) (c : Byte) (e : RxEntry) (more : List RxEntry), s.params.wf = true →
    (s.seq = .rxl i → s.lineChar = none → (i < 9 ∨ (i = 9 ∧ s.params.capExtraRead = true)) → s.rxfifo = e :: more →
      exec .rxline s = .next { s with rxfifo := more, dor := false, lineChar := some (e.data.setWidth 8) }) ∧
    (s.seq = .rxl i → s.lineChar = none → (i < 9 ∨ (i = 9 ∧ s.params.capExtraRead = true)) → s.rxfifo = [] →
      exec .rxline s = .next s) ∧
    (s.seq = .rxl i → i < 9 → s.lineChar = some c → c = 0x23 →
      exec .rxline s = .next { s with
        mem := memWrite s.mem (lineAddr s i) 0, res := s.params.linebufBase, lineChar := none,
        seq := .idle, ci := s.ci + 1 }) ∧
    (s.seq = .rxl i → i < 9 → s.lineChar = some c → c ≠ 0x23 →
      exec .rxline s = .next { s with
        mem := memWrite s.mem (lineAddr s i) c, lineChar := none, seq := .rxl (i + 1) }) ∧
    (s.seq = .rxl 9 → s.lineChar = none → s.params.capExtraRead = false →
      exec .rxline s = .next { s with
        mem := memWrite s.mem (lineAddr s 9) 0, res := s.params.linebufBase, seq := .idle, ci := s.ci + 1 }) ∧
    (s.seq = .rxl 9 → s.lineChar = some c →
      exec .rxline s = .next { s with
        mem := memWrite s.mem (lineAddr s 9) 0, res := s.params.linebufBase, lineChar := none,
        seq := .idle, ci := s.ci + 1 }) ∧
    (s.seq = .idle → exec .rxline s = .next { s with seq := .rxl 0 })

/-- What RXBYTE and RXLINE leave unchanged, from every sequencer state: all but RES, RXFIFO, DOR, SEQ and CI and, for RXLINE, the
character it holds and from RXL(i) the one byte at the address the meaning computes for `LINEBUF[i]`; the step that reads a
character stores nothing (R109, R111, R42). -/
def Obligations.ReceiveFrame : Prop :=
  ∀ s t : State, (exec .rxbyte s = .next t ∨ exec .rxline s = .next t) →
    SameInputs s t ∧ SameLatches s t ∧ SameFraming s t ∧ SameDivisor s t ∧ SameEnables s t ∧ SameWire s t ∧ SameTxbuf s t ∧
    SameRecord s t ∧ t.pending = s.pending ∧
    (exec .rxbyte s = .next t → SameMemory s t ∧ t.lineChar = s.lineChar) ∧
    (∀ i, s.seq = .rxl i → ∀ a, a ≠ lineAddr s i → memRead t.mem a = memRead s.mem a) ∧
    (∀ i, s.seq = .rxl i → s.lineChar = none → (i ≠ 9 ∨ s.params.capExtraRead = true) → SameMemory s t) ∧
    ((∀ i, s.seq ≠ .rxl i) → SameMemory s t)

/-- Fed up to eight characters that are not `#` and then one that is, in a format of at least 8 data bits, RXLINE stores exactly
those characters and the terminator, gives LINEBUF_BASE, leaves nothing unread and every other byte alone (R111, R112, R114).
The turns are dealt: after each character the sequencer has one for the read and one for the store (R46). -/
def Obligations.RxlineReceivesLine : Prop :=
  ∀ (s : State) (vs : List Char9) (last : Char9) (f : Format) (rest : List Event),
    s.params.wf = true → Memory.wf s.mem = true → s.params.loopback = false → s.rxen = true → s.rxfifo = [] →
    s.seq = .rxl 0 → s.lineChar = none → formatOf s = some f → 8 ≤ f.n → vs.length ≤ 8 →
    (∀ v ∈ vs, v.setWidth 8 ≠ 0x23#8) → last.setWidth 8 = 0x23#8 →
    s.agenda = receiveTurns f (vs ++ [last]) ++ rest →
    ∃ t : State, Host.Core.run Sys2Proof.core (3 * vs.length + 3) s = .next t ∧
      t.seq = .idle ∧ t.ci = s.ci + 1 ∧ t.res = s.params.linebufBase ∧ t.rxfifo = [] ∧ t.agenda = rest ∧
      (∀ j v, vs[j]? = some v → memRead t.mem (lineAddr s j) = v.setWidth 8) ∧
      memRead t.mem (lineAddr s vs.length) = 0 ∧
      (∀ a, (a < lineAddr s 0 ∨ lineAddr s vs.length < a) → memRead t.mem a = memRead s.mem a)

/-- Fed nine characters none of which is `#`, in a format of at least 8 data bits and with CAP_EXTRA_READ = false, RXLINE completes
with exactly those nine and the terminator, without reading a tenth (R111, R113). The turns are dealt as above. -/
def Obligations.RxlineTruncatesAtNine : Prop :=
  ∀ (s : State) (vs : List Char9) (f : Format) (rest : List Event),
    s.params.wf = true → Memory.wf s.mem = true → s.params.loopback = false → s.params.capExtraRead = false →
    s.rxen = true → s.rxfifo = [] → s.seq = .rxl 0 → s.lineChar = none → formatOf s = some f → 8 ≤ f.n → vs.length = 9 →
    (∀ v ∈ vs, v.setWidth 8 ≠ 0x23#8) → s.agenda = receiveTurns f vs ++ Event.sequencer :: rest →
    ∃ t : State, Host.Core.run Sys2Proof.core 28 s = .next t ∧
      t.seq = .idle ∧ t.ci = s.ci + 1 ∧ t.res = s.params.linebufBase ∧ t.rxfifo = [] ∧ t.agenda = rest ∧
      (∀ j v, vs[j]? = some v → memRead t.mem (lineAddr s j) = v.setWidth 8) ∧
      memRead t.mem (lineAddr s 9) = 0 ∧
      (∀ a, (a < lineAddr s 0 ∨ lineAddr s 9 < a) → memRead t.mem a = memRead s.mem a)

/-! ## Engines -/

/-- LOAD (R96): enabled, it encodes the buffered character in the present format into TSR and empties TXBUF; not enabled, it
changes nothing. -/
def Obligations.LoadMovesBufferToShifter : Prop :=
  ∀ s : State, nextEvent s = .txLoad →
    (∀ v f, s.txen = true → s.txbuf = some v → s.tsr = none → formatOf s = some f →
      step s = .next { afterEvent s with tsr := some { bits := encodeFrame f v, corrupt := false }, txbuf := none }) ∧
    ((s.txen = false ∨ s.txbuf = none ∨ s.tsr ≠ none) → step s = .next (afterEvent s))

/-- SHIFT (R97): a full TSR goes to the wire whatever TXEN holds, and TXC is set when TXBUF is empty; an empty TSR gives no
change. -/
def Obligations.ShiftSendsFrame : Prop :=
  ∀ s : State, nextEvent s = .txShift →
    (∀ fr, s.tsr = some fr → s.txbuf = none →
      step s = .next { afterEvent s with txwire := s.txwire ++ [fr], tsr := none, txc := true }) ∧
    (∀ fr, s.tsr = some fr → s.txbuf ≠ none →
      step s = .next { afterEvent s with txwire := s.txwire ++ [fr], tsr := none }) ∧
    (s.tsr = none → step s = .next (afterEvent s))

/-- RECEIVE of a frame the peer makes up (R102): lost with RXEN = 0; otherwise decoded into RXFIFO, or lost with DOR set when two
entries stand there. -/
def Obligations.ReceiveFillsFifo : Prop :=
  ∀ (s : State) (free : BitVec 11) (f : Format), nextEvent s = .offer free → s.params.loopback = false →
    formatOf s = some f →
    (s.rxen = false → step s = .next (afterEvent s)) ∧
    (s.rxen = true → s.rxfifo.length < 2 →
      step s = .next { afterEvent s with
        rxfifo := s.rxfifo ++ [decodeFrame f ((List.range (sampledLen f)).map (peerBit free))] }) ∧
    (s.rxen = true → 2 ≤ s.rxfifo.length → step s = .next { afterEvent s with dor := true })

/-- The peer can offer every list of the sampled length that begins with a start bit 0 (R101). -/
def Obligations.PeerOffersEveryFrame : Prop :=
  ∀ (s : State) (f : Format) (b : List Bool), formatOf s = some f → b.length = sampledLen f → b.head? = some false →
    ∃ free : BitVec 11, (List.range (sampledLen f)).map (peerBit free) = b

/-- In loopback an offer replays TXWIRE at LBPTR and advances LBPTR, also when RXEN = 0; with TXWIRE used up there is no offer. With
RXEN = 1 and two entries in RXFIFO the frame is lost and DOR set; with room a frame that is not corrupt is read as sent,
whatever the free bits are, and of a corrupt one the bits after the start bit are free (R98, R101, R102). -/
def Obligations.LoopbackReplaysWire : Prop :=
  ∀ (s : State) (free : BitVec 11) (f : Format), nextEvent s = .offer free → s.params.loopback = true →
    formatOf s = some f →
    (s.txwire.length ≤ s.lbptr → step s = .next (afterEvent s)) ∧
    (∀ fr, s.txwire[s.lbptr]? = some fr → s.rxen = false → step s = .next { afterEvent s with lbptr := s.lbptr + 1 }) ∧
    (∀ fr, s.txwire[s.lbptr]? = some fr → s.rxen = true → 2 ≤ s.rxfifo.length →
      step s = .next { afterEvent s with lbptr := s.lbptr + 1, dor := true }) ∧
    (∀ fr, s.txwire[s.lbptr]? = some fr → s.rxen = true → fr.corrupt = false → sampledLen f ≤ fr.bits.length →
      s.rxfifo.length < 2 →
      step s = .next { afterEvent s with
        lbptr := s.lbptr + 1, rxfifo := s.rxfifo ++ [decodeFrame f (fr.bits.take (sampledLen f))] }) ∧
    (∀ fr, s.txwire[s.lbptr]? = some fr → s.rxen = true → fr.corrupt = true → s.rxfifo.length < 2 →
      step s = .next { afterEvent s with
        lbptr := s.lbptr + 1,
        rxfifo := s.rxfifo ++ [decodeFrame f ((List.range (sampledLen f)).map (peerBit free))] })

/-! ## Frame codec -/

/-- A frame decoded in the format it was encoded in gives the value's low n bits and no error (R103, the spec's own
inference from R93 and R94). -/
def Obligations.FrameRoundTrip : Prop :=
  ∀ (s : State) (f : Format) (v : Char9), formatOf s = some f →
    decodeFrame f ((encodeFrame f v).take (sampledLen f)) =
      { data := BitVec.ofNat 9 (v.toNat % 2 ^ f.n), fe := false, pe := false }

/-- The data bits and an even parity bit hold an even number of ones; with an odd parity bit, an odd number (R92). -/
def Obligations.ParityBitCountsOnes : Prop :=
  ∀ x : List Bool,
    ((x ++ parityField .even x).count true) % 2 = 0 ∧ ((x ++ parityField .odd x).count true) % 2 = 1 ∧
    parityField .none x = []

/-- The transmitted frame, by what the registers hold (R26, R91 to R93): n is 5 to 8 for FSZ 0 to 3 and 9 for FSZ 7; the frame has
1 + n + pb + s bits, with pb = 1 for PAR 2 and 3 and s = 2 for STOP 1; start bit 0; the n data bits least significant first;
with PAR 2 the data bits and bit 1 + n hold an even number of ones, with PAR 3 an odd number; the stop bits are 1. That a
reserved code gives no format is the model's (log 8). -/
def Obligations.EncodedFrameShape : Prop :=
  (∀ s : State, formatOf s ≠ none ↔
    (fsz s = 0 ∨ fsz s = 1 ∨ fsz s = 2 ∨ fsz s = 3 ∨ fsz s = 7) ∧ (s.par = 0 ∨ s.par = 2 ∨ s.par = 3)) ∧
  ∀ (s : State) (f : Format) (v : Char9) (n pb : Nat), formatOf s = some f →
    ((fsz s = 0 ∧ n = 5) ∨ (fsz s = 1 ∧ n = 6) ∨ (fsz s = 2 ∧ n = 7) ∨ (fsz s = 3 ∧ n = 8) ∨ (fsz s = 7 ∧ n = 9)) →
    pb = (if s.par = 0 then 0 else 1) →
    f.n = n ∧ parityBits f = pb ∧
    (encodeFrame f v).length = 1 + n + pb + (if s.stop then 2 else 1) ∧
    (encodeFrame f v)[0]? = some false ∧
    (∀ i, i < n → (encodeFrame f v)[1 + i]? = some (v.getLsbD i)) ∧
    (s.par = 2 → (((encodeFrame f v).drop 1).take (n + 1)).count true % 2 = 0) ∧
    (s.par = 3 → (((encodeFrame f v).drop 1).take (n + 1)).count true % 2 = 1) ∧
    (∀ i, 1 + n + pb ≤ i → i < (encodeFrame f v).length → (encodeFrame f v)[i]? = some true)

/-- With a parity scheme, a frame received with exactly one of its data or parity bits inverted sets the parity error and not
the framing error (R92, R94). -/
def Obligations.ParityErrorDetected : Prop :=
  ∀ (s : State) (f : Format) (v : Char9) (i : Nat), formatOf s = some f → f.parity ≠ .none → 1 ≤ i → i ≤ 1 + f.n →
    let b := (encodeFrame f v).take (sampledLen f)
    (decodeFrame f (b.set i (!b.getD i false))).pe = true ∧ (decodeFrame f (b.set i (!b.getD i false))).fe = false

/-- In loopback a buffered character comes back as the value's low n bits without errors, in every format, whatever the free bits
are (R103, the spec's own inference; spec/95_test_vectors.md S2, S3). -/
def Obligations.LoopbackDelivers : Prop :=
  ∀ (s : State) (v : Char9) (f : Format) (free : BitVec 11) (rest : List Event),
    s.params.loopback = true → s.txen = true → s.rxen = true → s.txbuf = some v → s.tsr = none →
    s.lbptr = s.txwire.length → s.rxfifo.length < 2 → formatOf s = some f →
    s.agenda = .txLoad :: .txShift :: .offer free :: rest →
    ∃ t : State, Host.Core.run Sys2Proof.core 3 s = .next t ∧ t.agenda = rest ∧ t.lbptr = t.txwire.length ∧
      t.rxfifo = s.rxfifo ++ [{ data := BitVec.ofNat 9 (v.toNat % 2 ^ f.n), fe := false, pe := false }]

/-! ## Registers -/

/-- What STATA, CTRLB and CTRLC read as: each bit's field or computed flag, and 0 in every hardwired bit (R19 to R25). -/
def Obligations.RegisterBits : Prop :=
  ∀ s : State,
    ((stataByte s).getLsbD 7 = true ↔ s.rxfifo ≠ []) ∧ (stataByte s).getLsbD 6 = s.txc ∧
    ((stataByte s).getLsbD 5 = true ↔ s.txbuf = none) ∧
    ((stataByte s).getLsbD 4 = true ↔ ∃ e more, s.rxfifo = e :: more ∧ e.fe = true) ∧
    (stataByte s).getLsbD 3 = s.dor ∧
    ((stataByte s).getLsbD 2 = true ↔ ∃ e more, s.rxfifo = e :: more ∧ e.pe = true) ∧
    (stataByte s).getLsbD 1 = s.u2x ∧ (stataByte s).getLsbD 0 = false ∧
    (ctrlbByte s).extractLsb' 5 3 = 0 ∧ (ctrlbByte s).getLsbD 4 = s.rxen ∧ (ctrlbByte s).getLsbD 3 = s.txen ∧
    (ctrlbByte s).getLsbD 2 = s.fsz2 ∧ (∀ e more, s.rxfifo = e :: more → (ctrlbByte s).getLsbD 1 = e.data.getLsbD 8) ∧
    (ctrlbByte s).getLsbD 0 = s.txb8 ∧
    (ctrlcByte s).getLsbD 7 = false ∧ (ctrlcByte s).getLsbD 6 = s.mode ∧ (ctrlcByte s).extractLsb' 4 2 = s.par ∧
    (ctrlcByte s).getLsbD 3 = s.stop ∧ (ctrlcByte s).extractLsb' 1 2 = s.fsz10 ∧ (ctrlcByte s).getLsbD 0 = false

/-- A field write of a command is a read-modify-write of its register that changes only that field, a write-1-to-clear bit written
back as 0; an access that writes a whole register is the register's write (R41). -/
def Obligations.FieldWriteIsReadModifyWrite : Prop :=
  ∀ (s : State) (b : Bool) (c : BitVec 2) (v : Byte),
    access (.txen b) s = regWrite .ctrlb (withBit (ctrlbByte s) 3 b) s ∧
    access (.rxen b) s = regWrite .ctrlb (withBit (ctrlbByte s) 4 b) s ∧
    access (.fsz2 b) s = regWrite .ctrlb (withBit (ctrlbByte s) 2 b) s ∧
    setTxb8 b s = regWrite .ctrlb (withBit (ctrlbByte s) 0 b) s ∧
    access (.u2x b) s = regWrite .stata (withBit (withBit (stataByte s) 6 false) 1 b) s ∧
    access (.mode b) s = regWrite .ctrlc (withBit (ctrlcByte s) 6 b) s ∧
    access (.par c) s = regWrite .ctrlc (withBit (withBit (ctrlcByte s) 5 (c.getLsbD 1)) 4 (c.getLsbD 0)) s ∧
    access (.stop b) s = regWrite .ctrlc (withBit (ctrlcByte s) 3 b) s ∧
    access (.fsz10 c) s = regWrite .ctrlc (withBit (withBit (ctrlcByte s) 2 (c.getLsbD 1)) 1 (c.getLsbD 0)) s ∧
    access (.baudh v) s = regWrite .baudh v s ∧ access (.baudl v) s = regWrite .baudl v s

/-- The side effects of register accesses (R41, R32, R18): reading a register other than DATA changes nothing the spec names;
reading DATA removes the FIFO head and clears DOR, and removes nothing from an empty FIFO; writes have the effects of the table,
those of CTRLB the flush only when RXEN goes from 1 to 0, and ignore the hardwired and read-only bits. That a read with an empty
FIFO counts a draw, and that a write of BAUDL with TSR full takes one for the corrupt frame's bits, is the model's (logs 6 and
18). -/
def Obligations.RegisterAccessEffects : Prop :=
  ∀ (s : State) (v : Byte),
    regRead .stata s = (stataByte s, s) ∧ regRead .ctrlc s = (ctrlcByte s, s) ∧
    regRead .baudh s = (s.baudh, s) ∧ regRead .baudl s = (s.baudl, s) ∧
    (regRead .ctrlb s).2 = { s with draws := (regRead .ctrlb s).2.draws } ∧
    (∀ e more, s.rxfifo = e :: more →
      regRead .ctrlb s = (ctrlbByte s, s) ∧
      regRead .data s = (e.data.setWidth 8, { s with rxfifo := more, dor := false })) ∧
    (s.rxfifo = [] → (regRead .data s).2 = { s with draws := s.draws + 1 }) ∧
    regWrite .data v s = { s with txbuf := some (BitVec.ofNat 9 (s.txb8.toNat * 256 + v.toNat)) } ∧
    regWrite .stata v s = { s with u2x := v.getLsbD 1, txc := if v.getLsbD 6 then false else s.txc } ∧
    ((s.rxen = true ∧ v.getLsbD 4 = false) →
      regWrite .ctrlb v s = { s with rxen := false, txen := v.getLsbD 3, fsz2 := v.getLsbD 2, txb8 := v.getLsbD 0,
                                     rxfifo := [], dor := false }) ∧
    ((s.rxen = false ∨ v.getLsbD 4 = true) →
      regWrite .ctrlb v s = { s with rxen := v.getLsbD 4, txen := v.getLsbD 3, fsz2 := v.getLsbD 2, txb8 := v.getLsbD 0 }) ∧
    regWrite .ctrlc v s = { s with mode := v.getLsbD 6, par := v.extractLsb' 4 2, stop := v.getLsbD 3,
                                   fsz10 := v.extractLsb' 1 2 } ∧
    regWrite .baudh v s = { s with baudh := v } ∧
    regWrite .baudl v s = { s with baudl := v, divActive := s.baudh ++ v,
                                   tsr := s.tsr.map fun f => { bits := drawBits s.draws f.bits.length, corrupt := true },
                                   draws := if s.tsr = none then s.draws else s.draws + 1 }

/-- Between the two register writes of a character, or the two register reads of one, a step of an engine changes nothing the
second access depends on: taking both as one step loses no behaviour (R51, the spec's own inference from R41,
R96 and R102). -/
def Obligations.AtomicAccessLosesNothing : Prop :=
  ∀ (s t : State) (e : Event) (b : Bool), (e = .txLoad ∨ e = .txShift ∨ ∃ free, e = .offer free) → runEvent e s = .next t →
    (s.txbuf = none → runEvent e (setTxb8 b s) = .next (setTxb8 b t) ∧ t.txbuf = none ∧ t.txb8 = s.txb8 ∧ t.ext = s.ext) ∧
    (s.rxfifo ≠ [] → t.rxfifo.head? = s.rxfifo.head? ∧ rxb8 t = rxb8 s ∧ t.ext = s.ext)

/-! ## Host memory -/

/-- A byte written is read back, and every other byte reads as before (R42). -/
def Obligations.MemoryReadsLastWrite : Prop :=
  ∀ (m : Memory) (a x : Nat) (v : Byte), Memory.wf m = true →
    memRead (memWrite m a v) x = if x = a then v else memRead m x

/-- Only the sequencer's RXLINE steps and reset change a byte of host memory, and only a byte of the line buffer (R42). -/
def Obligations.MemoryWrittenOnlyByRxline : Prop :=
  ∀ (s t : State) (a : Nat), SeqOk s → step s = .next t → memRead t.mem a ≠ memRead s.mem a →
    lineAddr s 0 ≤ a ∧ a ≤ lineAddr s 9 ∧
    (nextEvent s = .reset ∨ (nextEvent s = .sequencer ∧ Fetches s .rxline ∧ ∃ i, s.seq = .rxl i ∧ a = lineAddr s i))

/-! ## Reset and invariants -/

/-- Reset from any state, FAULTED included, in one step (R38, R130): every piece of state takes its reset value, the line buffer
is zero, and host memory outside it stays. The canonical form of the memory is the model's invariant (log 10). -/
def Obligations.ResetSetsEverything : Prop :=
  ∀ s : State, nextEvent s = .reset → Memory.wf s.mem = true →
    ∃ t : State, step s = .next t ∧
      t.modef = false ∧ t.u2xf = false ∧ t.ext = false ∧ t.configured = false ∧ t.divSet = false ∧
      stataByte t = 0x20 ∧ (ctrlbByte t = 0x00 ∨ ctrlbByte t = 0x02) ∧ ctrlcByte t = 0x06 ∧ fsz t = 3 ∧
      t.baudh = 0 ∧ t.baudl = 0 ∧ t.divActive = 0 ∧ t.txbuf = none ∧ t.tsr = none ∧ t.rxfifo = [] ∧
      t.txwire = [] ∧ t.lbptr = 0 ∧ t.ci = 0 ∧ t.seq = .idle ∧ t.res = 0 ∧
      t.fcode = 0 ∧ t.fsub = 0 ∧ t.fcmd = 0 ∧
      (∀ j, j < 10 → memRead t.mem (lineAddr s j) = 0) ∧
      (∀ a, (a < lineAddr s 0 ∨ lineAddr s 9 < a) → memRead t.mem a = memRead s.mem a)

/-- Reset is the step whatever the state is, and it keeps the program, the parameters, agenda and draws: the model's convention
(log 11), read from R130, which resets the block's state only. The command in progress is abandoned with the accesses it had
left and the character it held (log 21). -/
def Obligations.ResetKeepsInputs : Prop :=
  ∀ s : State, nextEvent s = .reset →
    ∃ t : State, step s = .next t ∧ SameInputs (afterEvent s) t ∧ t.pending = [] ∧ t.lineChar = none

/-- The invariant holds at every launch with parameters R8 admits and host memory in canonical form, and at State.reset (R38).
The launch values of program, parameters and memory in State.reset are the model's (logs 1, 2, 10). -/
def Obligations.InvariantAtLaunch : Prop :=
  (∀ (p : Params) (program : List CmdWord) (mem : Memory), p.wf = true → Memory.wf mem = true →
    Inv (State.launch p program mem)) ∧
  Inv State.reset

/-- Every step of every agent, reset included, keeps the invariant of the block (R26, R28, R31, R35, R37, R104, R116). -/
def Obligations.StepKeepsInvariant : Prop :=
  ∀ s t : State, Inv s → step s = .next t → Inv t

/-- In a state that meets the invariant no step stops the model: every event, whatever the program, the peer and the schedule
are, has a next state (R49, R91, R104; the two stops of the model are logs 8 and 9). -/
def Obligations.InvariantStateNeverStops : Prop :=
  ∀ s : State, Inv s → ∃ t, step s = .next t

/-! ## Rules of the whole machine -/

/-- CI is 0 at every launch; no step but reset changes it otherwise than by one more, and then the command has completed
(R15, R71). -/
def Obligations.CommandIndexAdvancesByOne : Prop :=
  (∀ p program mem, (State.launch p program mem).ci = 0) ∧
  (∀ s t : State, step s = .next t → nextEvent s ≠ .reset →
    t.ci = s.ci ∨ (t.ci = s.ci + 1 ∧ t.seq = .idle ∧ nextEvent s = .sequencer ∧ s.seq ≠ .faulted)) ∧
  (∀ s t : State, step s = .next t → nextEvent s = .reset → t.ci = 0)

/-- The latched flags and the frame format change only in a step of an INIT with CONFIGURED = 0, at IDLE, or in reset; with
CONFIGURED = 1 they stay until reset; CONFIGURED and DIV_SET are cleared by reset only (R16, R17; R104, the spec's own
inference). EXT takes the value of R81, after the width it goes with has been written (R79; that its write is a step of its own
is log 21). -/
def Obligations.FormatFixedOnceConfigured : Prop :=
  ∀ s t : State, SeqOk s → step s = .next t → nextEvent s ≠ .reset →
    ((t.modef ≠ s.modef ∨ t.u2xf ≠ s.u2xf ∨ t.ext ≠ s.ext ∨ formatOf t ≠ formatOf s) →
      s.configured = false ∧ s.seq = .idle ∧ nextEvent s = .sequencer ∧ ∃ m d f p b, Fetches s (.init m d f p b)) ∧
    (∀ m d f p b, t.ext ≠ s.ext → Fetches s (.init m d f p b) → t.ext = decide (f = 9) ∧ (t.ext = true → fsz s = 7)) ∧
    (s.configured = true → t.configured = true) ∧ (s.divSet = true → t.divSet = true)

/-- DIV_ACTIVE and the baud registers change only in the sequencer's step of a SETBAUD under way or in reset; RES only in the
sequencer's step of an RXBYTE in RXB_WAIT or of an RXLINE in RXL(i), or in reset (R28, R36). -/
def Obligations.DivisorAndResultWriters : Prop :=
  ∀ s t : State, SeqOk s → step s = .next t → nextEvent s ≠ .reset →
    ((t.divActive ≠ s.divActive ∨ baudPair t ≠ baudPair s) →
      nextEvent s = .sequencer ∧ s.seq = .idle ∧ ∃ bps, Fetches s (.setbaud bps) ∧ UnderWay (.setbaud bps) s) ∧
    (t.res ≠ s.res → nextEvent s = .sequencer ∧
      ((s.seq = .rxbWait ∧ Fetches s .rxbyte) ∨
       (∃ i, s.seq = .rxl i ∧ Fetches s .rxline ∧ t.res = s.params.linebufBase)))

/-- Characters leave in the order they were buffered, one frame each, none dropped or duplicated: a step of any agent but reset
that keeps the format leaves the frames of the transmit path as they are, or adds one at the end when the buffer was empty (R100,
the spec's own inference from R96, R97 and R29), or is the write of BAUDL, which makes the frame in TSR corrupt: it keeps its
place, and its bits are no longer fixed (R98). -/
def Obligations.CharactersLeaveInOrder : Prop :=
  ∀ s t : State, step s = .next t → nextEvent s ≠ .reset → formatOf t = formatOf s →
    outgoing t = outgoing s ∨
    (s.txbuf = none ∧ nextEvent s = .sequencer ∧ ∃ f v, formatOf s = some f ∧ t.txbuf = some v ∧
      outgoing t = outgoing s ++ [some (encodeFrame f v)]) ∨
    (nextEvent s = .sequencer ∧ (∃ lo rest, s.pending = .baudl lo :: rest) ∧ ∃ fr, s.tsr = some fr ∧
      outgoing t = outgoing { s with tsr := some { fr with corrupt := true } })

/-- The wire log only grows, by the frame that stood in TSR, and TXC once set stays set, until reset (R22, R33, R99). -/
def Obligations.WireLogOnlyGrows : Prop :=
  ∀ s t : State, step s = .next t → nextEvent s ≠ .reset →
    (t.txwire = s.txwire ∨ ∃ fr, nextEvent s = .txShift ∧ s.tsr = some fr ∧ t.txwire = s.txwire ++ [fr]) ∧
    (s.txc = true → t.txc = true) ∧
    (s.txc = false → t.txc = true → nextEvent s = .txShift ∧ s.tsr ≠ none ∧ s.txbuf = none)

/-- R74. A state stuck by itself stays so in every step but reset and is not final. In a run without reset a stuck sequencer, the
one whose environment offers no further frame included, keeps its state for good, and no state of it is final; and in a run R75
admits a wait is stuck exactly when it never ends. -/
def Obligations.StuckUntilReset : Prop :=
  (∀ s : State, Stuck s → ¬ Final s ∧
    ∀ t, step s = .next t → nextEvent s ≠ .reset → Stuck t ∧ t.seq = s.seq ∧ t.ci = s.ci) ∧
  (∀ (ε : Nat → Event) (σ : Nat → State) (n : Nat), IsRun ε σ → NoReset ε n →
    (Stuck (σ n) → StuckIn ε σ n) ∧
    (StuckIn ε σ n → ∀ m, n ≤ m →
      StuckIn ε σ m ∧ ¬ Final (σ m) ∧ (σ m).seq = (σ n).seq ∧ (σ m).ci = (σ n).ci)) ∧
  (∀ (ε : Nat → Event) (σ : Nat → State) (n : Nat), FairRun ε σ → NoReset ε n → Waits (σ n) →
    (StuckIn ε σ n ↔ ∀ m, n ≤ m → Waits (σ m)))

/-- R75's consequences. In a fair run without reset a wait for UDRE with TXEN = 1 ends, by the sequencer's step with TXBUF empty;
one SHIFT, one LOAD and the sequencer's turn are enough. A wait for RXC with RXFIFO empty ends only if the environment has offered
a frame while RXEN = 1. -/
def Obligations.TransmitWaitEnds : Prop :=
  (∀ (s : State) (rest : List Event), WaitsTx s → s.txen = true → formatOf s ≠ none →
    s.agenda = .txShift :: .txLoad :: .sequencer :: rest →
    ∃ t : State, Host.Core.run Sys2Proof.core 3 s = .next t ∧ t.agenda = rest ∧ t.txbuf ≠ none ∧
      ((∃ v, s.seq = .txbWait v ∧ t.seq = .idle ∧ t.ci = s.ci + 1) ∨
       (∃ a c, s.seq = .txlWait a c ∧ t.seq = .txlFetch (a + 1) ∧ t.ci = s.ci))) ∧
  (∀ (ε : Nat → Event) (σ : Nat → State) (n : Nat), FairRun ε σ → NoReset ε n → WaitsTx (σ n) → (σ n).txen = true →
    ∃ m, n ≤ m ∧ (σ m).seq = (σ n).seq ∧ (σ m).ci = (σ n).ci ∧ (σ m).txbuf = none ∧ ε m = .sequencer ∧
      ¬ WaitsTx (σ (m + 1))) ∧
  (∀ (ε : Nat → Event) (σ : Nat → State) (n m : Nat), IsRun ε σ → NoReset ε n → WaitsRx (σ n) → (σ n).rxfifo = [] →
    n ≤ m → ¬ WaitsRx (σ m) → ∃ k, n ≤ k ∧ k < m ∧ Offers ε σ k ∧ (σ k).rxen = true)

/-- In a final state no step but reset changes anything but RXFIFO and DOR, and LBPTR in loopback, and the state stays final
(R78; that LBPTR moves is R101's, log 16). -/
def Obligations.FinalStateStaysFinal : Prop :=
  ∀ s t : State, Final s → step s = .next t → nextEvent s ≠ .reset →
    Final t ∧ t = { afterEvent s with rxfifo := t.rxfifo, dor := t.dor, lbptr := t.lbptr } ∧
    (s.params.loopback = false → t.lbptr = s.lbptr) ∧
    (nextEvent s = .sequencer ∨ nextEvent s = .txLoad ∨ nextEvent s = .txShift → t = afterEvent s)

/-- No step's result depends on a draw: with the event decided, states that differ only in the free values still to come and in the
bits of corrupt frames, in TSR or on TXWIRE, have steps that differ only there. So neither RXB8 and DATA read with an empty FIFO
(R18, R24) nor what a reader sees in place of a corrupt frame (R98) reaches a state of the block (logs 6 and 18). -/
def Obligations.DrawsNotObserved : Prop :=
  ∀ (s t : State) (e : Event) (rest : List Event), s.agenda = e :: rest → forgetDraws s = forgetDraws t →
    mapNext forgetDraws (step s) = mapNext forgetDraws (step t)
end

