-- ==== Sys2Proof/Laws/Memory.lean ====
section
/-! SUPPORT. Host memory: every operation keeps the canonical form, a write leaves every other byte alone, and memories in
canonical form that read alike are equal. -/

namespace Sys2Proof.Machine

/-- The canonical form from an address on, taken apart at the first entry. -/
theorem memWfFrom_cons {lo a : Nat} {b : Byte} {m : Memory} :
    memWfFrom lo ((a, b) :: m) = true ↔ lo ≤ a ∧ a < hostBytes ∧ b ≠ 0 ∧ memWfFrom (a + 1) m = true := by
  simp [memWfFrom, and_assoc]

/-- The canonical form from an address on implies it from every lower one. -/
theorem memWfFrom_mono {lo lo' : Nat} (h : lo' ≤ lo) {m : Memory} (hm : memWfFrom lo m = true) : memWfFrom lo' m = true := by
  cases m with
  | nil => rfl
  | cons c m =>
    obtain ⟨a, b⟩ := c
    rw [memWfFrom_cons] at hm ⊢
    exact ⟨h.trans hm.1, hm.2⟩

/-- A canonical memory that starts above an address reads as 0x00 there. -/
theorem memRead_below {lo x : Nat} {m : Memory} (hm : memWfFrom lo m = true) (hx : x < lo) : memRead m x = 0 := by
  induction m generalizing lo with
  | nil => rfl
  | cons c m ih =>
    obtain ⟨a, b⟩ := c
    rw [memWfFrom_cons] at hm
    have hne : x ≠ a := by omega
    simp only [memRead, if_neg hne]
    exact ih hm.2.2.2 (by omega)

/-- A write leaves every other byte alone. -/
theorem memRead_memWrite_ne {a x : Nat} (h : x ≠ a) (m : Memory) (v : Byte) : memRead (memWrite m a v) x = memRead m x := by
  induction m with
  | nil => unfold memWrite; split <;> simp [memRead, h]
  | cons c m ih =>
    obtain ⟨a', b⟩ := c
    unfold memWrite
    split_ifs with h1 h2 h3 h4 <;> simp [memRead, h, ih] <;> (intro hx; omega)

/-- A write of an existing address, or of 0x00, keeps the canonical form. -/
theorem memWrite_wfFrom {lo a : Nat} {v : Byte} {m : Memory} (hm : memWfFrom lo m = true) (hlo : lo ≤ a)
    (ha : a < hostBytes ∨ v = 0) : memWfFrom lo (memWrite m a v) = true := by
  induction m generalizing lo with
  | nil =>
    unfold memWrite
    split_ifs with h
    · rfl
    · exact memWfFrom_cons.mpr ⟨hlo, by tauto, h, rfl⟩
  | cons c m ih =>
    obtain ⟨a', b⟩ := c
    have hc := memWfFrom_cons.mp hm
    unfold memWrite
    split_ifs with h1 h2 h3 h4
    · exact hm
    · exact memWfFrom_cons.mpr ⟨hlo, by tauto, h2, memWfFrom_cons.mpr ⟨h1, hc.2.1, hc.2.2.1, hc.2.2.2⟩⟩
    · exact memWfFrom_mono (by omega) hc.2.2.2
    · exact memWfFrom_cons.mpr ⟨hlo, by tauto, h4, h3 ▸ hc.2.2.2⟩
    · exact memWfFrom_cons.mpr ⟨hc.1, hc.2.1, hc.2.2.1, ih hc.2.2.2 (by omega)⟩

/-- A write of an existing address keeps host memory in canonical form. -/
theorem memWrite_wf {m : Memory} {a : Nat} {v : Byte} (hm : Memory.wf m = true) (ha : a < hostBytes) :
    Memory.wf (memWrite m a v) = true :=
  memWrite_wfFrom hm (Nat.zero_le a) (Or.inl ha)

/-- Zeroing the line buffer keeps host memory in canonical form. -/
theorem memZero_wf {m : Memory} (hm : Memory.wf m = true) (base k : Nat) : Memory.wf (memZero m base k) = true := by
  induction k with
  | zero => exact hm
  | succ k ih => exact memWrite_wfFrom ih (Nat.zero_le _) (Or.inr rfl)

/-- Zeroing the line buffer leaves every byte outside it alone. -/
theorem memRead_memZero_outside {base k x : Nat} (m : Memory) (h : x < base ∨ base + k ≤ x) :
    memRead (memZero m base k) x = memRead m x := by
  induction k with
  | zero => rfl
  | succ k ih =>
    unfold memZero
    rw [memRead_memWrite_ne (by omega)]
    exact ih (by omega)

/-- Canonical memories that read alike are equal. -/
theorem memWfFrom_ext {lo : Nat} {m m' : Memory} (hm : memWfFrom lo m = true) (hm' : memWfFrom lo m' = true)
    (h : ∀ x, memRead m x = memRead m' x) : m = m' := by
  induction m generalizing lo m' with
  | nil =>
    cases m' with
    | nil => rfl
    | cons c m' =>
      obtain ⟨a, b⟩ := c
      have := h a
      simp only [memRead, if_true] at this
      exact absurd this.symm (memWfFrom_cons.mp hm').2.2.1
  | cons c m ih =>
    obtain ⟨a, b⟩ := c
    have hc := memWfFrom_cons.mp hm
    cases m' with
    | nil =>
      have := h a
      simp only [memRead, if_true] at this
      exact absurd this hc.2.2.1
    | cons c' m' =>
      obtain ⟨a', b'⟩ := c'
      have hc' := memWfFrom_cons.mp hm'
      have key : a = a' := by
        rcases Nat.lt_trichotomy a a' with hlt | heq | hgt
        · have h1 := h a
          have h2 : memRead ((a', b') :: m') a = 0 :=
            memRead_below (lo := a') (memWfFrom_cons.mpr ⟨le_refl _, hc'.2⟩) hlt
          rw [h2] at h1
          simp only [memRead, if_true] at h1
          exact absurd h1 hc.2.2.1
        · exact heq
        · have h1 := h a'
          have h2 : memRead ((a, b) :: m) a' = 0 :=
            memRead_below (lo := a) (memWfFrom_cons.mpr ⟨le_refl _, hc.2⟩) hgt
          rw [h2] at h1
          simp only [memRead, if_true] at h1
          exact absurd h1.symm hc'.2.2.1
      subst key
      have hb := h a
      simp only [memRead, if_true] at hb
      subst hb
      congr 1
      refine ih hc.2.2.2 hc'.2.2.2 fun x => ?_
      by_cases hx : x = a
      · subst hx
        rw [memRead_below hc.2.2.2 (Nat.lt_succ_self _), memRead_below hc'.2.2.2 (Nat.lt_succ_self _)]
      · have := h x
        simpa only [memRead, if_neg hx] using this

/-- Equal memories are equal data. -/
theorem memory_ext {m m' : Memory} (hm : Memory.wf m = true) (hm' : Memory.wf m' = true)
    (h : ∀ x, memRead m x = memRead m' x) : m = m' :=
  memWfFrom_ext hm hm' h

/-- Host memory right after the launch reset of State.reset is in canonical form. -/
theorem reset_memory_wf : Memory.wf State.reset.mem = true := rfl

end Sys2Proof.Machine
end

