-- ==== Sys2Proof/Laws/State.lean ====
section
/-! SUPPORT. Every field after every named update of the state, each by computation; no proof needs to unfold an update. -/

namespace Sys2Proof.Machine

variable (s : State)

@[simp] theorem complete_params : (complete s).params = s.params := rfl
@[simp] theorem complete_program : (complete s).program = s.program := rfl
@[simp] theorem complete_modef : (complete s).modef = s.modef := rfl
@[simp] theorem complete_u2xf : (complete s).u2xf = s.u2xf := rfl
@[simp] theorem complete_ext : (complete s).ext = s.ext := rfl
@[simp] theorem complete_configured : (complete s).configured = s.configured := rfl
@[simp] theorem complete_divSet : (complete s).divSet = s.divSet := rfl
@[simp] theorem complete_txc : (complete s).txc = s.txc := rfl
@[simp] theorem complete_dor : (complete s).dor = s.dor := rfl
@[simp] theorem complete_u2x : (complete s).u2x = s.u2x := rfl
@[simp] theorem complete_rxen : (complete s).rxen = s.rxen := rfl
@[simp] theorem complete_txen : (complete s).txen = s.txen := rfl
@[simp] theorem complete_fsz2 : (complete s).fsz2 = s.fsz2 := rfl
@[simp] theorem complete_txb8 : (complete s).txb8 = s.txb8 := rfl
@[simp] theorem complete_mode : (complete s).mode = s.mode := rfl
@[simp] theorem complete_par : (complete s).par = s.par := rfl
@[simp] theorem complete_stop : (complete s).stop = s.stop := rfl
@[simp] theorem complete_fsz10 : (complete s).fsz10 = s.fsz10 := rfl
@[simp] theorem complete_baudh : (complete s).baudh = s.baudh := rfl
@[simp] theorem complete_baudl : (complete s).baudl = s.baudl := rfl
@[simp] theorem complete_divActive : (complete s).divActive = s.divActive := rfl
@[simp] theorem complete_txbuf : (complete s).txbuf = s.txbuf := rfl
@[simp] theorem complete_tsr : (complete s).tsr = s.tsr := rfl
@[simp] theorem complete_rxfifo : (complete s).rxfifo = s.rxfifo := rfl
@[simp] theorem complete_ci : (complete s).ci = s.ci + 1 := rfl
@[simp] theorem complete_seq : (complete s).seq = .idle := rfl
@[simp] theorem complete_res : (complete s).res = s.res := rfl
@[simp] theorem complete_fcode : (complete s).fcode = s.fcode := rfl
@[simp] theorem complete_fsub : (complete s).fsub = s.fsub := rfl
@[simp] theorem complete_fcmd : (complete s).fcmd = s.fcmd := rfl
@[simp] theorem complete_mem : (complete s).mem = s.mem := rfl
@[simp] theorem complete_txwire : (complete s).txwire = s.txwire := rfl
@[simp] theorem complete_lbptr : (complete s).lbptr = s.lbptr := rfl
@[simp] theorem complete_pending : (complete s).pending = s.pending := rfl
@[simp] theorem complete_lineChar : (complete s).lineChar = s.lineChar := rfl
@[simp] theorem complete_agenda : (complete s).agenda = s.agenda := rfl
@[simp] theorem complete_draws : (complete s).draws = s.draws := rfl

@[simp] theorem setSeq_params (q : Seq) : (setSeq q s).params = s.params := rfl
@[simp] theorem setSeq_program (q : Seq) : (setSeq q s).program = s.program := rfl
@[simp] theorem setSeq_modef (q : Seq) : (setSeq q s).modef = s.modef := rfl
@[simp] theorem setSeq_u2xf (q : Seq) : (setSeq q s).u2xf = s.u2xf := rfl
@[simp] theorem setSeq_ext (q : Seq) : (setSeq q s).ext = s.ext := rfl
@[simp] theorem setSeq_configured (q : Seq) : (setSeq q s).configured = s.configured := rfl
@[simp] theorem setSeq_divSet (q : Seq) : (setSeq q s).divSet = s.divSet := rfl
@[simp] theorem setSeq_txc (q : Seq) : (setSeq q s).txc = s.txc := rfl
@[simp] theorem setSeq_dor (q : Seq) : (setSeq q s).dor = s.dor := rfl
@[simp] theorem setSeq_u2x (q : Seq) : (setSeq q s).u2x = s.u2x := rfl
@[simp] theorem setSeq_rxen (q : Seq) : (setSeq q s).rxen = s.rxen := rfl
@[simp] theorem setSeq_txen (q : Seq) : (setSeq q s).txen = s.txen := rfl
@[simp] theorem setSeq_fsz2 (q : Seq) : (setSeq q s).fsz2 = s.fsz2 := rfl
@[simp] theorem setSeq_txb8 (q : Seq) : (setSeq q s).txb8 = s.txb8 := rfl
@[simp] theorem setSeq_mode (q : Seq) : (setSeq q s).mode = s.mode := rfl
@[simp] theorem setSeq_par (q : Seq) : (setSeq q s).par = s.par := rfl
@[simp] theorem setSeq_stop (q : Seq) : (setSeq q s).stop = s.stop := rfl
@[simp] theorem setSeq_fsz10 (q : Seq) : (setSeq q s).fsz10 = s.fsz10 := rfl
@[simp] theorem setSeq_baudh (q : Seq) : (setSeq q s).baudh = s.baudh := rfl
@[simp] theorem setSeq_baudl (q : Seq) : (setSeq q s).baudl = s.baudl := rfl
@[simp] theorem setSeq_divActive (q : Seq) : (setSeq q s).divActive = s.divActive := rfl
@[simp] theorem setSeq_txbuf (q : Seq) : (setSeq q s).txbuf = s.txbuf := rfl
@[simp] theorem setSeq_tsr (q : Seq) : (setSeq q s).tsr = s.tsr := rfl
@[simp] theorem setSeq_rxfifo (q : Seq) : (setSeq q s).rxfifo = s.rxfifo := rfl
@[simp] theorem setSeq_ci (q : Seq) : (setSeq q s).ci = s.ci := rfl
@[simp] theorem setSeq_seq (q : Seq) : (setSeq q s).seq = q := rfl
@[simp] theorem setSeq_res (q : Seq) : (setSeq q s).res = s.res := rfl
@[simp] theorem setSeq_fcode (q : Seq) : (setSeq q s).fcode = s.fcode := rfl
@[simp] theorem setSeq_fsub (q : Seq) : (setSeq q s).fsub = s.fsub := rfl
@[simp] theorem setSeq_fcmd (q : Seq) : (setSeq q s).fcmd = s.fcmd := rfl
@[simp] theorem setSeq_mem (q : Seq) : (setSeq q s).mem = s.mem := rfl
@[simp] theorem setSeq_txwire (q : Seq) : (setSeq q s).txwire = s.txwire := rfl
@[simp] theorem setSeq_lbptr (q : Seq) : (setSeq q s).lbptr = s.lbptr := rfl
@[simp] theorem setSeq_pending (q : Seq) : (setSeq q s).pending = s.pending := rfl
@[simp] theorem setSeq_lineChar (q : Seq) : (setSeq q s).lineChar = s.lineChar := rfl
@[simp] theorem setSeq_agenda (q : Seq) : (setSeq q s).agenda = s.agenda := rfl
@[simp] theorem setSeq_draws (q : Seq) : (setSeq q s).draws = s.draws := rfl

@[simp] theorem raise_params (c : Cause) : (raise c s).params = s.params := rfl
@[simp] theorem raise_program (c : Cause) : (raise c s).program = s.program := rfl
@[simp] theorem raise_modef (c : Cause) : (raise c s).modef = s.modef := rfl
@[simp] theorem raise_u2xf (c : Cause) : (raise c s).u2xf = s.u2xf := rfl
@[simp] theorem raise_ext (c : Cause) : (raise c s).ext = s.ext := rfl
@[simp] theorem raise_configured (c : Cause) : (raise c s).configured = s.configured := rfl
@[simp] theorem raise_divSet (c : Cause) : (raise c s).divSet = s.divSet := rfl
@[simp] theorem raise_txc (c : Cause) : (raise c s).txc = s.txc := rfl
@[simp] theorem raise_dor (c : Cause) : (raise c s).dor = s.dor := rfl
@[simp] theorem raise_u2x (c : Cause) : (raise c s).u2x = s.u2x := rfl
@[simp] theorem raise_rxen (c : Cause) : (raise c s).rxen = s.rxen := rfl
@[simp] theorem raise_txen (c : Cause) : (raise c s).txen = s.txen := rfl
@[simp] theorem raise_fsz2 (c : Cause) : (raise c s).fsz2 = s.fsz2 := rfl
@[simp] theorem raise_txb8 (c : Cause) : (raise c s).txb8 = s.txb8 := rfl
@[simp] theorem raise_mode (c : Cause) : (raise c s).mode = s.mode := rfl
@[simp] theorem raise_par (c : Cause) : (raise c s).par = s.par := rfl
@[simp] theorem raise_stop (c : Cause) : (raise c s).stop = s.stop := rfl
@[simp] theorem raise_fsz10 (c : Cause) : (raise c s).fsz10 = s.fsz10 := rfl
@[simp] theorem raise_baudh (c : Cause) : (raise c s).baudh = s.baudh := rfl
@[simp] theorem raise_baudl (c : Cause) : (raise c s).baudl = s.baudl := rfl
@[simp] theorem raise_divActive (c : Cause) : (raise c s).divActive = s.divActive := rfl
@[simp] theorem raise_txbuf (c : Cause) : (raise c s).txbuf = s.txbuf := rfl
@[simp] theorem raise_tsr (c : Cause) : (raise c s).tsr = s.tsr := rfl
@[simp] theorem raise_rxfifo (c : Cause) : (raise c s).rxfifo = s.rxfifo := rfl
@[simp] theorem raise_ci (c : Cause) : (raise c s).ci = s.ci := rfl
@[simp] theorem raise_seq (c : Cause) : (raise c s).seq = .faulted := rfl
@[simp] theorem raise_res (c : Cause) : (raise c s).res = s.res := rfl
@[simp] theorem raise_fcode (c : Cause) : (raise c s).fcode = causeCode c := rfl
@[simp] theorem raise_fsub (c : Cause) : (raise c s).fsub = causeSub c := rfl
@[simp] theorem raise_fcmd (c : Cause) : (raise c s).fcmd = s.ci := rfl
@[simp] theorem raise_mem (c : Cause) : (raise c s).mem = s.mem := rfl
@[simp] theorem raise_txwire (c : Cause) : (raise c s).txwire = s.txwire := rfl
@[simp] theorem raise_lbptr (c : Cause) : (raise c s).lbptr = s.lbptr := rfl
@[simp] theorem raise_pending (c : Cause) : (raise c s).pending = s.pending := rfl
@[simp] theorem raise_lineChar (c : Cause) : (raise c s).lineChar = s.lineChar := rfl
@[simp] theorem raise_agenda (c : Cause) : (raise c s).agenda = s.agenda := rfl
@[simp] theorem raise_draws (c : Cause) : (raise c s).draws = s.draws := rfl

@[simp] theorem setTxen_params (b : Bool) : (setTxen b s).params = s.params := rfl
@[simp] theorem setTxen_program (b : Bool) : (setTxen b s).program = s.program := rfl
@[simp] theorem setTxen_modef (b : Bool) : (setTxen b s).modef = s.modef := rfl
@[simp] theorem setTxen_u2xf (b : Bool) : (setTxen b s).u2xf = s.u2xf := rfl
@[simp] theorem setTxen_ext (b : Bool) : (setTxen b s).ext = s.ext := rfl
@[simp] theorem setTxen_configured (b : Bool) : (setTxen b s).configured = s.configured := rfl
@[simp] theorem setTxen_divSet (b : Bool) : (setTxen b s).divSet = s.divSet := rfl
@[simp] theorem setTxen_txc (b : Bool) : (setTxen b s).txc = s.txc := rfl
@[simp] theorem setTxen_dor (b : Bool) : (setTxen b s).dor = s.dor := rfl
@[simp] theorem setTxen_u2x (b : Bool) : (setTxen b s).u2x = s.u2x := rfl
@[simp] theorem setTxen_rxen (b : Bool) : (setTxen b s).rxen = s.rxen := rfl
@[simp] theorem setTxen_txen (b : Bool) : (setTxen b s).txen = b := rfl
@[simp] theorem setTxen_fsz2 (b : Bool) : (setTxen b s).fsz2 = s.fsz2 := rfl
@[simp] theorem setTxen_txb8 (b : Bool) : (setTxen b s).txb8 = s.txb8 := rfl
@[simp] theorem setTxen_mode (b : Bool) : (setTxen b s).mode = s.mode := rfl
@[simp] theorem setTxen_par (b : Bool) : (setTxen b s).par = s.par := rfl
@[simp] theorem setTxen_stop (b : Bool) : (setTxen b s).stop = s.stop := rfl
@[simp] theorem setTxen_fsz10 (b : Bool) : (setTxen b s).fsz10 = s.fsz10 := rfl
@[simp] theorem setTxen_baudh (b : Bool) : (setTxen b s).baudh = s.baudh := rfl
@[simp] theorem setTxen_baudl (b : Bool) : (setTxen b s).baudl = s.baudl := rfl
@[simp] theorem setTxen_divActive (b : Bool) : (setTxen b s).divActive = s.divActive := rfl
@[simp] theorem setTxen_txbuf (b : Bool) : (setTxen b s).txbuf = s.txbuf := rfl
@[simp] theorem setTxen_tsr (b : Bool) : (setTxen b s).tsr = s.tsr := rfl
@[simp] theorem setTxen_rxfifo (b : Bool) : (setTxen b s).rxfifo = s.rxfifo := rfl
@[simp] theorem setTxen_ci (b : Bool) : (setTxen b s).ci = s.ci := rfl
@[simp] theorem setTxen_seq (b : Bool) : (setTxen b s).seq = s.seq := rfl
@[simp] theorem setTxen_res (b : Bool) : (setTxen b s).res = s.res := rfl
@[simp] theorem setTxen_fcode (b : Bool) : (setTxen b s).fcode = s.fcode := rfl
@[simp] theorem setTxen_fsub (b : Bool) : (setTxen b s).fsub = s.fsub := rfl
@[simp] theorem setTxen_fcmd (b : Bool) : (setTxen b s).fcmd = s.fcmd := rfl
@[simp] theorem setTxen_mem (b : Bool) : (setTxen b s).mem = s.mem := rfl
@[simp] theorem setTxen_txwire (b : Bool) : (setTxen b s).txwire = s.txwire := rfl
@[simp] theorem setTxen_lbptr (b : Bool) : (setTxen b s).lbptr = s.lbptr := rfl
@[simp] theorem setTxen_pending (b : Bool) : (setTxen b s).pending = s.pending := rfl
@[simp] theorem setTxen_lineChar (b : Bool) : (setTxen b s).lineChar = s.lineChar := rfl
@[simp] theorem setTxen_agenda (b : Bool) : (setTxen b s).agenda = s.agenda := rfl
@[simp] theorem setTxen_draws (b : Bool) : (setTxen b s).draws = s.draws := rfl

@[simp] theorem setRxen_params (b : Bool) : (setRxen b s).params = s.params := rfl
@[simp] theorem setRxen_program (b : Bool) : (setRxen b s).program = s.program := rfl
@[simp] theorem setRxen_modef (b : Bool) : (setRxen b s).modef = s.modef := rfl
@[simp] theorem setRxen_u2xf (b : Bool) : (setRxen b s).u2xf = s.u2xf := rfl
@[simp] theorem setRxen_ext (b : Bool) : (setRxen b s).ext = s.ext := rfl
@[simp] theorem setRxen_configured (b : Bool) : (setRxen b s).configured = s.configured := rfl
@[simp] theorem setRxen_divSet (b : Bool) : (setRxen b s).divSet = s.divSet := rfl
@[simp] theorem setRxen_txc (b : Bool) : (setRxen b s).txc = s.txc := rfl
@[simp] theorem setRxen_dor (b : Bool) : (setRxen b s).dor = (s.dor && !(s.rxen && !b)) := rfl
@[simp] theorem setRxen_u2x (b : Bool) : (setRxen b s).u2x = s.u2x := rfl
@[simp] theorem setRxen_rxen (b : Bool) : (setRxen b s).rxen = b := rfl
@[simp] theorem setRxen_txen (b : Bool) : (setRxen b s).txen = s.txen := rfl
@[simp] theorem setRxen_fsz2 (b : Bool) : (setRxen b s).fsz2 = s.fsz2 := rfl
@[simp] theorem setRxen_txb8 (b : Bool) : (setRxen b s).txb8 = s.txb8 := rfl
@[simp] theorem setRxen_mode (b : Bool) : (setRxen b s).mode = s.mode := rfl
@[simp] theorem setRxen_par (b : Bool) : (setRxen b s).par = s.par := rfl
@[simp] theorem setRxen_stop (b : Bool) : (setRxen b s).stop = s.stop := rfl
@[simp] theorem setRxen_fsz10 (b : Bool) : (setRxen b s).fsz10 = s.fsz10 := rfl
@[simp] theorem setRxen_baudh (b : Bool) : (setRxen b s).baudh = s.baudh := rfl
@[simp] theorem setRxen_baudl (b : Bool) : (setRxen b s).baudl = s.baudl := rfl
@[simp] theorem setRxen_divActive (b : Bool) : (setRxen b s).divActive = s.divActive := rfl
@[simp] theorem setRxen_txbuf (b : Bool) : (setRxen b s).txbuf = s.txbuf := rfl
@[simp] theorem setRxen_tsr (b : Bool) : (setRxen b s).tsr = s.tsr := rfl
@[simp] theorem setRxen_rxfifo (b : Bool) : (setRxen b s).rxfifo = if s.rxen && !b then [] else s.rxfifo := rfl
@[simp] theorem setRxen_ci (b : Bool) : (setRxen b s).ci = s.ci := rfl
@[simp] theorem setRxen_seq (b : Bool) : (setRxen b s).seq = s.seq := rfl
@[simp] theorem setRxen_res (b : Bool) : (setRxen b s).res = s.res := rfl
@[simp] theorem setRxen_fcode (b : Bool) : (setRxen b s).fcode = s.fcode := rfl
@[simp] theorem setRxen_fsub (b : Bool) : (setRxen b s).fsub = s.fsub := rfl
@[simp] theorem setRxen_fcmd (b : Bool) : (setRxen b s).fcmd = s.fcmd := rfl
@[simp] theorem setRxen_mem (b : Bool) : (setRxen b s).mem = s.mem := rfl
@[simp] theorem setRxen_txwire (b : Bool) : (setRxen b s).txwire = s.txwire := rfl
@[simp] theorem setRxen_lbptr (b : Bool) : (setRxen b s).lbptr = s.lbptr := rfl
@[simp] theorem setRxen_pending (b : Bool) : (setRxen b s).pending = s.pending := rfl
@[simp] theorem setRxen_lineChar (b : Bool) : (setRxen b s).lineChar = s.lineChar := rfl
@[simp] theorem setRxen_agenda (b : Bool) : (setRxen b s).agenda = s.agenda := rfl
@[simp] theorem setRxen_draws (b : Bool) : (setRxen b s).draws = s.draws := rfl

@[simp] theorem setTxb8_params (b : Bool) : (setTxb8 b s).params = s.params := rfl
@[simp] theorem setTxb8_program (b : Bool) : (setTxb8 b s).program = s.program := rfl
@[simp] theorem setTxb8_modef (b : Bool) : (setTxb8 b s).modef = s.modef := rfl
@[simp] theorem setTxb8_u2xf (b : Bool) : (setTxb8 b s).u2xf = s.u2xf := rfl
@[simp] theorem setTxb8_ext (b : Bool) : (setTxb8 b s).ext = s.ext := rfl
@[simp] theorem setTxb8_configured (b : Bool) : (setTxb8 b s).configured = s.configured := rfl
@[simp] theorem setTxb8_divSet (b : Bool) : (setTxb8 b s).divSet = s.divSet := rfl
@[simp] theorem setTxb8_txc (b : Bool) : (setTxb8 b s).txc = s.txc := rfl
@[simp] theorem setTxb8_dor (b : Bool) : (setTxb8 b s).dor = s.dor := rfl
@[simp] theorem setTxb8_u2x (b : Bool) : (setTxb8 b s).u2x = s.u2x := rfl
@[simp] theorem setTxb8_rxen (b : Bool) : (setTxb8 b s).rxen = s.rxen := rfl
@[simp] theorem setTxb8_txen (b : Bool) : (setTxb8 b s).txen = s.txen := rfl
@[simp] theorem setTxb8_fsz2 (b : Bool) : (setTxb8 b s).fsz2 = s.fsz2 := rfl
@[simp] theorem setTxb8_txb8 (b : Bool) : (setTxb8 b s).txb8 = b := rfl
@[simp] theorem setTxb8_mode (b : Bool) : (setTxb8 b s).mode = s.mode := rfl
@[simp] theorem setTxb8_par (b : Bool) : (setTxb8 b s).par = s.par := rfl
@[simp] theorem setTxb8_stop (b : Bool) : (setTxb8 b s).stop = s.stop := rfl
@[simp] theorem setTxb8_fsz10 (b : Bool) : (setTxb8 b s).fsz10 = s.fsz10 := rfl
@[simp] theorem setTxb8_baudh (b : Bool) : (setTxb8 b s).baudh = s.baudh := rfl
@[simp] theorem setTxb8_baudl (b : Bool) : (setTxb8 b s).baudl = s.baudl := rfl
@[simp] theorem setTxb8_divActive (b : Bool) : (setTxb8 b s).divActive = s.divActive := rfl
@[simp] theorem setTxb8_txbuf (b : Bool) : (setTxb8 b s).txbuf = s.txbuf := rfl
@[simp] theorem setTxb8_tsr (b : Bool) : (setTxb8 b s).tsr = s.tsr := rfl
@[simp] theorem setTxb8_rxfifo (b : Bool) : (setTxb8 b s).rxfifo = s.rxfifo := rfl
@[simp] theorem setTxb8_ci (b : Bool) : (setTxb8 b s).ci = s.ci := rfl
@[simp] theorem setTxb8_seq (b : Bool) : (setTxb8 b s).seq = s.seq := rfl
@[simp] theorem setTxb8_res (b : Bool) : (setTxb8 b s).res = s.res := rfl
@[simp] theorem setTxb8_fcode (b : Bool) : (setTxb8 b s).fcode = s.fcode := rfl
@[simp] theorem setTxb8_fsub (b : Bool) : (setTxb8 b s).fsub = s.fsub := rfl
@[simp] theorem setTxb8_fcmd (b : Bool) : (setTxb8 b s).fcmd = s.fcmd := rfl
@[simp] theorem setTxb8_mem (b : Bool) : (setTxb8 b s).mem = s.mem := rfl
@[simp] theorem setTxb8_txwire (b : Bool) : (setTxb8 b s).txwire = s.txwire := rfl
@[simp] theorem setTxb8_lbptr (b : Bool) : (setTxb8 b s).lbptr = s.lbptr := rfl
@[simp] theorem setTxb8_pending (b : Bool) : (setTxb8 b s).pending = s.pending := rfl
@[simp] theorem setTxb8_lineChar (b : Bool) : (setTxb8 b s).lineChar = s.lineChar := rfl
@[simp] theorem setTxb8_agenda (b : Bool) : (setTxb8 b s).agenda = s.agenda := rfl
@[simp] theorem setTxb8_draws (b : Bool) : (setTxb8 b s).draws = s.draws := rfl

@[simp] theorem setFsz2_params (b : Bool) : (setFsz2 b s).params = s.params := rfl
@[simp] theorem setFsz2_program (b : Bool) : (setFsz2 b s).program = s.program := rfl
@[simp] theorem setFsz2_modef (b : Bool) : (setFsz2 b s).modef = s.modef := rfl
@[simp] theorem setFsz2_u2xf (b : Bool) : (setFsz2 b s).u2xf = s.u2xf := rfl
@[simp] theorem setFsz2_ext (b : Bool) : (setFsz2 b s).ext = s.ext := rfl
@[simp] theorem setFsz2_configured (b : Bool) : (setFsz2 b s).configured = s.configured := rfl
@[simp] theorem setFsz2_divSet (b : Bool) : (setFsz2 b s).divSet = s.divSet := rfl
@[simp] theorem setFsz2_txc (b : Bool) : (setFsz2 b s).txc = s.txc := rfl
@[simp] theorem setFsz2_dor (b : Bool) : (setFsz2 b s).dor = s.dor := rfl
@[simp] theorem setFsz2_u2x (b : Bool) : (setFsz2 b s).u2x = s.u2x := rfl
@[simp] theorem setFsz2_rxen (b : Bool) : (setFsz2 b s).rxen = s.rxen := rfl
@[simp] theorem setFsz2_txen (b : Bool) : (setFsz2 b s).txen = s.txen := rfl
@[simp] theorem setFsz2_fsz2 (b : Bool) : (setFsz2 b s).fsz2 = b := rfl
@[simp] theorem setFsz2_txb8 (b : Bool) : (setFsz2 b s).txb8 = s.txb8 := rfl
@[simp] theorem setFsz2_mode (b : Bool) : (setFsz2 b s).mode = s.mode := rfl
@[simp] theorem setFsz2_par (b : Bool) : (setFsz2 b s).par = s.par := rfl
@[simp] theorem setFsz2_stop (b : Bool) : (setFsz2 b s).stop = s.stop := rfl
@[simp] theorem setFsz2_fsz10 (b : Bool) : (setFsz2 b s).fsz10 = s.fsz10 := rfl
@[simp] theorem setFsz2_baudh (b : Bool) : (setFsz2 b s).baudh = s.baudh := rfl
@[simp] theorem setFsz2_baudl (b : Bool) : (setFsz2 b s).baudl = s.baudl := rfl
@[simp] theorem setFsz2_divActive (b : Bool) : (setFsz2 b s).divActive = s.divActive := rfl
@[simp] theorem setFsz2_txbuf (b : Bool) : (setFsz2 b s).txbuf = s.txbuf := rfl
@[simp] theorem setFsz2_tsr (b : Bool) : (setFsz2 b s).tsr = s.tsr := rfl
@[simp] theorem setFsz2_rxfifo (b : Bool) : (setFsz2 b s).rxfifo = s.rxfifo := rfl
@[simp] theorem setFsz2_ci (b : Bool) : (setFsz2 b s).ci = s.ci := rfl
@[simp] theorem setFsz2_seq (b : Bool) : (setFsz2 b s).seq = s.seq := rfl
@[simp] theorem setFsz2_res (b : Bool) : (setFsz2 b s).res = s.res := rfl
@[simp] theorem setFsz2_fcode (b : Bool) : (setFsz2 b s).fcode = s.fcode := rfl
@[simp] theorem setFsz2_fsub (b : Bool) : (setFsz2 b s).fsub = s.fsub := rfl
@[simp] theorem setFsz2_fcmd (b : Bool) : (setFsz2 b s).fcmd = s.fcmd := rfl
@[simp] theorem setFsz2_mem (b : Bool) : (setFsz2 b s).mem = s.mem := rfl
@[simp] theorem setFsz2_txwire (b : Bool) : (setFsz2 b s).txwire = s.txwire := rfl
@[simp] theorem setFsz2_lbptr (b : Bool) : (setFsz2 b s).lbptr = s.lbptr := rfl
@[simp] theorem setFsz2_pending (b : Bool) : (setFsz2 b s).pending = s.pending := rfl
@[simp] theorem setFsz2_lineChar (b : Bool) : (setFsz2 b s).lineChar = s.lineChar := rfl
@[simp] theorem setFsz2_agenda (b : Bool) : (setFsz2 b s).agenda = s.agenda := rfl
@[simp] theorem setFsz2_draws (b : Bool) : (setFsz2 b s).draws = s.draws := rfl

@[simp] theorem setFsz10_params (c : BitVec 2) : (setFsz10 c s).params = s.params := rfl
@[simp] theorem setFsz10_program (c : BitVec 2) : (setFsz10 c s).program = s.program := rfl
@[simp] theorem setFsz10_modef (c : BitVec 2) : (setFsz10 c s).modef = s.modef := rfl
@[simp] theorem setFsz10_u2xf (c : BitVec 2) : (setFsz10 c s).u2xf = s.u2xf := rfl
@[simp] theorem setFsz10_ext (c : BitVec 2) : (setFsz10 c s).ext = s.ext := rfl
@[simp] theorem setFsz10_configured (c : BitVec 2) : (setFsz10 c s).configured = s.configured := rfl
@[simp] theorem setFsz10_divSet (c : BitVec 2) : (setFsz10 c s).divSet = s.divSet := rfl
@[simp] theorem setFsz10_txc (c : BitVec 2) : (setFsz10 c s).txc = s.txc := rfl
@[simp] theorem setFsz10_dor (c : BitVec 2) : (setFsz10 c s).dor = s.dor := rfl
@[simp] theorem setFsz10_u2x (c : BitVec 2) : (setFsz10 c s).u2x = s.u2x := rfl
@[simp] theorem setFsz10_rxen (c : BitVec 2) : (setFsz10 c s).rxen = s.rxen := rfl
@[simp] theorem setFsz10_txen (c : BitVec 2) : (setFsz10 c s).txen = s.txen := rfl
@[simp] theorem setFsz10_fsz2 (c : BitVec 2) : (setFsz10 c s).fsz2 = s.fsz2 := rfl
@[simp] theorem setFsz10_txb8 (c : BitVec 2) : (setFsz10 c s).txb8 = s.txb8 := rfl
@[simp] theorem setFsz10_mode (c : BitVec 2) : (setFsz10 c s).mode = s.mode := rfl
@[simp] theorem setFsz10_par (c : BitVec 2) : (setFsz10 c s).par = s.par := rfl
@[simp] theorem setFsz10_stop (c : BitVec 2) : (setFsz10 c s).stop = s.stop := rfl
@[simp] theorem setFsz10_fsz10 (c : BitVec 2) : (setFsz10 c s).fsz10 = c := rfl
@[simp] theorem setFsz10_baudh (c : BitVec 2) : (setFsz10 c s).baudh = s.baudh := rfl
@[simp] theorem setFsz10_baudl (c : BitVec 2) : (setFsz10 c s).baudl = s.baudl := rfl
@[simp] theorem setFsz10_divActive (c : BitVec 2) : (setFsz10 c s).divActive = s.divActive := rfl
@[simp] theorem setFsz10_txbuf (c : BitVec 2) : (setFsz10 c s).txbuf = s.txbuf := rfl
@[simp] theorem setFsz10_tsr (c : BitVec 2) : (setFsz10 c s).tsr = s.tsr := rfl
@[simp] theorem setFsz10_rxfifo (c : BitVec 2) : (setFsz10 c s).rxfifo = s.rxfifo := rfl
@[simp] theorem setFsz10_ci (c : BitVec 2) : (setFsz10 c s).ci = s.ci := rfl
@[simp] theorem setFsz10_seq (c : BitVec 2) : (setFsz10 c s).seq = s.seq := rfl
@[simp] theorem setFsz10_res (c : BitVec 2) : (setFsz10 c s).res = s.res := rfl
@[simp] theorem setFsz10_fcode (c : BitVec 2) : (setFsz10 c s).fcode = s.fcode := rfl
@[simp] theorem setFsz10_fsub (c : BitVec 2) : (setFsz10 c s).fsub = s.fsub := rfl
@[simp] theorem setFsz10_fcmd (c : BitVec 2) : (setFsz10 c s).fcmd = s.fcmd := rfl
@[simp] theorem setFsz10_mem (c : BitVec 2) : (setFsz10 c s).mem = s.mem := rfl
@[simp] theorem setFsz10_txwire (c : BitVec 2) : (setFsz10 c s).txwire = s.txwire := rfl
@[simp] theorem setFsz10_lbptr (c : BitVec 2) : (setFsz10 c s).lbptr = s.lbptr := rfl
@[simp] theorem setFsz10_pending (c : BitVec 2) : (setFsz10 c s).pending = s.pending := rfl
@[simp] theorem setFsz10_lineChar (c : BitVec 2) : (setFsz10 c s).lineChar = s.lineChar := rfl
@[simp] theorem setFsz10_agenda (c : BitVec 2) : (setFsz10 c s).agenda = s.agenda := rfl
@[simp] theorem setFsz10_draws (c : BitVec 2) : (setFsz10 c s).draws = s.draws := rfl

@[simp] theorem setMode_params (b : Bool) : (setMode b s).params = s.params := rfl
@[simp] theorem setMode_program (b : Bool) : (setMode b s).program = s.program := rfl
@[simp] theorem setMode_modef (b : Bool) : (setMode b s).modef = s.modef := rfl
@[simp] theorem setMode_u2xf (b : Bool) : (setMode b s).u2xf = s.u2xf := rfl
@[simp] theorem setMode_ext (b : Bool) : (setMode b s).ext = s.ext := rfl
@[simp] theorem setMode_configured (b : Bool) : (setMode b s).configured = s.configured := rfl
@[simp] theorem setMode_divSet (b : Bool) : (setMode b s).divSet = s.divSet := rfl
@[simp] theorem setMode_txc (b : Bool) : (setMode b s).txc = s.txc := rfl
@[simp] theorem setMode_dor (b : Bool) : (setMode b s).dor = s.dor := rfl
@[simp] theorem setMode_u2x (b : Bool) : (setMode b s).u2x = s.u2x := rfl
@[simp] theorem setMode_rxen (b : Bool) : (setMode b s).rxen = s.rxen := rfl
@[simp] theorem setMode_txen (b : Bool) : (setMode b s).txen = s.txen := rfl
@[simp] theorem setMode_fsz2 (b : Bool) : (setMode b s).fsz2 = s.fsz2 := rfl
@[simp] theorem setMode_txb8 (b : Bool) : (setMode b s).txb8 = s.txb8 := rfl
@[simp] theorem setMode_mode (b : Bool) : (setMode b s).mode = b := rfl
@[simp] theorem setMode_par (b : Bool) : (setMode b s).par = s.par := rfl
@[simp] theorem setMode_stop (b : Bool) : (setMode b s).stop = s.stop := rfl
@[simp] theorem setMode_fsz10 (b : Bool) : (setMode b s).fsz10 = s.fsz10 := rfl
@[simp] theorem setMode_baudh (b : Bool) : (setMode b s).baudh = s.baudh := rfl
@[simp] theorem setMode_baudl (b : Bool) : (setMode b s).baudl = s.baudl := rfl
@[simp] theorem setMode_divActive (b : Bool) : (setMode b s).divActive = s.divActive := rfl
@[simp] theorem setMode_txbuf (b : Bool) : (setMode b s).txbuf = s.txbuf := rfl
@[simp] theorem setMode_tsr (b : Bool) : (setMode b s).tsr = s.tsr := rfl
@[simp] theorem setMode_rxfifo (b : Bool) : (setMode b s).rxfifo = s.rxfifo := rfl
@[simp] theorem setMode_ci (b : Bool) : (setMode b s).ci = s.ci := rfl
@[simp] theorem setMode_seq (b : Bool) : (setMode b s).seq = s.seq := rfl
@[simp] theorem setMode_res (b : Bool) : (setMode b s).res = s.res := rfl
@[simp] theorem setMode_fcode (b : Bool) : (setMode b s).fcode = s.fcode := rfl
@[simp] theorem setMode_fsub (b : Bool) : (setMode b s).fsub = s.fsub := rfl
@[simp] theorem setMode_fcmd (b : Bool) : (setMode b s).fcmd = s.fcmd := rfl
@[simp] theorem setMode_mem (b : Bool) : (setMode b s).mem = s.mem := rfl
@[simp] theorem setMode_txwire (b : Bool) : (setMode b s).txwire = s.txwire := rfl
@[simp] theorem setMode_lbptr (b : Bool) : (setMode b s).lbptr = s.lbptr := rfl
@[simp] theorem setMode_pending (b : Bool) : (setMode b s).pending = s.pending := rfl
@[simp] theorem setMode_lineChar (b : Bool) : (setMode b s).lineChar = s.lineChar := rfl
@[simp] theorem setMode_agenda (b : Bool) : (setMode b s).agenda = s.agenda := rfl
@[simp] theorem setMode_draws (b : Bool) : (setMode b s).draws = s.draws := rfl

@[simp] theorem setU2x_params (b : Bool) : (setU2x b s).params = s.params := rfl
@[simp] theorem setU2x_program (b : Bool) : (setU2x b s).program = s.program := rfl
@[simp] theorem setU2x_modef (b : Bool) : (setU2x b s).modef = s.modef := rfl
@[simp] theorem setU2x_u2xf (b : Bool) : (setU2x b s).u2xf = s.u2xf := rfl
@[simp] theorem setU2x_ext (b : Bool) : (setU2x b s).ext = s.ext := rfl
@[simp] theorem setU2x_configured (b : Bool) : (setU2x b s).configured = s.configured := rfl
@[simp] theorem setU2x_divSet (b : Bool) : (setU2x b s).divSet = s.divSet := rfl
@[simp] theorem setU2x_txc (b : Bool) : (setU2x b s).txc = s.txc := rfl
@[simp] theorem setU2x_dor (b : Bool) : (setU2x b s).dor = s.dor := rfl
@[simp] theorem setU2x_u2x (b : Bool) : (setU2x b s).u2x = b := rfl
@[simp] theorem setU2x_rxen (b : Bool) : (setU2x b s).rxen = s.rxen := rfl
@[simp] theorem setU2x_txen (b : Bool) : (setU2x b s).txen = s.txen := rfl
@[simp] theorem setU2x_fsz2 (b : Bool) : (setU2x b s).fsz2 = s.fsz2 := rfl
@[simp] theorem setU2x_txb8 (b : Bool) : (setU2x b s).txb8 = s.txb8 := rfl
@[simp] theorem setU2x_mode (b : Bool) : (setU2x b s).mode = s.mode := rfl
@[simp] theorem setU2x_par (b : Bool) : (setU2x b s).par = s.par := rfl
@[simp] theorem setU2x_stop (b : Bool) : (setU2x b s).stop = s.stop := rfl
@[simp] theorem setU2x_fsz10 (b : Bool) : (setU2x b s).fsz10 = s.fsz10 := rfl
@[simp] theorem setU2x_baudh (b : Bool) : (setU2x b s).baudh = s.baudh := rfl
@[simp] theorem setU2x_baudl (b : Bool) : (setU2x b s).baudl = s.baudl := rfl
@[simp] theorem setU2x_divActive (b : Bool) : (setU2x b s).divActive = s.divActive := rfl
@[simp] theorem setU2x_txbuf (b : Bool) : (setU2x b s).txbuf = s.txbuf := rfl
@[simp] theorem setU2x_tsr (b : Bool) : (setU2x b s).tsr = s.tsr := rfl
@[simp] theorem setU2x_rxfifo (b : Bool) : (setU2x b s).rxfifo = s.rxfifo := rfl
@[simp] theorem setU2x_ci (b : Bool) : (setU2x b s).ci = s.ci := rfl
@[simp] theorem setU2x_seq (b : Bool) : (setU2x b s).seq = s.seq := rfl
@[simp] theorem setU2x_res (b : Bool) : (setU2x b s).res = s.res := rfl
@[simp] theorem setU2x_fcode (b : Bool) : (setU2x b s).fcode = s.fcode := rfl
@[simp] theorem setU2x_fsub (b : Bool) : (setU2x b s).fsub = s.fsub := rfl
@[simp] theorem setU2x_fcmd (b : Bool) : (setU2x b s).fcmd = s.fcmd := rfl
@[simp] theorem setU2x_mem (b : Bool) : (setU2x b s).mem = s.mem := rfl
@[simp] theorem setU2x_txwire (b : Bool) : (setU2x b s).txwire = s.txwire := rfl
@[simp] theorem setU2x_lbptr (b : Bool) : (setU2x b s).lbptr = s.lbptr := rfl
@[simp] theorem setU2x_pending (b : Bool) : (setU2x b s).pending = s.pending := rfl
@[simp] theorem setU2x_lineChar (b : Bool) : (setU2x b s).lineChar = s.lineChar := rfl
@[simp] theorem setU2x_agenda (b : Bool) : (setU2x b s).agenda = s.agenda := rfl
@[simp] theorem setU2x_draws (b : Bool) : (setU2x b s).draws = s.draws := rfl

@[simp] theorem setExt_params (b : Bool) : (setExt b s).params = s.params := rfl
@[simp] theorem setExt_program (b : Bool) : (setExt b s).program = s.program := rfl
@[simp] theorem setExt_modef (b : Bool) : (setExt b s).modef = s.modef := rfl
@[simp] theorem setExt_u2xf (b : Bool) : (setExt b s).u2xf = s.u2xf := rfl
@[simp] theorem setExt_ext (b : Bool) : (setExt b s).ext = b := rfl
@[simp] theorem setExt_configured (b : Bool) : (setExt b s).configured = s.configured := rfl
@[simp] theorem setExt_divSet (b : Bool) : (setExt b s).divSet = s.divSet := rfl
@[simp] theorem setExt_txc (b : Bool) : (setExt b s).txc = s.txc := rfl
@[simp] theorem setExt_dor (b : Bool) : (setExt b s).dor = s.dor := rfl
@[simp] theorem setExt_u2x (b : Bool) : (setExt b s).u2x = s.u2x := rfl
@[simp] theorem setExt_rxen (b : Bool) : (setExt b s).rxen = s.rxen := rfl
@[simp] theorem setExt_txen (b : Bool) : (setExt b s).txen = s.txen := rfl
@[simp] theorem setExt_fsz2 (b : Bool) : (setExt b s).fsz2 = s.fsz2 := rfl
@[simp] theorem setExt_txb8 (b : Bool) : (setExt b s).txb8 = s.txb8 := rfl
@[simp] theorem setExt_mode (b : Bool) : (setExt b s).mode = s.mode := rfl
@[simp] theorem setExt_par (b : Bool) : (setExt b s).par = s.par := rfl
@[simp] theorem setExt_stop (b : Bool) : (setExt b s).stop = s.stop := rfl
@[simp] theorem setExt_fsz10 (b : Bool) : (setExt b s).fsz10 = s.fsz10 := rfl
@[simp] theorem setExt_baudh (b : Bool) : (setExt b s).baudh = s.baudh := rfl
@[simp] theorem setExt_baudl (b : Bool) : (setExt b s).baudl = s.baudl := rfl
@[simp] theorem setExt_divActive (b : Bool) : (setExt b s).divActive = s.divActive := rfl
@[simp] theorem setExt_txbuf (b : Bool) : (setExt b s).txbuf = s.txbuf := rfl
@[simp] theorem setExt_tsr (b : Bool) : (setExt b s).tsr = s.tsr := rfl
@[simp] theorem setExt_rxfifo (b : Bool) : (setExt b s).rxfifo = s.rxfifo := rfl
@[simp] theorem setExt_ci (b : Bool) : (setExt b s).ci = s.ci := rfl
@[simp] theorem setExt_seq (b : Bool) : (setExt b s).seq = s.seq := rfl
@[simp] theorem setExt_res (b : Bool) : (setExt b s).res = s.res := rfl
@[simp] theorem setExt_fcode (b : Bool) : (setExt b s).fcode = s.fcode := rfl
@[simp] theorem setExt_fsub (b : Bool) : (setExt b s).fsub = s.fsub := rfl
@[simp] theorem setExt_fcmd (b : Bool) : (setExt b s).fcmd = s.fcmd := rfl
@[simp] theorem setExt_mem (b : Bool) : (setExt b s).mem = s.mem := rfl
@[simp] theorem setExt_txwire (b : Bool) : (setExt b s).txwire = s.txwire := rfl
@[simp] theorem setExt_lbptr (b : Bool) : (setExt b s).lbptr = s.lbptr := rfl
@[simp] theorem setExt_pending (b : Bool) : (setExt b s).pending = s.pending := rfl
@[simp] theorem setExt_lineChar (b : Bool) : (setExt b s).lineChar = s.lineChar := rfl
@[simp] theorem setExt_agenda (b : Bool) : (setExt b s).agenda = s.agenda := rfl
@[simp] theorem setExt_draws (b : Bool) : (setExt b s).draws = s.draws := rfl

@[simp] theorem setPar_params (p : BitVec 2) : (setPar p s).params = s.params := rfl
@[simp] theorem setPar_program (p : BitVec 2) : (setPar p s).program = s.program := rfl
@[simp] theorem setPar_modef (p : BitVec 2) : (setPar p s).modef = s.modef := rfl
@[simp] theorem setPar_u2xf (p : BitVec 2) : (setPar p s).u2xf = s.u2xf := rfl
@[simp] theorem setPar_ext (p : BitVec 2) : (setPar p s).ext = s.ext := rfl
@[simp] theorem setPar_configured (p : BitVec 2) : (setPar p s).configured = s.configured := rfl
@[simp] theorem setPar_divSet (p : BitVec 2) : (setPar p s).divSet = s.divSet := rfl
@[simp] theorem setPar_txc (p : BitVec 2) : (setPar p s).txc = s.txc := rfl
@[simp] theorem setPar_dor (p : BitVec 2) : (setPar p s).dor = s.dor := rfl
@[simp] theorem setPar_u2x (p : BitVec 2) : (setPar p s).u2x = s.u2x := rfl
@[simp] theorem setPar_rxen (p : BitVec 2) : (setPar p s).rxen = s.rxen := rfl
@[simp] theorem setPar_txen (p : BitVec 2) : (setPar p s).txen = s.txen := rfl
@[simp] theorem setPar_fsz2 (p : BitVec 2) : (setPar p s).fsz2 = s.fsz2 := rfl
@[simp] theorem setPar_txb8 (p : BitVec 2) : (setPar p s).txb8 = s.txb8 := rfl
@[simp] theorem setPar_mode (p : BitVec 2) : (setPar p s).mode = s.mode := rfl
@[simp] theorem setPar_par (p : BitVec 2) : (setPar p s).par = p := rfl
@[simp] theorem setPar_stop (p : BitVec 2) : (setPar p s).stop = s.stop := rfl
@[simp] theorem setPar_fsz10 (p : BitVec 2) : (setPar p s).fsz10 = s.fsz10 := rfl
@[simp] theorem setPar_baudh (p : BitVec 2) : (setPar p s).baudh = s.baudh := rfl
@[simp] theorem setPar_baudl (p : BitVec 2) : (setPar p s).baudl = s.baudl := rfl
@[simp] theorem setPar_divActive (p : BitVec 2) : (setPar p s).divActive = s.divActive := rfl
@[simp] theorem setPar_txbuf (p : BitVec 2) : (setPar p s).txbuf = s.txbuf := rfl
@[simp] theorem setPar_tsr (p : BitVec 2) : (setPar p s).tsr = s.tsr := rfl
@[simp] theorem setPar_rxfifo (p : BitVec 2) : (setPar p s).rxfifo = s.rxfifo := rfl
@[simp] theorem setPar_ci (p : BitVec 2) : (setPar p s).ci = s.ci := rfl
@[simp] theorem setPar_seq (p : BitVec 2) : (setPar p s).seq = s.seq := rfl
@[simp] theorem setPar_res (p : BitVec 2) : (setPar p s).res = s.res := rfl
@[simp] theorem setPar_fcode (p : BitVec 2) : (setPar p s).fcode = s.fcode := rfl
@[simp] theorem setPar_fsub (p : BitVec 2) : (setPar p s).fsub = s.fsub := rfl
@[simp] theorem setPar_fcmd (p : BitVec 2) : (setPar p s).fcmd = s.fcmd := rfl
@[simp] theorem setPar_mem (p : BitVec 2) : (setPar p s).mem = s.mem := rfl
@[simp] theorem setPar_txwire (p : BitVec 2) : (setPar p s).txwire = s.txwire := rfl
@[simp] theorem setPar_lbptr (p : BitVec 2) : (setPar p s).lbptr = s.lbptr := rfl
@[simp] theorem setPar_pending (p : BitVec 2) : (setPar p s).pending = s.pending := rfl
@[simp] theorem setPar_lineChar (p : BitVec 2) : (setPar p s).lineChar = s.lineChar := rfl
@[simp] theorem setPar_agenda (p : BitVec 2) : (setPar p s).agenda = s.agenda := rfl
@[simp] theorem setPar_draws (p : BitVec 2) : (setPar p s).draws = s.draws := rfl

@[simp] theorem setStop_params (b : Bool) : (setStop b s).params = s.params := rfl
@[simp] theorem setStop_program (b : Bool) : (setStop b s).program = s.program := rfl
@[simp] theorem setStop_modef (b : Bool) : (setStop b s).modef = s.modef := rfl
@[simp] theorem setStop_u2xf (b : Bool) : (setStop b s).u2xf = s.u2xf := rfl
@[simp] theorem setStop_ext (b : Bool) : (setStop b s).ext = s.ext := rfl
@[simp] theorem setStop_configured (b : Bool) : (setStop b s).configured = s.configured := rfl
@[simp] theorem setStop_divSet (b : Bool) : (setStop b s).divSet = s.divSet := rfl
@[simp] theorem setStop_txc (b : Bool) : (setStop b s).txc = s.txc := rfl
@[simp] theorem setStop_dor (b : Bool) : (setStop b s).dor = s.dor := rfl
@[simp] theorem setStop_u2x (b : Bool) : (setStop b s).u2x = s.u2x := rfl
@[simp] theorem setStop_rxen (b : Bool) : (setStop b s).rxen = s.rxen := rfl
@[simp] theorem setStop_txen (b : Bool) : (setStop b s).txen = s.txen := rfl
@[simp] theorem setStop_fsz2 (b : Bool) : (setStop b s).fsz2 = s.fsz2 := rfl
@[simp] theorem setStop_txb8 (b : Bool) : (setStop b s).txb8 = s.txb8 := rfl
@[simp] theorem setStop_mode (b : Bool) : (setStop b s).mode = s.mode := rfl
@[simp] theorem setStop_par (b : Bool) : (setStop b s).par = s.par := rfl
@[simp] theorem setStop_stop (b : Bool) : (setStop b s).stop = b := rfl
@[simp] theorem setStop_fsz10 (b : Bool) : (setStop b s).fsz10 = s.fsz10 := rfl
@[simp] theorem setStop_baudh (b : Bool) : (setStop b s).baudh = s.baudh := rfl
@[simp] theorem setStop_baudl (b : Bool) : (setStop b s).baudl = s.baudl := rfl
@[simp] theorem setStop_divActive (b : Bool) : (setStop b s).divActive = s.divActive := rfl
@[simp] theorem setStop_txbuf (b : Bool) : (setStop b s).txbuf = s.txbuf := rfl
@[simp] theorem setStop_tsr (b : Bool) : (setStop b s).tsr = s.tsr := rfl
@[simp] theorem setStop_rxfifo (b : Bool) : (setStop b s).rxfifo = s.rxfifo := rfl
@[simp] theorem setStop_ci (b : Bool) : (setStop b s).ci = s.ci := rfl
@[simp] theorem setStop_seq (b : Bool) : (setStop b s).seq = s.seq := rfl
@[simp] theorem setStop_res (b : Bool) : (setStop b s).res = s.res := rfl
@[simp] theorem setStop_fcode (b : Bool) : (setStop b s).fcode = s.fcode := rfl
@[simp] theorem setStop_fsub (b : Bool) : (setStop b s).fsub = s.fsub := rfl
@[simp] theorem setStop_fcmd (b : Bool) : (setStop b s).fcmd = s.fcmd := rfl
@[simp] theorem setStop_mem (b : Bool) : (setStop b s).mem = s.mem := rfl
@[simp] theorem setStop_txwire (b : Bool) : (setStop b s).txwire = s.txwire := rfl
@[simp] theorem setStop_lbptr (b : Bool) : (setStop b s).lbptr = s.lbptr := rfl
@[simp] theorem setStop_pending (b : Bool) : (setStop b s).pending = s.pending := rfl
@[simp] theorem setStop_lineChar (b : Bool) : (setStop b s).lineChar = s.lineChar := rfl
@[simp] theorem setStop_agenda (b : Bool) : (setStop b s).agenda = s.agenda := rfl
@[simp] theorem setStop_draws (b : Bool) : (setStop b s).draws = s.draws := rfl

@[simp] theorem writeData_params (b : Byte) : (writeData b s).params = s.params := rfl
@[simp] theorem writeData_program (b : Byte) : (writeData b s).program = s.program := rfl
@[simp] theorem writeData_modef (b : Byte) : (writeData b s).modef = s.modef := rfl
@[simp] theorem writeData_u2xf (b : Byte) : (writeData b s).u2xf = s.u2xf := rfl
@[simp] theorem writeData_ext (b : Byte) : (writeData b s).ext = s.ext := rfl
@[simp] theorem writeData_configured (b : Byte) : (writeData b s).configured = s.configured := rfl
@[simp] theorem writeData_divSet (b : Byte) : (writeData b s).divSet = s.divSet := rfl
@[simp] theorem writeData_txc (b : Byte) : (writeData b s).txc = s.txc := rfl
@[simp] theorem writeData_dor (b : Byte) : (writeData b s).dor = s.dor := rfl
@[simp] theorem writeData_u2x (b : Byte) : (writeData b s).u2x = s.u2x := rfl
@[simp] theorem writeData_rxen (b : Byte) : (writeData b s).rxen = s.rxen := rfl
@[simp] theorem writeData_txen (b : Byte) : (writeData b s).txen = s.txen := rfl
@[simp] theorem writeData_fsz2 (b : Byte) : (writeData b s).fsz2 = s.fsz2 := rfl
@[simp] theorem writeData_txb8 (b : Byte) : (writeData b s).txb8 = s.txb8 := rfl
@[simp] theorem writeData_mode (b : Byte) : (writeData b s).mode = s.mode := rfl
@[simp] theorem writeData_par (b : Byte) : (writeData b s).par = s.par := rfl
@[simp] theorem writeData_stop (b : Byte) : (writeData b s).stop = s.stop := rfl
@[simp] theorem writeData_fsz10 (b : Byte) : (writeData b s).fsz10 = s.fsz10 := rfl
@[simp] theorem writeData_baudh (b : Byte) : (writeData b s).baudh = s.baudh := rfl
@[simp] theorem writeData_baudl (b : Byte) : (writeData b s).baudl = s.baudl := rfl
@[simp] theorem writeData_divActive (b : Byte) : (writeData b s).divActive = s.divActive := rfl
@[simp] theorem writeData_txbuf (b : Byte) : (writeData b s).txbuf = some (BitVec.ofBool s.txb8 ++ b) := rfl
@[simp] theorem writeData_tsr (b : Byte) : (writeData b s).tsr = s.tsr := rfl
@[simp] theorem writeData_rxfifo (b : Byte) : (writeData b s).rxfifo = s.rxfifo := rfl
@[simp] theorem writeData_ci (b : Byte) : (writeData b s).ci = s.ci := rfl
@[simp] theorem writeData_seq (b : Byte) : (writeData b s).seq = s.seq := rfl
@[simp] theorem writeData_res (b : Byte) : (writeData b s).res = s.res := rfl
@[simp] theorem writeData_fcode (b : Byte) : (writeData b s).fcode = s.fcode := rfl
@[simp] theorem writeData_fsub (b : Byte) : (writeData b s).fsub = s.fsub := rfl
@[simp] theorem writeData_fcmd (b : Byte) : (writeData b s).fcmd = s.fcmd := rfl
@[simp] theorem writeData_mem (b : Byte) : (writeData b s).mem = s.mem := rfl
@[simp] theorem writeData_txwire (b : Byte) : (writeData b s).txwire = s.txwire := rfl
@[simp] theorem writeData_lbptr (b : Byte) : (writeData b s).lbptr = s.lbptr := rfl
@[simp] theorem writeData_pending (b : Byte) : (writeData b s).pending = s.pending := rfl
@[simp] theorem writeData_lineChar (b : Byte) : (writeData b s).lineChar = s.lineChar := rfl
@[simp] theorem writeData_agenda (b : Byte) : (writeData b s).agenda = s.agenda := rfl
@[simp] theorem writeData_draws (b : Byte) : (writeData b s).draws = s.draws := rfl

@[simp] theorem writeBaudh_params (b : Byte) : (writeBaudh b s).params = s.params := rfl
@[simp] theorem writeBaudh_program (b : Byte) : (writeBaudh b s).program = s.program := rfl
@[simp] theorem writeBaudh_modef (b : Byte) : (writeBaudh b s).modef = s.modef := rfl
@[simp] theorem writeBaudh_u2xf (b : Byte) : (writeBaudh b s).u2xf = s.u2xf := rfl
@[simp] theorem writeBaudh_ext (b : Byte) : (writeBaudh b s).ext = s.ext := rfl
@[simp] theorem writeBaudh_configured (b : Byte) : (writeBaudh b s).configured = s.configured := rfl
@[simp] theorem writeBaudh_divSet (b : Byte) : (writeBaudh b s).divSet = s.divSet := rfl
@[simp] theorem writeBaudh_txc (b : Byte) : (writeBaudh b s).txc = s.txc := rfl
@[simp] theorem writeBaudh_dor (b : Byte) : (writeBaudh b s).dor = s.dor := rfl
@[simp] theorem writeBaudh_u2x (b : Byte) : (writeBaudh b s).u2x = s.u2x := rfl
@[simp] theorem writeBaudh_rxen (b : Byte) : (writeBaudh b s).rxen = s.rxen := rfl
@[simp] theorem writeBaudh_txen (b : Byte) : (writeBaudh b s).txen = s.txen := rfl
@[simp] theorem writeBaudh_fsz2 (b : Byte) : (writeBaudh b s).fsz2 = s.fsz2 := rfl
@[simp] theorem writeBaudh_txb8 (b : Byte) : (writeBaudh b s).txb8 = s.txb8 := rfl
@[simp] theorem writeBaudh_mode (b : Byte) : (writeBaudh b s).mode = s.mode := rfl
@[simp] theorem writeBaudh_par (b : Byte) : (writeBaudh b s).par = s.par := rfl
@[simp] theorem writeBaudh_stop (b : Byte) : (writeBaudh b s).stop = s.stop := rfl
@[simp] theorem writeBaudh_fsz10 (b : Byte) : (writeBaudh b s).fsz10 = s.fsz10 := rfl
@[simp] theorem writeBaudh_baudh (b : Byte) : (writeBaudh b s).baudh = b := rfl
@[simp] theorem writeBaudh_baudl (b : Byte) : (writeBaudh b s).baudl = s.baudl := rfl
@[simp] theorem writeBaudh_divActive (b : Byte) : (writeBaudh b s).divActive = s.divActive := rfl
@[simp] theorem writeBaudh_txbuf (b : Byte) : (writeBaudh b s).txbuf = s.txbuf := rfl
@[simp] theorem writeBaudh_tsr (b : Byte) : (writeBaudh b s).tsr = s.tsr := rfl
@[simp] theorem writeBaudh_rxfifo (b : Byte) : (writeBaudh b s).rxfifo = s.rxfifo := rfl
@[simp] theorem writeBaudh_ci (b : Byte) : (writeBaudh b s).ci = s.ci := rfl
@[simp] theorem writeBaudh_seq (b : Byte) : (writeBaudh b s).seq = s.seq := rfl
@[simp] theorem writeBaudh_res (b : Byte) : (writeBaudh b s).res = s.res := rfl
@[simp] theorem writeBaudh_fcode (b : Byte) : (writeBaudh b s).fcode = s.fcode := rfl
@[simp] theorem writeBaudh_fsub (b : Byte) : (writeBaudh b s).fsub = s.fsub := rfl
@[simp] theorem writeBaudh_fcmd (b : Byte) : (writeBaudh b s).fcmd = s.fcmd := rfl
@[simp] theorem writeBaudh_mem (b : Byte) : (writeBaudh b s).mem = s.mem := rfl
@[simp] theorem writeBaudh_txwire (b : Byte) : (writeBaudh b s).txwire = s.txwire := rfl
@[simp] theorem writeBaudh_lbptr (b : Byte) : (writeBaudh b s).lbptr = s.lbptr := rfl
@[simp] theorem writeBaudh_pending (b : Byte) : (writeBaudh b s).pending = s.pending := rfl
@[simp] theorem writeBaudh_lineChar (b : Byte) : (writeBaudh b s).lineChar = s.lineChar := rfl
@[simp] theorem writeBaudh_agenda (b : Byte) : (writeBaudh b s).agenda = s.agenda := rfl
@[simp] theorem writeBaudh_draws (b : Byte) : (writeBaudh b s).draws = s.draws := rfl

@[simp] theorem writeBaudl_params (b : Byte) : (writeBaudl b s).params = s.params := rfl
@[simp] theorem writeBaudl_program (b : Byte) : (writeBaudl b s).program = s.program := rfl
@[simp] theorem writeBaudl_modef (b : Byte) : (writeBaudl b s).modef = s.modef := rfl
@[simp] theorem writeBaudl_u2xf (b : Byte) : (writeBaudl b s).u2xf = s.u2xf := rfl
@[simp] theorem writeBaudl_ext (b : Byte) : (writeBaudl b s).ext = s.ext := rfl
@[simp] theorem writeBaudl_configured (b : Byte) : (writeBaudl b s).configured = s.configured := rfl
@[simp] theorem writeBaudl_divSet (b : Byte) : (writeBaudl b s).divSet = s.divSet := rfl
@[simp] theorem writeBaudl_txc (b : Byte) : (writeBaudl b s).txc = s.txc := rfl
@[simp] theorem writeBaudl_dor (b : Byte) : (writeBaudl b s).dor = s.dor := rfl
@[simp] theorem writeBaudl_u2x (b : Byte) : (writeBaudl b s).u2x = s.u2x := rfl
@[simp] theorem writeBaudl_rxen (b : Byte) : (writeBaudl b s).rxen = s.rxen := rfl
@[simp] theorem writeBaudl_txen (b : Byte) : (writeBaudl b s).txen = s.txen := rfl
@[simp] theorem writeBaudl_fsz2 (b : Byte) : (writeBaudl b s).fsz2 = s.fsz2 := rfl
@[simp] theorem writeBaudl_txb8 (b : Byte) : (writeBaudl b s).txb8 = s.txb8 := rfl
@[simp] theorem writeBaudl_mode (b : Byte) : (writeBaudl b s).mode = s.mode := rfl
@[simp] theorem writeBaudl_par (b : Byte) : (writeBaudl b s).par = s.par := rfl
@[simp] theorem writeBaudl_stop (b : Byte) : (writeBaudl b s).stop = s.stop := rfl
@[simp] theorem writeBaudl_fsz10 (b : Byte) : (writeBaudl b s).fsz10 = s.fsz10 := rfl
@[simp] theorem writeBaudl_baudh (b : Byte) : (writeBaudl b s).baudh = s.baudh := rfl
@[simp] theorem writeBaudl_baudl (b : Byte) : (writeBaudl b s).baudl = b := rfl
@[simp] theorem writeBaudl_divActive (b : Byte) : (writeBaudl b s).divActive = s.baudh ++ b := rfl
@[simp] theorem writeBaudl_txbuf (b : Byte) : (writeBaudl b s).txbuf = s.txbuf := rfl
@[simp] theorem writeBaudl_tsr (b : Byte) : (writeBaudl b s).tsr = s.tsr.map (corruptFrame s.draws) := rfl
@[simp] theorem writeBaudl_rxfifo (b : Byte) : (writeBaudl b s).rxfifo = s.rxfifo := rfl
@[simp] theorem writeBaudl_ci (b : Byte) : (writeBaudl b s).ci = s.ci := rfl
@[simp] theorem writeBaudl_seq (b : Byte) : (writeBaudl b s).seq = s.seq := rfl
@[simp] theorem writeBaudl_res (b : Byte) : (writeBaudl b s).res = s.res := rfl
@[simp] theorem writeBaudl_fcode (b : Byte) : (writeBaudl b s).fcode = s.fcode := rfl
@[simp] theorem writeBaudl_fsub (b : Byte) : (writeBaudl b s).fsub = s.fsub := rfl
@[simp] theorem writeBaudl_fcmd (b : Byte) : (writeBaudl b s).fcmd = s.fcmd := rfl
@[simp] theorem writeBaudl_mem (b : Byte) : (writeBaudl b s).mem = s.mem := rfl
@[simp] theorem writeBaudl_txwire (b : Byte) : (writeBaudl b s).txwire = s.txwire := rfl
@[simp] theorem writeBaudl_lbptr (b : Byte) : (writeBaudl b s).lbptr = s.lbptr := rfl
@[simp] theorem writeBaudl_pending (b : Byte) : (writeBaudl b s).pending = s.pending := rfl
@[simp] theorem writeBaudl_lineChar (b : Byte) : (writeBaudl b s).lineChar = s.lineChar := rfl
@[simp] theorem writeBaudl_agenda (b : Byte) : (writeBaudl b s).agenda = s.agenda := rfl
@[simp] theorem writeBaudl_draws (b : Byte) : (writeBaudl b s).draws = if s.tsr.isSome then s.draws + 1 else s.draws := rfl

@[simp] theorem emit_params (f : Frame) : (emit f s).params = s.params := rfl
@[simp] theorem emit_program (f : Frame) : (emit f s).program = s.program := rfl
@[simp] theorem emit_modef (f : Frame) : (emit f s).modef = s.modef := rfl
@[simp] theorem emit_u2xf (f : Frame) : (emit f s).u2xf = s.u2xf := rfl
@[simp] theorem emit_ext (f : Frame) : (emit f s).ext = s.ext := rfl
@[simp] theorem emit_configured (f : Frame) : (emit f s).configured = s.configured := rfl
@[simp] theorem emit_divSet (f : Frame) : (emit f s).divSet = s.divSet := rfl
@[simp] theorem emit_txc (f : Frame) : (emit f s).txc = s.txc := rfl
@[simp] theorem emit_dor (f : Frame) : (emit f s).dor = s.dor := rfl
@[simp] theorem emit_u2x (f : Frame) : (emit f s).u2x = s.u2x := rfl
@[simp] theorem emit_rxen (f : Frame) : (emit f s).rxen = s.rxen := rfl
@[simp] theorem emit_txen (f : Frame) : (emit f s).txen = s.txen := rfl
@[simp] theorem emit_fsz2 (f : Frame) : (emit f s).fsz2 = s.fsz2 := rfl
@[simp] theorem emit_txb8 (f : Frame) : (emit f s).txb8 = s.txb8 := rfl
@[simp] theorem emit_mode (f : Frame) : (emit f s).mode = s.mode := rfl
@[simp] theorem emit_par (f : Frame) : (emit f s).par = s.par := rfl
@[simp] theorem emit_stop (f : Frame) : (emit f s).stop = s.stop := rfl
@[simp] theorem emit_fsz10 (f : Frame) : (emit f s).fsz10 = s.fsz10 := rfl
@[simp] theorem emit_baudh (f : Frame) : (emit f s).baudh = s.baudh := rfl
@[simp] theorem emit_baudl (f : Frame) : (emit f s).baudl = s.baudl := rfl
@[simp] theorem emit_divActive (f : Frame) : (emit f s).divActive = s.divActive := rfl
@[simp] theorem emit_txbuf (f : Frame) : (emit f s).txbuf = s.txbuf := rfl
@[simp] theorem emit_tsr (f : Frame) : (emit f s).tsr = s.tsr := rfl
@[simp] theorem emit_rxfifo (f : Frame) : (emit f s).rxfifo = s.rxfifo := rfl
@[simp] theorem emit_ci (f : Frame) : (emit f s).ci = s.ci := rfl
@[simp] theorem emit_seq (f : Frame) : (emit f s).seq = s.seq := rfl
@[simp] theorem emit_res (f : Frame) : (emit f s).res = s.res := rfl
@[simp] theorem emit_fcode (f : Frame) : (emit f s).fcode = s.fcode := rfl
@[simp] theorem emit_fsub (f : Frame) : (emit f s).fsub = s.fsub := rfl
@[simp] theorem emit_fcmd (f : Frame) : (emit f s).fcmd = s.fcmd := rfl
@[simp] theorem emit_mem (f : Frame) : (emit f s).mem = s.mem := rfl
@[simp] theorem emit_txwire (f : Frame) : (emit f s).txwire = s.txwire ++ [f] := rfl
@[simp] theorem emit_lbptr (f : Frame) : (emit f s).lbptr = s.lbptr := rfl
@[simp] theorem emit_pending (f : Frame) : (emit f s).pending = s.pending := rfl
@[simp] theorem emit_lineChar (f : Frame) : (emit f s).lineChar = s.lineChar := rfl
@[simp] theorem emit_agenda (f : Frame) : (emit f s).agenda = s.agenda := rfl
@[simp] theorem emit_draws (f : Frame) : (emit f s).draws = s.draws := rfl

@[simp] theorem drawn_params : (drawn s).params = s.params := rfl
@[simp] theorem drawn_program : (drawn s).program = s.program := rfl
@[simp] theorem drawn_modef : (drawn s).modef = s.modef := rfl
@[simp] theorem drawn_u2xf : (drawn s).u2xf = s.u2xf := rfl
@[simp] theorem drawn_ext : (drawn s).ext = s.ext := rfl
@[simp] theorem drawn_configured : (drawn s).configured = s.configured := rfl
@[simp] theorem drawn_divSet : (drawn s).divSet = s.divSet := rfl
@[simp] theorem drawn_txc : (drawn s).txc = s.txc := rfl
@[simp] theorem drawn_dor : (drawn s).dor = s.dor := rfl
@[simp] theorem drawn_u2x : (drawn s).u2x = s.u2x := rfl
@[simp] theorem drawn_rxen : (drawn s).rxen = s.rxen := rfl
@[simp] theorem drawn_txen : (drawn s).txen = s.txen := rfl
@[simp] theorem drawn_fsz2 : (drawn s).fsz2 = s.fsz2 := rfl
@[simp] theorem drawn_txb8 : (drawn s).txb8 = s.txb8 := rfl
@[simp] theorem drawn_mode : (drawn s).mode = s.mode := rfl
@[simp] theorem drawn_par : (drawn s).par = s.par := rfl
@[simp] theorem drawn_stop : (drawn s).stop = s.stop := rfl
@[simp] theorem drawn_fsz10 : (drawn s).fsz10 = s.fsz10 := rfl
@[simp] theorem drawn_baudh : (drawn s).baudh = s.baudh := rfl
@[simp] theorem drawn_baudl : (drawn s).baudl = s.baudl := rfl
@[simp] theorem drawn_divActive : (drawn s).divActive = s.divActive := rfl
@[simp] theorem drawn_txbuf : (drawn s).txbuf = s.txbuf := rfl
@[simp] theorem drawn_tsr : (drawn s).tsr = s.tsr := rfl
@[simp] theorem drawn_rxfifo : (drawn s).rxfifo = s.rxfifo := rfl
@[simp] theorem drawn_ci : (drawn s).ci = s.ci := rfl
@[simp] theorem drawn_seq : (drawn s).seq = s.seq := rfl
@[simp] theorem drawn_res : (drawn s).res = s.res := rfl
@[simp] theorem drawn_fcode : (drawn s).fcode = s.fcode := rfl
@[simp] theorem drawn_fsub : (drawn s).fsub = s.fsub := rfl
@[simp] theorem drawn_fcmd : (drawn s).fcmd = s.fcmd := rfl
@[simp] theorem drawn_mem : (drawn s).mem = s.mem := rfl
@[simp] theorem drawn_txwire : (drawn s).txwire = s.txwire := rfl
@[simp] theorem drawn_lbptr : (drawn s).lbptr = s.lbptr := rfl
@[simp] theorem drawn_pending : (drawn s).pending = s.pending := rfl
@[simp] theorem drawn_lineChar : (drawn s).lineChar = s.lineChar := rfl
@[simp] theorem drawn_agenda : (drawn s).agenda = s.agenda := rfl
@[simp] theorem drawn_draws : (drawn s).draws = s.draws + 1 := rfl

/-- Completing, entering a sequencer state or a fault leaves every computed flag as it was. -/
@[simp] theorem rxc_setSeq (q : Seq) : rxc (setSeq q s) = rxc s := rfl
@[simp] theorem rxc_complete : rxc (complete s) = rxc s := rfl
@[simp] theorem udre_setSeq (q : Seq) : udre (setSeq q s) = udre s := rfl
@[simp] theorem udre_complete : udre (complete s) = udre s := rfl
@[simp] theorem udre_writeData (b : Byte) : udre (writeData b s) = false := rfl
@[simp] theorem formatOf_setSeq (q : Seq) : formatOf (setSeq q s) = formatOf s := rfl
@[simp] theorem formatOf_complete : formatOf (complete s) = formatOf s := rfl
@[simp] theorem formatOf_raise (c : Cause) : formatOf (raise c s) = formatOf s := rfl
@[simp] theorem formatOf_emit (f : Frame) : formatOf (emit f s) = formatOf s := rfl

end Sys2Proof.Machine
end

