-- ==== Sys2Proof/Laws/Ops.lean ====
section
/-! SUPPORT. One lemma per shared operation that says everything it can do. -/

namespace Sys2Proof.Machine

variable {s t : State}

/-- With the parameters R8 admits every byte of the line buffer lies in host memory. -/
theorem lineAddr_lt (h : s.params.wf = true) {j : Nat} (hj : j ≤ 9) : lineAddr s j < hostBytes := by
  simp only [Params.wf, Bool.and_eq_true, decide_eq_true_eq] at h
  simp only [lineAddr, hostBytes]
  omega

/-- A line-buffer write inside host memory. -/
theorem storeLine_eq {j : Nat} (h : lineAddr s j < hostBytes) (v : Byte) (k : State → State) :
    storeLine j v s k = .next (k { s with mem := memWrite s.mem (lineAddr s j) v }) := if_pos h

/-- All a line-buffer write can do when it answers a next state. -/
theorem storeLine_next {j : Nat} {v : Byte} {k : State → State} (h : storeLine j v s k = .next t) :
    lineAddr s j < hostBytes ∧ t = k { s with mem := memWrite s.mem (lineAddr s j) v } := by
  unfold storeLine at h
  split at h
  · exact ⟨‹_›, by cases h; rfl⟩
  · cases h

/-- `send_char` as one update. -/
theorem sendChar_eq (v : Word16) (s : State) : sendChar v s =
    { s with txb8 := if s.ext then v.getLsbD 8 else s.txb8,
             txbuf := some (BitVec.ofBool (if s.ext then v.getLsbD 8 else s.txb8) ++ v.setWidth 8) } := by
  unfold sendChar
  cases h : s.ext <;> simp [writeData, setTxb8, h]

/-- `DATA` read with a character in the FIFO. -/
theorem regRead_data_cons {e : RxEntry} {more : List RxEntry} (h : s.rxfifo = e :: more) :
    regRead .data s = (e.data.setWidth 8, { s with rxfifo := more, dor := false }) := by
  simp [regRead, h]

/-- `CTRLB` read with a character in the FIFO. -/
theorem regRead_ctrlb_cons {e : RxEntry} {more : List RxEntry} (h : s.rxfifo = e :: more) :
    regRead .ctrlb s = (ctrlbByte s, s) := by
  simp [regRead, rxc, h]

/-- Bit 1 of `CTRLB` is RXB8. -/
theorem ctrlbByte_bit1 (s : State) : (ctrlbByte s).getLsbD 1 = rxb8 s := by
  unfold ctrlbByte byteOf
  cases rxb8 s <;> cases s.rxen <;> cases s.txen <;> cases s.fsz2 <;> cases s.txb8 <;> rfl

/-- A 9-bit character from its ninth bit and its low byte. -/
theorem char9_split (d : Char9) : (BitVec.ofBool (d.getLsbD 8) ++ d.setWidth 8 : BitVec (1 + 8)) = d := by
  revert d; decide

/-- `read_char` with a character in the FIFO: its nine bits with EXT = 1, its low byte otherwise. -/
theorem readChar_cons {e : RxEntry} {more : List RxEntry} (h : s.rxfifo = e :: more) :
    readChar s = (if s.ext then e.data else (e.data.setWidth 8).setWidth 9, { s with rxfifo := more, dor := false }) := by
  have hb : rxb8 s = e.data.getLsbD 8 := by simp [rxb8, h]
  unfold readChar
  by_cases hx : s.ext = true
  · rw [if_pos hx, if_pos hx]
    simp only [regRead_ctrlb_cons h, regRead_data_cons h, ctrlbByte_bit1, hb]
    exact Prod.ext (char9_split e.data) rfl
  · rw [if_neg hx, if_neg hx, regRead_data_cons h]

/-- The low byte of what `read_char` returns is the character's, whatever EXT is. -/
theorem readChar_low {e : RxEntry} {more : List RxEntry} (h : s.rxfifo = e :: more) :
    (readChar s).1.setWidth 8 = e.data.setWidth 8 := by
  rw [readChar_cons h]
  cases s.ext
  · simp
  · simp

/-- RXC is 1 exactly with a character in the FIFO. -/
theorem rxc_iff : rxc s = true ↔ ∃ e more, s.rxfifo = e :: more := by
  unfold rxc
  cases s.rxfifo <;> simp

/-- UDRE is 1 exactly with TXBUF empty. -/
theorem udre_iff : udre s = true ↔ s.txbuf = none := by
  unfold udre
  cases s.txbuf <;> simp

/-- Taking a decided event. -/
theorem takeEvent_cons {e : Event} {rest : List Event} (h : s.agenda = e :: rest) :
    takeEvent s = (e, { s with agenda := rest }) := by
  simp [takeEvent, h]

/-- Taking a free event. -/
theorem takeEvent_nil (h : s.agenda = []) : takeEvent s = (Config.freeEvent s.draws, { s with draws := s.draws + 1 }) := by
  simp [takeEvent, h, drawn]

/-- A step is its event, at the state with the event taken. -/
theorem step_eq (s : State) : step s = runEvent (nextEvent s) (afterEvent s) := rfl

/-- Taking an event changes the model's own fields only. -/
theorem afterEvent_eq (s : State) :
    afterEvent s = { s with agenda := (afterEvent s).agenda, draws := (afterEvent s).draws } := by
  unfold afterEvent takeEvent
  cases s.agenda <;> rfl

@[simp] theorem afterEvent_params (s : State) : (afterEvent s).params = s.params := by rw [afterEvent_eq]
@[simp] theorem afterEvent_program (s : State) : (afterEvent s).program = s.program := by rw [afterEvent_eq]
@[simp] theorem afterEvent_modef (s : State) : (afterEvent s).modef = s.modef := by rw [afterEvent_eq]
@[simp] theorem afterEvent_u2xf (s : State) : (afterEvent s).u2xf = s.u2xf := by rw [afterEvent_eq]
@[simp] theorem afterEvent_ext (s : State) : (afterEvent s).ext = s.ext := by rw [afterEvent_eq]
@[simp] theorem afterEvent_configured (s : State) : (afterEvent s).configured = s.configured := by rw [afterEvent_eq]
@[simp] theorem afterEvent_divSet (s : State) : (afterEvent s).divSet = s.divSet := by rw [afterEvent_eq]
@[simp] theorem afterEvent_txc (s : State) : (afterEvent s).txc = s.txc := by rw [afterEvent_eq]
@[simp] theorem afterEvent_dor (s : State) : (afterEvent s).dor = s.dor := by rw [afterEvent_eq]
@[simp] theorem afterEvent_u2x (s : State) : (afterEvent s).u2x = s.u2x := by rw [afterEvent_eq]
@[simp] theorem afterEvent_rxen (s : State) : (afterEvent s).rxen = s.rxen := by rw [afterEvent_eq]
@[simp] theorem afterEvent_txen (s : State) : (afterEvent s).txen = s.txen := by rw [afterEvent_eq]
@[simp] theorem afterEvent_fsz2 (s : State) : (afterEvent s).fsz2 = s.fsz2 := by rw [afterEvent_eq]
@[simp] theorem afterEvent_txb8 (s : State) : (afterEvent s).txb8 = s.txb8 := by rw [afterEvent_eq]
@[simp] theorem afterEvent_mode (s : State) : (afterEvent s).mode = s.mode := by rw [afterEvent_eq]
@[simp] theorem afterEvent_par (s : State) : (afterEvent s).par = s.par := by rw [afterEvent_eq]
@[simp] theorem afterEvent_stop (s : State) : (afterEvent s).stop = s.stop := by rw [afterEvent_eq]
@[simp] theorem afterEvent_fsz10 (s : State) : (afterEvent s).fsz10 = s.fsz10 := by rw [afterEvent_eq]
@[simp] theorem afterEvent_baudh (s : State) : (afterEvent s).baudh = s.baudh := by rw [afterEvent_eq]
@[simp] theorem afterEvent_baudl (s : State) : (afterEvent s).baudl = s.baudl := by rw [afterEvent_eq]
@[simp] theorem afterEvent_divActive (s : State) : (afterEvent s).divActive = s.divActive := by rw [afterEvent_eq]
@[simp] theorem afterEvent_txbuf (s : State) : (afterEvent s).txbuf = s.txbuf := by rw [afterEvent_eq]
@[simp] theorem afterEvent_tsr (s : State) : (afterEvent s).tsr = s.tsr := by rw [afterEvent_eq]
@[simp] theorem afterEvent_rxfifo (s : State) : (afterEvent s).rxfifo = s.rxfifo := by rw [afterEvent_eq]
@[simp] theorem afterEvent_ci (s : State) : (afterEvent s).ci = s.ci := by rw [afterEvent_eq]
@[simp] theorem afterEvent_seq (s : State) : (afterEvent s).seq = s.seq := by rw [afterEvent_eq]
@[simp] theorem afterEvent_res (s : State) : (afterEvent s).res = s.res := by rw [afterEvent_eq]
@[simp] theorem afterEvent_fcode (s : State) : (afterEvent s).fcode = s.fcode := by rw [afterEvent_eq]
@[simp] theorem afterEvent_fsub (s : State) : (afterEvent s).fsub = s.fsub := by rw [afterEvent_eq]
@[simp] theorem afterEvent_fcmd (s : State) : (afterEvent s).fcmd = s.fcmd := by rw [afterEvent_eq]
@[simp] theorem afterEvent_mem (s : State) : (afterEvent s).mem = s.mem := by rw [afterEvent_eq]
@[simp] theorem afterEvent_txwire (s : State) : (afterEvent s).txwire = s.txwire := by rw [afterEvent_eq]
@[simp] theorem afterEvent_lbptr (s : State) : (afterEvent s).lbptr = s.lbptr := by rw [afterEvent_eq]
@[simp] theorem afterEvent_pending (s : State) : (afterEvent s).pending = s.pending := by rw [afterEvent_eq]
@[simp] theorem afterEvent_lineChar (s : State) : (afterEvent s).lineChar = s.lineChar := by rw [afterEvent_eq]

/-- Computed flags and the format are those of the state before the event was taken. -/
@[simp] theorem formatOf_afterEvent (s : State) : formatOf (afterEvent s) = formatOf s := by rw [afterEvent_eq]; rfl
@[simp] theorem udre_afterEvent (s : State) : udre (afterEvent s) = udre s := by rw [afterEvent_eq]; rfl
@[simp] theorem rxc_afterEvent (s : State) : rxc (afterEvent s) = rxc s := by rw [afterEvent_eq]; rfl
@[simp] theorem lineAddr_afterEvent (s : State) (j : Nat) : lineAddr (afterEvent s) j = lineAddr s j := by
  rw [afterEvent_eq]; rfl
theorem fetches_afterEvent (s : State) (i : Instr) : Fetches (afterEvent s) i ↔ Fetches s i := by
  rw [afterEvent_eq]; rfl

/-- A fault entry in the terms of claims. -/
theorem raise_eq (c : Cause) (s : State) : raise c s = recorded (causeCode c) (causeSub c) s := rfl

/-- A step with a decided event. -/
theorem step_cons {e : Event} {rest : List Event} (h : s.agenda = e :: rest) :
    step s = runEvent e { s with agenda := rest } := by
  simp [step, takeEvent_cons h]

/-- A run whose first step has a next state. -/
theorem run_succ {k : Nat} (h : step s = .next t) :
    Host.Core.run Sys2Proof.core (k + 1) s = Host.Core.run Sys2Proof.core k t := by
  have hs : Sys2Proof.core.step s = .next t := h
  simp only [Host.Core.run, hs]

/-- All LOAD can do. -/
theorem txLoad_next (h : txLoad s = .next t) :
    t = s ∨ ∃ v f, s.txen = true ∧ s.txbuf = some v ∧ s.tsr = none ∧ formatOf s = some f ∧
      t = { s with tsr := some { bits := encodeFrame f v, corrupt := false }, txbuf := none } := by
  unfold txLoad at h
  split at h
  · rename_i v h1 h2 h3
    split at h
    · rename_i f hf
      cases h
      exact Or.inr ⟨v, f, h1, h2, h3, hf, rfl⟩
    · cases h
  · cases h; exact Or.inl rfl

/-- All SHIFT can do. -/
theorem txShift_next (h : txShift s = .next t) :
    (s.tsr = none ∧ t = s) ∨ ∃ f, s.tsr = some f ∧
      t = { s with txwire := s.txwire ++ [f], tsr := none, txc := s.txc || udre s } := by
  unfold txShift at h
  split at h
  · rename_i f hf
    cases h
    exact Or.inr ⟨f, hf, rfl⟩
  · rename_i hn
    cases h
    exact Or.inl ⟨hn, rfl⟩

/-- All RECEIVE can do. -/
theorem receive_next {free : BitVec 11} {src : Option Frame} (h : receive free src s = .next t) :
    (s.rxen = false ∧ t = s) ∨
    (∃ f, s.rxen = true ∧ formatOf s = some f ∧ s.rxfifo.length < rxFifoDepth ∧
      t = { s with rxfifo := s.rxfifo ++ [decodeFrame f (wireBits free (sampledLen f) src)] }) ∨
    (s.rxen = true ∧ rxFifoDepth ≤ s.rxfifo.length ∧ t = { s with dor := true }) := by
  unfold receive at h
  split at h
  · rename_i hr
    split at h
    · rename_i f hf
      split at h
      · cases h; exact Or.inr (Or.inl ⟨f, hr, hf, ‹_›, rfl⟩)
      · cases h; exact Or.inr (Or.inr ⟨hr, by omega, rfl⟩)
    · cases h
  · rename_i hr
    cases h
    exact Or.inl ⟨by simpa using hr, rfl⟩

/-- All an offer can do: nothing in loopback with TXWIRE used up; otherwise RECEIVE, with LBPTR advanced in loopback. -/
theorem offerFrame_next {free : BitVec 11} (h : offerFrame free s = .next t) :
    (s.params.loopback = true ∧ s.txwire[s.lbptr]? = none ∧ t = s) ∨
    (∃ f, s.params.loopback = true ∧ s.txwire[s.lbptr]? = some f ∧
      receive free (some f) { s with lbptr := s.lbptr + 1 } = .next t) ∨
    (s.params.loopback = false ∧ receive free none s = .next t) := by
  unfold offerFrame at h
  split at h
  · rename_i hl
    split at h
    · rename_i f hf; exact Or.inr (Or.inl ⟨f, hl, hf, h⟩)
    · rename_i hn; cases h; exact Or.inl ⟨hl, hn, rfl⟩
  · rename_i hl
    exact Or.inr (Or.inr ⟨by simpa using hl, h⟩)

/-- What a format can be: 5 to 9 data bits, one or two stop bits. -/
theorem formatOf_bounds {f : Format} (h : formatOf s = some f) :
    5 ≤ f.n ∧ f.n ≤ 9 ∧ f.stops = s.stop.toNat + 1 ∧ dataBits (fsz s) = some f.n ∧ parityOf s.par = some f.parity := by
  unfold formatOf at h
  split at h
  · rename_i n p hn hp
    cases h
    refine ⟨?_, ?_, rfl, hn, hp⟩ <;>
    · unfold dataBits at hn
      split_ifs at hn <;> simp_all <;> omega
  · cases h

/-- A launch leaves the format 8N1. -/
theorem formatOf_launch (p : Params) (prog : List CmdWord) (m : Memory) :
    formatOf (State.launch p prog m) = some { n := 8, parity := .none, stops := 1 } := by
  have h1 : dataBits (BitVec.ofBool false ++ 3#2) = some 8 := by decide
  have h2 : parityOf 0#2 = some .none := by decide
  unfold formatOf
  rw [show fsz (State.launch p prog m) = BitVec.ofBool false ++ 3#2 from rfl, h1,
    show (State.launch p prog m).par = 0#2 from rfl, h2]
  rfl

/-! ## Accesses of a command under way -/

@[simp] theorem access_params (a : Access) (s : State) : (access a s).params = s.params := by cases a <;> rfl
@[simp] theorem access_program (a : Access) (s : State) : (access a s).program = s.program := by cases a <;> rfl
@[simp] theorem access_modef (a : Access) (s : State) : (access a s).modef = s.modef := by cases a <;> rfl
@[simp] theorem access_u2xf (a : Access) (s : State) : (access a s).u2xf = s.u2xf := by cases a <;> rfl
@[simp] theorem access_configured (a : Access) (s : State) : (access a s).configured = s.configured := by cases a <;> rfl
@[simp] theorem access_divSet (a : Access) (s : State) : (access a s).divSet = s.divSet := by cases a <;> rfl
@[simp] theorem access_txc (a : Access) (s : State) : (access a s).txc = s.txc := by cases a <;> rfl
@[simp] theorem access_txb8 (a : Access) (s : State) : (access a s).txb8 = s.txb8 := by cases a <;> rfl
@[simp] theorem access_txbuf (a : Access) (s : State) : (access a s).txbuf = s.txbuf := by cases a <;> rfl
@[simp] theorem access_ci (a : Access) (s : State) : (access a s).ci = s.ci := by cases a <;> rfl
@[simp] theorem access_seq (a : Access) (s : State) : (access a s).seq = s.seq := by cases a <;> rfl
@[simp] theorem access_res (a : Access) (s : State) : (access a s).res = s.res := by cases a <;> rfl
@[simp] theorem access_fcode (a : Access) (s : State) : (access a s).fcode = s.fcode := by cases a <;> rfl
@[simp] theorem access_fsub (a : Access) (s : State) : (access a s).fsub = s.fsub := by cases a <;> rfl
@[simp] theorem access_fcmd (a : Access) (s : State) : (access a s).fcmd = s.fcmd := by cases a <;> rfl
@[simp] theorem access_mem (a : Access) (s : State) : (access a s).mem = s.mem := by cases a <;> rfl
@[simp] theorem access_txwire (a : Access) (s : State) : (access a s).txwire = s.txwire := by cases a <;> rfl
@[simp] theorem access_lbptr (a : Access) (s : State) : (access a s).lbptr = s.lbptr := by cases a <;> rfl
@[simp] theorem access_pending (a : Access) (s : State) : (access a s).pending = s.pending := by cases a <;> rfl
@[simp] theorem access_lineChar (a : Access) (s : State) : (access a s).lineChar = s.lineChar := by cases a <;> rfl
@[simp] theorem access_agenda (a : Access) (s : State) : (access a s).agenda = s.agenda := by cases a <;> rfl

/-- Only the access of EXT changes EXT. -/
theorem access_ext {a : Access} (h : ∀ b, a ≠ .ext b) (s : State) : (access a s).ext = s.ext := by
  cases a <;> first | rfl | exact absurd rfl (h _)

/-- Only the access of BAUDL can take a draw. -/
theorem access_draws {a : Access} (h : ∀ v, a ≠ .baudl v) (s : State) : (access a s).draws = s.draws := by
  cases a <;> first | rfl | exact absurd rfl (h _)

/-- A corrupt frame is as long as the frame it was. -/
@[simp] theorem corruptFrame_length (n : Nat) (f : Frame) : (corruptFrame n f).bits.length = f.bits.length := by
  simp [corruptFrame, drawBits]

@[simp] theorem corruptFrame_corrupt (n : Nat) (f : Frame) : (corruptFrame n f).corrupt = true := rfl

/-- All the next access can do. -/
theorem accessStep_next {fin : State → State} (h : accessStep fin s = .next t) :
    (s.pending = [] ∧ t = s) ∨
    (∃ a, s.pending = [a] ∧ t = fin (access a { s with pending := [] })) ∨
    (∃ a rest, s.pending = a :: rest ∧ rest ≠ [] ∧ t = access a { s with pending := rest }) := by
  unfold accessStep at h
  split at h
  · rename_i hp; cases h; exact Or.inl ⟨hp, rfl⟩
  · rename_i a hp; cases h; exact Or.inr (Or.inl ⟨a, hp, rfl⟩)
  · rename_i a rest hne hp
    cases h
    exact Or.inr (Or.inr ⟨a, rest, hp, hne, rfl⟩)

/-- The next access when others are left. -/
theorem accessStep_more {fin : State → State} {a b : Access} {rest : List Access} (h : s.pending = a :: b :: rest) :
    accessStep fin s = .next (access a { s with pending := b :: rest }) := by
  simp [accessStep, h]

/-- The last access, with the command's end. -/
theorem accessStep_last {fin : State → State} {a : Access} (h : s.pending = [a]) :
    accessStep fin s = .next (fin (access a { s with pending := [] })) := by
  simp [accessStep, h]

/-- All a step of INIT, SETBAUD or ENABLE can do at IDLE: the fault of its first failing check, its first access, or the next of
the accesses left. -/
theorem commandStep_next {cause : Option Cause} {latch fin : State → State} {as : List Access} (hq : s.seq = .idle)
    (h : commandStep cause latch as fin s = .next t) :
    (s.pending = [] ∧ ∃ c, cause = some c ∧ t = raise c s) ∨
    (s.pending = [] ∧ cause = none ∧ accessStep fin { latch s with pending := as } = .next t) ∨
    (s.pending ≠ [] ∧ accessStep fin s = .next t) := by
  unfold commandStep at h
  rw [hq] at h
  cases hp : s.pending with
  | nil =>
    rw [hp] at h
    cases cause with
    | some c => cases h; exact Or.inl ⟨rfl, c, rfl, rfl⟩
    | none => exact Or.inr (Or.inl ⟨rfl, rfl, h⟩)
  | cons a rest => rw [hp] at h; exact Or.inr (Or.inr ⟨by simp, h⟩)

/-- Such a command at IDLE with accesses left: the next of them. -/
theorem commandStep_left {cause : Option Cause} {latch fin : State → State} {as : List Access} (hq : s.seq = .idle)
    (hp : s.pending ≠ []) : commandStep cause latch as fin s = accessStep fin s := by
  obtain ⟨a, rest, h⟩ := List.exists_cons_of_ne_nil hp
  simp only [commandStep, hq, h]

/-- Such a command at IDLE with none left and its checks passed: its first access, after its latches. -/
theorem commandStep_first {latch fin : State → State} {as : List Access} (hq : s.seq = .idle) (hp : s.pending = []) :
    commandStep none latch as fin s = accessStep fin { latch s with pending := as } := by
  simp only [commandStep, hq, hp]

/-- Such a command at IDLE with none left and a check that fails: its fault. -/
theorem commandStep_fault {c : Cause} {latch fin : State → State} {as : List Access} (hq : s.seq = .idle)
    (hp : s.pending = []) : commandStep (some c) latch as fin s = .next (raise c s) := by
  simp only [commandStep, hq, hp]

/-- Away from IDLE such a command takes no step. -/
theorem commandStep_hold {cause : Option Cause} {latch fin : State → State} {as : List Access} (hq : s.seq ≠ .idle) :
    commandStep cause latch as fin s = .next s := by
  unfold commandStep
  split
  · contradiction
  · rfl

/-- A 3-bit code from its top bit and its two low bits. -/
theorem code3_split (c : BitVec 3) : (BitVec.ofBool (c.getLsbD 2) ++ c.extractLsb' 0 2 : BitVec (1 + 2)) = c := by
  revert c; decide

/-- Every code INIT writes selects a width. -/
theorem dataBits_fszCode {f : Nat} {c : BitVec 3} (h : fszCode f = some c) : dataBits c = some f := by
  unfold fszCode at h
  split_ifs at h <;> cases h <;> subst_vars <;> decide

/-- The format depends on the framing fields only. -/
theorem formatOf_congr {s t : State} (h1 : t.fsz2 = s.fsz2) (h2 : t.fsz10 = s.fsz10) (h3 : t.par = s.par)
    (h4 : t.stop = s.stop) : formatOf t = formatOf s := by
  unfold formatOf fsz
  rw [h1, h2, h3, h4]

/-- A format stands exactly when neither code is reserved. -/
theorem formatOf_ne_none {s : State} : formatOf s ≠ none ↔ dataBits (fsz s) ≠ none ∧ parityOf s.par ≠ none := by
  unfold formatOf
  cases dataBits (fsz s) <;> cases parityOf s.par <;> simp

/-- A parity code that passes INIT's checks and is written is even or odd (R82). -/
theorem initCause_par {f : Nat} {p : BitVec 2} {b : Nat} (hc : initCause f p b s = none) (hp : 0 < p.toNat ∧ 0 < b) :
    p = 2 ∨ p = 3 := by
  unfold initCause at hc
  rw [if_pos hp] at hc
  split_ifs at hc with _ _ h1 _
  have h0 := hp.1
  clear hc hp
  revert h1 h0
  revert p
  decide

/-- A 16-bit divisor from its high and low byte. -/
theorem divisor_split (d : BitVec 16) : (d.extractLsb' 8 8 ++ d.setWidth 8 : BitVec (8 + 8)) = d := by
  apply BitVec.eq_of_toNat_eq
  have hlow : (d.setWidth 8).toNat < 2 ^ 8 := (d.setWidth 8).isLt
  have hd := d.isLt
  change (d.extractLsb' 8 8 ++ d.setWidth 8 : BitVec (8 + 8)).toNat = d.toNat
  rw [BitVec.toNat_append, ← Nat.shiftLeft_add_eq_or_of_lt hlow, BitVec.extractLsb'_toNat, BitVec.toNat_setWidth,
    Nat.shiftLeft_eq, Nat.shiftRight_eq_div_pow]
  omega

end Sys2Proof.Machine
end

