-- ==== Sys2Proof/Laws/PerInstr.lean ====
section
/-! SUPPORT. A statement for all commands, one lemma per constructor: where a well-formed command's word holds its OP field and
its reserved field. -/

namespace Sys2Proof.Laws.OpField

/-- The lowest bit of a command's reserved field, which reaches up to bit 27; 28 for the one command without such a field
(spec/30_encoding.md R57 to R60). -/
def reservedFrom : Instr → Nat
  | .init _ _ _ _ _ => 12
  | .setbaud _ => 28
  | .enable => 0
  | .txbyte _ => 16
  | .txline _ => 16
  | .rxbyte => 0
  | .rxline => 0

/-- The word of a well-formed command holds the command's code in bits 31:28 and 0 in its reserved field. -/
def Statement (i : Instr) : Prop :=
  i.wellFormed = true → slice (encode i) 31 28 = opOf i ∧ slice (encode i) 27 (reservedFrom i) = 0

theorem init (mode speed : Bool) (fbits : Nat) (par : BitVec 2) (stopb : Nat) :
    Statement (.init mode speed fbits par stopb) := by
  intro h
  simp only [Instr.wellFormed, Bool.and_eq_true, decide_eq_true_eq] at h
  have hp := par.isLt
  have hm : mode.toNat ≤ 1 := mode.toNat_le
  have hs : speed.toNat ≤ 1 := speed.toNat_le
  simp only [slice, encode, opOf, reservedFrom, BitVec.toNat_ofNat]
  omega

theorem setbaud (bps : Nat) : Statement (.setbaud bps) := by
  intro h
  simp only [Instr.wellFormed, decide_eq_true_eq] at h
  simp only [slice, encode, opOf, reservedFrom, BitVec.toNat_ofNat]
  omega

theorem enable : Statement .enable := fun _ => by decide

theorem txbyte (value : Word16) : Statement (.txbyte value) := by
  intro _
  have hv := value.isLt
  simp only [slice, encode, opOf, reservedFrom, BitVec.toNat_ofNat]
  omega

theorem txline (addr : Word16) : Statement (.txline addr) := by
  intro _
  have ha := addr.isLt
  simp only [slice, encode, opOf, reservedFrom, BitVec.toNat_ofNat]
  omega

theorem rxbyte : Statement .rxbyte := fun _ => by decide

theorem rxline : Statement .rxline := fun _ => by decide

end Sys2Proof.Laws.OpField
end

