-- ==== Sys2Proof/Laws/Step.lean ====
section
/-! SUPPORT. Said once: everything a step of the machine can do. -/

namespace Sys2Proof.Machine

/-- What the sequencer's turn can do, one constructor per way, with the condition each needs. -/
inductive SeqMove : State → State → Prop
  | hold (s : State) : SeqMove s s
  | decodeFault {s : State} {w : CmdWord} {c : Cause} (hq : s.seq = .idle) (hw : s.program[s.ci]? = some w)
      (hd : decode w = .error c) : SeqMove s (raise c s)
  | initFault {s : State} {m d : Bool} {f : Nat} {p : BitVec 2} {b : Nat} {c : Cause} (hq : s.seq = .idle)
      (hp : s.pending = []) (hf : Fetches s (.init m d f p b)) (hc : initCause f p b s = some c) : SeqMove s (raise c s)
  | initFirst {s : State} {m d : Bool} {f : Nat} {p : BitVec 2} {b : Nat} (hq : s.seq = .idle)
      (hp : s.pending = []) (hf : Fetches s (.init m d f p b)) (hc : initCause f p b s = none) :
      SeqMove s { s with modef := m, u2xf := d, mode := m, pending := (initAccesses m d f p b).tail }
  | setbaudFault {s : State} {bps : Nat} {c : Cause} (hq : s.seq = .idle) (hp : s.pending = [])
      (hf : Fetches s (.setbaud bps)) (hc : setbaudCause bps s = some c) : SeqMove s (raise c s)
  | setbaudFirst {s : State} {bps : Nat} (hq : s.seq = .idle) (hp : s.pending = []) (hf : Fetches s (.setbaud bps))
      (hc : setbaudCause bps s = none) :
      SeqMove s { s with txen := false, pending := (setbaudAccesses (baudDivisor bps s)).tail }
  | enableFault {s : State} (hq : s.seq = .idle) (hp : s.pending = []) (hf : Fetches s .enable) (hd : s.divSet = false) :
      SeqMove s (raise .enableBeforeBaud s)
  | enableFirst {s : State} (hq : s.seq = .idle) (hp : s.pending = []) (hf : Fetches s .enable) (hd : s.divSet = true) :
      SeqMove s { s with txen := true, pending := [.rxen true] }
  | nextAccess {s : State} {i : Instr} {a : Access} {rest : List Access} (hq : s.seq = .idle) (hp : s.pending = a :: rest)
      (hr : rest ≠ []) (hf : Fetches s i) : SeqMove s (access a { s with pending := rest })
  | initLast {s : State} {m d : Bool} {f : Nat} {p : BitVec 2} {b : Nat} {a : Access} (hq : s.seq = .idle)
      (hp : s.pending = [a]) (hf : Fetches s (.init m d f p b)) :
      SeqMove s (initEnd (access a { s with pending := [] }))
  | setbaudLast {s : State} {bps : Nat} {a : Access} (hq : s.seq = .idle) (hp : s.pending = [a])
      (hf : Fetches s (.setbaud bps)) : SeqMove s (setbaudEnd (access a { s with pending := [] }))
  | enableLast {s : State} {a : Access} (hq : s.seq = .idle) (hp : s.pending = [a]) (hf : Fetches s .enable) :
      SeqMove s (complete (access a { s with pending := [] }))
  | txbyteStart {s : State} {v : Word16} (hq : s.seq = .idle) (hf : Fetches s (.txbyte v)) :
      SeqMove s (setSeq (.txbWait v) s)
  | txbyteSend {s : State} {v : Word16} (hq : s.seq = .txbWait v) (hu : s.txbuf = none) :
      SeqMove s (complete (sendChar v s))
  | txlineStart {s : State} {a : Word16} (hq : s.seq = .idle) (hf : Fetches s (.txline a)) :
      SeqMove s (setSeq (.txlFetch a.toNat) s)
  | txlineFault {s : State} {a : Nat} (hq : s.seq = .txlFetch a) (ha : 0xFFFF < a) : SeqMove s (raise .memRange s)
  | txlineEnd {s : State} {a : Nat} (hq : s.seq = .txlFetch a) (ha : a ≤ 0xFFFF) (hz : memRead s.mem a = 0) :
      SeqMove s (complete s)
  | txlineRead {s : State} {a : Nat} (hq : s.seq = .txlFetch a) (ha : a ≤ 0xFFFF) (hz : memRead s.mem a ≠ 0) :
      SeqMove s (setSeq (.txlWait a (memRead s.mem a)) s)
  | txlineSend {s : State} {a : Nat} {c : Byte} (hq : s.seq = .txlWait a c) (hu : s.txbuf = none) :
      SeqMove s (setSeq (.txlFetch (a + 1)) (sendChar (c.setWidth 16) s))
  | rxbyteStart {s : State} (hq : s.seq = .idle) (hf : Fetches s .rxbyte) : SeqMove s (setSeq .rxbWait s)
  | rxbyteTake {s : State} {e : RxEntry} {more : List RxEntry} (hq : s.seq = .rxbWait) (hr : s.rxfifo = e :: more) :
      SeqMove s (complete { s with res := (readChar s).1.setWidth 16, rxfifo := more, dor := false })
  | rxlineStart {s : State} (hq : s.seq = .idle) (hf : Fetches s .rxline) : SeqMove s (setSeq (.rxl 0) s)
  | rxlineRead {s : State} {i : Nat} {e : RxEntry} {more : List RxEntry} (hq : s.seq = .rxl i) (hl : s.lineChar = none)
      (hi : i ≠ lineCap ∨ s.params.capExtraRead = true) (hr : s.rxfifo = e :: more) :
      SeqMove s { s with rxfifo := more, dor := false, lineChar := some (e.data.setWidth 8) }
  | rxlineStore {s : State} {i : Nat} {c : Byte} (hq : s.seq = .rxl i) (hl : s.lineChar = some c) (hi : i ≠ lineCap)
      (hne : c ≠ sentinel) (ha : lineAddr s i < hostBytes) :
      SeqMove s { s with mem := memWrite s.mem (lineAddr s i) c, lineChar := none, seq := .rxl (i + 1) }
  | rxlineEnd {s : State} {i : Nat} {c : Byte} (hq : s.seq = .rxl i) (hl : s.lineChar = some c)
      (he : i = lineCap ∨ c = sentinel) (ha : lineAddr s i < hostBytes) :
      SeqMove s { s with mem := memWrite s.mem (lineAddr s i) 0, res := s.params.linebufBase, lineChar := none,
                         seq := .idle, ci := s.ci + 1 }
  | rxlineCap {s : State} (hq : s.seq = .rxl lineCap) (hl : s.lineChar = none) (hx : s.params.capExtraRead = false)
      (ha : lineAddr s lineCap < hostBytes) :
      SeqMove s { s with mem := memWrite s.mem (lineAddr s lineCap) 0, res := s.params.linebufBase, seq := .idle,
                         ci := s.ci + 1 }

variable {s t : State}

/-- What RXLINE's end can do. -/
theorem finishLine_next {i : Nat} (h : finishLine i s = .next t) :
    lineAddr s i < hostBytes ∧
    t = { s with mem := memWrite s.mem (lineAddr s i) 0, res := s.params.linebufBase, seq := .idle, ci := s.ci + 1 } :=
  storeLine_next h

/-- What TXLINE can do from TXL_FETCH. -/
theorem txlFetchStep_move {a : Nat} (hq : s.seq = .txlFetch a) (h : txlFetchStep a s = .next t) : SeqMove s t := by
  unfold txlFetchStep at h
  split_ifs at h with h1 h2 <;> cases h
  · exact .txlineFault hq h1
  · exact .txlineEnd hq (by omega) h2
  · exact .txlineRead hq (by omega) h2

/-- What TXLINE can do from TXL_WAIT. -/
theorem txlWaitStep_move {a : Nat} {c : Byte} (hq : s.seq = .txlWait a c) (h : txlWaitStep a c s = .next t) :
    SeqMove s t := by
  unfold txlWaitStep at h
  split_ifs at h with h1 <;> cases h
  · exact .txlineSend hq (udre_iff.mp h1)
  · exact .hold s

/-- What TXBYTE can do from TXB_WAIT. -/
theorem txbWaitStep_move {v : Word16} (hq : s.seq = .txbWait v) (h : txbWaitStep v s = .next t) : SeqMove s t := by
  unfold txbWaitStep at h
  split_ifs at h with h1 <;> cases h
  · exact .txbyteSend hq (udre_iff.mp h1)
  · exact .hold s

/-- What RXBYTE can do from RXB_WAIT. -/
theorem rxbWaitStep_move (hq : s.seq = .rxbWait) (h : rxbWaitStep s = .next t) : SeqMove s t := by
  unfold rxbWaitStep at h
  split_ifs at h with h1 <;> cases h
  · obtain ⟨e, more, hr⟩ := rxc_iff.mp h1
    have := SeqMove.rxbyteTake hq hr
    rwa [readChar_cons hr] at *
  · exact .hold s

/-- What RXLINE can do from RXL(i): the store of a character it holds, the end at the cap, the read of a character, or a hold. -/
theorem rxlStep_move {i : Nat} (hq : s.seq = .rxl i) (h : rxlStep i s = .next t) : SeqMove s t := by
  unfold rxlStep at h
  split at h
  · rename_i c hl
    unfold rxlStoreStep at h
    split_ifs at h with h1
    · obtain ⟨ha, rfl⟩ := finishLine_next h
      exact .rxlineEnd hq hl h1 ha
    · obtain ⟨ha, rfl⟩ := storeLine_next h
      exact .rxlineStore hq hl (fun hi => h1 (Or.inl hi)) (fun hc => h1 (Or.inr hc)) ha
  · rename_i hl
    split_ifs at h with h1
    · obtain ⟨ha, rfl⟩ := finishLine_next h
      exact .rxlineCap (h1.1 ▸ hq) hl h1.2 ha
    · unfold rxlReadStep at h
      split_ifs at h with h2
      · obtain ⟨e, more, hr⟩ := rxc_iff.mp h2
        rw [readChar_low hr, readChar_cons hr] at h
        cases h
        exact .rxlineRead hq hl (by rw [← Bool.not_eq_false, ← not_and_or]; exact h1) hr
      · cases h; exact .hold s

/-- What a command can do when the sequencer is at IDLE and the command stands at CI. -/
theorem exec_idle_move {i : Instr} (hq : s.seq = .idle) (hf : Fetches s i) (h : exec i s = .next t) : SeqMove s t := by
  cases i with
  | init m d f p b =>
    rcases commandStep_next hq h with ⟨hp, c, hc, rfl⟩ | ⟨hp, hc, h⟩ | ⟨hp, h⟩
    · exact .initFault hq hp hf hc
    · cases h; exact .initFirst hq hp hf hc
    · rcases accessStep_next h with ⟨hp', _⟩ | ⟨a, ha, rfl⟩ | ⟨a, rest, ha, hr, rfl⟩
      · exact absurd hp' hp
      · exact .initLast hq ha hf
      · exact .nextAccess hq ha hr hf
  | setbaud bps =>
    rcases commandStep_next hq h with ⟨hp, c, hc, rfl⟩ | ⟨hp, hc, h⟩ | ⟨hp, h⟩
    · exact .setbaudFault hq hp hf hc
    · cases h; exact .setbaudFirst hq hp hf hc
    · rcases accessStep_next h with ⟨hp', _⟩ | ⟨a, ha, rfl⟩ | ⟨a, rest, ha, hr, rfl⟩
      · exact absurd hp' hp
      · exact .setbaudLast hq ha hf
      · exact .nextAccess hq ha hr hf
  | enable =>
    rcases commandStep_next hq h with ⟨hp, c, hc, rfl⟩ | ⟨hp, hc, h⟩ | ⟨hp, h⟩
    · unfold enableCause at hc
      split_ifs at hc with hd
      cases hc
      exact .enableFault hq hp hf (by simpa using hd)
    · unfold enableCause at hc
      split_ifs at hc with hd
      cases h; exact .enableFirst hq hp hf hd
    · rcases accessStep_next h with ⟨hp', _⟩ | ⟨a, ha, rfl⟩ | ⟨a, rest, ha, hr, rfl⟩
      · exact absurd hp' hp
      · exact .enableLast hq ha hf
      · exact .nextAccess hq ha hr hf
  | txbyte v =>
    simp only [exec, execTxbyte, hq] at h
    cases h; exact .txbyteStart hq hf
  | txline a =>
    simp only [exec, execTxline, hq] at h
    cases h; exact .txlineStart hq hf
  | rxbyte =>
    simp only [exec, execRxbyte, hq] at h
    cases h; exact .rxbyteStart hq hf
  | rxline =>
    simp only [exec, execRxline, hq] at h
    cases h; exact .rxlineStart hq hf

/-- What the sequencer's turn can do. -/
theorem sequencerTurn_move (h : sequencerTurn s = .next t) : SeqMove s t := by
  unfold sequencerTurn at h
  cases hq : s.seq with
  | idle =>
    simp only [hq, fetchStep] at h
    split at h
    · rename_i w hw
      split at h
      · rename_i i hi
        exact exec_idle_move hq ⟨w, hw, hi⟩ h
      · rename_i c hc
        cases h
        exact .decodeFault hq hw hc
    · cases h; exact .hold s
  | txbWait v =>
    simp only [hq, exec, execTxbyte] at h
    exact txbWaitStep_move hq h
  | txlFetch a =>
    simp only [hq, exec, execTxline] at h
    exact txlFetchStep_move hq h
  | txlWait a c =>
    simp only [hq, exec, execTxline] at h
    exact txlWaitStep_move hq h
  | rxbWait =>
    simp only [hq, exec, execRxbyte] at h
    exact rxbWaitStep_move hq h
  | rxl i =>
    simp only [hq, exec, execRxline] at h
    exact rxlStep_move hq h
  | faulted =>
    simp only [hq] at h
    cases h; exact .hold s

/-- At IDLE the sequencer fetches. -/
theorem sequencerTurn_idle (hq : s.seq = .idle) : sequencerTurn s = fetchStep s := by simp only [sequencerTurn, hq]

/-- What is fetched takes its step. -/
theorem fetchStep_eq {i : Instr} (hf : Fetches s i) : fetchStep s = exec i s := by
  obtain ⟨w, hw, hd⟩ := hf
  simp only [fetchStep, hw, hd]

/-- The word at CI is one command. -/
theorem fetches_unique {i j : Instr} (hi : Fetches s i) (hj : Fetches s j) : i = j := by
  obtain ⟨w, hw, hi⟩ := hi
  obtain ⟨v, hv, hj⟩ := hj
  rw [hw] at hv
  cases hv
  rw [hi] at hj
  cases hj
  rfl

/-- The sequencer's turn at IDLE in a run: the command at CI takes its step. -/
theorem run_command {i : Instr} {n : Nat} {more : List Event} (ha : s.agenda = .sequencer :: more) (hq : s.seq = .idle)
    (hf : Fetches s i) (he : exec i { s with agenda := more } = .next t) :
    Host.Core.run Sys2Proof.core (n + 1) s = Host.Core.run Sys2Proof.core n t := by
  refine run_succ ?_
  rw [step_cons ha]
  exact (sequencerTurn_idle (s := { s with agenda := more }) hq).trans
    ((fetchStep_eq (s := { s with agenda := more }) hf).trans he)

/-- The accesses a command has left, with as many turns in a row: all of them, then the command's end. -/
theorem run_accesses {i : Instr} {fin : State → State} {rest : List Event}
    (hex : ∀ u : State, u.seq = .idle → u.pending ≠ [] → exec i u = accessStep fin u) (as : List Access) (hne : as ≠ [])
    (s : State) (hp : s.pending = as) (hq : s.seq = .idle) (hf : Fetches s i) (ha : s.agenda = seqTurns as.length rest) :
    Host.Core.run Sys2Proof.core as.length s = .next (fin (allAccesses as { s with pending := [], agenda := rest })) := by
  induction as generalizing s with
  | nil => exact absurd rfl hne
  | cons a l ih =>
    cases l with
    | nil =>
      exact run_command (n := 0) ha hq hf
        ((hex { s with agenda := rest } hq (by simp [hp])).trans (accessStep_last (s := { s with agenda := rest }) hp))
    | cons b l =>
      rw [List.length_cons, run_command (n := (b :: l).length) ha hq hf
        ((hex { s with agenda := seqTurns (b :: l).length rest } hq (by simp [hp])).trans
          (accessStep_more (s := { s with agenda := seqTurns (b :: l).length rest }) hp))]
      rw [ih (by simp) _ (by simp) (by simpa using hq) (by simpa [Fetches] using hf) (by simp)]
      cases a <;> rfl

/-- LBPTR after an offer: kept without loopback; with it, one more, and there was a frame to replay. -/
def OfferAt (s : State) (n : Nat) : Prop :=
  (s.params.loopback = false ∧ n = s.lbptr) ∨ (s.params.loopback = true ∧ n = s.lbptr + 1 ∧ n ≤ s.txwire.length)

/-- What an engine's step, with the environment's offer, can do. -/
inductive EngineMove : State → State → Prop
  | idle (s : State) : EngineMove s s
  | load {s : State} {v : Char9} {f : Format} (hx : s.txen = true) (hb : s.txbuf = some v) (ht : s.tsr = none)
      (hf : formatOf s = some f) :
      EngineMove s { s with tsr := some { bits := encodeFrame f v, corrupt := false }, txbuf := none }
  | shift {s : State} {fr : Frame} (ht : s.tsr = some fr) :
      EngineMove s { s with txwire := s.txwire ++ [fr], tsr := none, txc := s.txc || udre s }
  | lost {s : State} {n : Nat} (hn : OfferAt s n) (hr : s.rxen = false) : EngineMove s { s with lbptr := n }
  | push {s : State} {n : Nat} {e : RxEntry} (hn : OfferAt s n) (hr : s.rxen = true)
      (hd : s.rxfifo.length < rxFifoDepth) : EngineMove s { s with lbptr := n, rxfifo := s.rxfifo ++ [e] }
  | overrun {s : State} {n : Nat} (hn : OfferAt s n) (hr : s.rxen = true) (hd : rxFifoDepth ≤ s.rxfifo.length) :
      EngineMove s { s with lbptr := n, dor := true }

/-- What LOAD can do, as a move. -/
theorem txLoad_move (h : txLoad s = .next t) : EngineMove s t := by
  rcases txLoad_next h with rfl | ⟨v, f, h1, h2, h3, h4, rfl⟩
  · exact .idle _
  · exact .load h1 h2 h3 h4

/-- What SHIFT can do, as a move. -/
theorem txShift_move (h : txShift s = .next t) : EngineMove s t := by
  rcases txShift_next h with ⟨_, rfl⟩ | ⟨f, h1, rfl⟩
  · exact .idle _
  · exact .shift h1

/-- What an offer can do, as a move. -/
theorem offerFrame_move {free : BitVec 11} (h : offerFrame free s = .next t) : EngineMove s t := by
  rcases offerFrame_next h with ⟨_, _, rfl⟩ | ⟨f, hl, hw, h⟩ | ⟨hl, h⟩
  · exact .idle _
  · have hn : OfferAt s (s.lbptr + 1) := Or.inr ⟨hl, rfl, (List.getElem?_eq_some_iff.mp hw).1⟩
    rcases receive_next h with ⟨hr, rfl⟩ | ⟨f', hr, _, hd, rfl⟩ | ⟨hr, hd, rfl⟩
    · exact .lost hn hr
    · exact .push hn hr hd
    · exact .overrun hn hr hd
  · have hn : OfferAt s s.lbptr := Or.inl ⟨hl, rfl⟩
    rcases receive_next h with ⟨_, rfl⟩ | ⟨f', hr, _, hd, rfl⟩ | ⟨hr, hd, rfl⟩
    · exact .idle _
    · exact .push (n := s.lbptr) hn hr hd
    · exact .overrun (n := s.lbptr) hn hr hd

/-- Everything a step can do: a move of the sequencer or of an engine, or reset, at the state with the event taken. -/
theorem step_cases (h : step s = .next t) :
    (nextEvent s = .sequencer ∧ SeqMove (afterEvent s) t) ∨
    (nextEvent s ≠ .sequencer ∧ nextEvent s ≠ .reset ∧ EngineMove (afterEvent s) t) ∨
    (nextEvent s = .reset ∧ t = resetBlock (afterEvent s)) := by
  rw [step_eq] at h
  cases he : nextEvent s with
  | sequencer => rw [he] at h; exact Or.inl ⟨rfl, sequencerTurn_move h⟩
  | txLoad => rw [he] at h; exact Or.inr (Or.inl ⟨by simp, by simp, txLoad_move h⟩)
  | txShift => rw [he] at h; exact Or.inr (Or.inl ⟨by simp, by simp, txShift_move h⟩)
  | offer free => rw [he] at h; exact Or.inr (Or.inl ⟨by simp, by simp, offerFrame_move h⟩)
  | reset => rw [he] at h; cases h; exact Or.inr (Or.inr ⟨rfl, rfl⟩)

/-- Every step keeps host memory in canonical form. -/
theorem step_memory_wf (hm : Memory.wf s.mem = true) (h : step s = .next t) : Memory.wf t.mem = true := by
  have hm' : Memory.wf (afterEvent s).mem = true := by rw [afterEvent_eq]; exact hm
  rcases step_cases h with ⟨_, hs⟩ | ⟨_, _, he⟩ | ⟨_, rfl⟩
  · generalize afterEvent s = s' at hs hm'
    cases hs with
    | txbyteSend => simpa [sendChar_eq] using hm'
    | txlineSend => simpa [sendChar_eq] using hm'
    | initLast => simpa [initEnd] using hm'
    | setbaudLast => simpa [setbaudEnd] using hm'
    | rxlineStore _ _ _ _ ha => exact memWrite_wf hm' ha
    | rxlineEnd _ _ _ ha => exact memWrite_wf hm' ha
    | rxlineCap _ _ _ ha => exact memWrite_wf hm' ha
    | _ => simpa using hm'
  · generalize afterEvent s = s' at he hm'
    cases he <;> simpa using hm'
  · exact memZero_wf hm' _ _

end Sys2Proof.Machine
end

