-- ==== Sys2Proof/Machine/Assembler.lean ====
section
/-! DEFINITION. The assembler syntax of spec/30_encoding.md R66 with the pseudo-instructions of R67: one line of text to the
commands it stands for. Notation only: no step reads it (log 20). -/

namespace Sys2Proof.Machine

/-- The text of a line before its comment; a `;` that is a character literal starts none. -/
def asmCode : List Char → List Char
  | '\'' :: c :: '\'' :: cs => '\'' :: c :: '\'' :: asmCode cs
  | c :: cs => if c = ';' then [] else c :: asmCode cs
  | [] => []

/-- A character between the words of a line. -/
def asmBlank (c : Char) : Bool := c = ' ' || c = '\t'

/-- A text without its leading and trailing blanks. -/
def asmTrim (cs : List Char) : List Char := ((cs.dropWhile asmBlank).reverse.dropWhile asmBlank).reverse

/-- The operands of a line: its text between commas. -/
def asmSplit : List Char → List (List Char)
  | [] => [[]]
  | c :: cs =>
    match asmSplit cs with
    | [] => [[c]]
    | t :: ts => if c = ',' then [] :: t :: ts else (c :: t) :: ts

/-- The value of a digit in a base of at most 16. -/
def asmDigit (base : Nat) (c : Char) : Option Nat :=
  let n := c.toNat
  let v := if 48 ≤ n ∧ n ≤ 57 then n - 48 else if 97 ≤ n ∧ n ≤ 102 then n - 87 else if 65 ≤ n ∧ n ≤ 70 then n - 55 else 16
  if v < base then some v else none

/-- A number read digit by digit onto `acc`. -/
def asmDigits (base : Nat) : Nat → List Char → Option Nat
  | acc, [] => some acc
  | acc, c :: cs =>
    match asmDigit base c with
    | some d => asmDigits base (acc * base + d) cs
    | none => none

/-- A number: `0x` and hexadecimal digits, or decimal digits; at least one digit. -/
def asmNumber : List Char → Option Nat
  | '0' :: 'x' :: c :: cs => asmDigits 16 0 (c :: cs)
  | c :: cs => asmDigits 10 0 (c :: cs)
  | [] => none

/-- A number not above `top`. -/
def asmUpTo (top : Nat) (cs : List Char) : Option Nat :=
  match asmNumber cs with
  | some n => if n ≤ top then some n else none
  | none => none

/-- `mode`: `async` or `sync`. -/
def asmMode (cs : List Char) : Option Bool :=
  if cs = "async".toList then some false else if cs = "sync".toList then some true else none

/-- `speed`: `normal` or `double`. -/
def asmSpeed (cs : List Char) : Option Bool :=
  if cs = "normal".toList then some false
  else if cs = "double".toList then some true
  else none

/-- `parity`: `none`, `even`, `odd`, or a number 0 to 3. -/
def asmParity (cs : List Char) : Option (BitVec 2) :=
  if cs = "none".toList then some 0
  else if cs = "even".toList then some 2
  else if cs = "odd".toList then some 3
  else (asmUpTo 3 cs).map (BitVec.ofNat 2)

/-- `value` of TXBYTE: a number up to 0xFFFF, or a character literal for its ASCII code. -/
def asmValue (cs : List Char) : Option Word16 :=
  match cs with
  | ['\'', c, '\''] => if c.toNat < 128 then some (BitVec.ofNat 16 c.toNat) else none
  | _ => (asmUpTo 0xFFFF cs).map (BitVec.ofNat 16)

/-- `addr` of TXLINE: a number up to 0xFFFF, or the symbol LINEBUF_BASE. -/
def asmAddr (lineBuf : Word16) (cs : List Char) : Option Word16 :=
  if cs = "LINEBUF_BASE".toList then some lineBuf
  else (asmUpTo 0xFFFF cs).map (BitVec.ofNat 16)

/-- What a line begins with: a command or a pseudo-instruction. -/
inductive AsmOp where
  | init
  | setbaud
  | enable
  | txbyte
  | txline
  | rxbyte
  | rxline
  | openLine
  | rebaud
  | echoline
deriving DecidableEq, Repr

/-- The operation names: those of the opcode table, the source's names as aliases (R66), the pseudo-instructions (R67). -/
def asmNames : List (List Char × AsmOp) :=
  [("INIT".toList, .init), ("init".toList, .init),
   ("SETBAUD".toList, .setbaud),
   ("setBaudRate".toList, .setbaud),
   ("ENABLE".toList, .enable), ("enable".toList, .enable)] ++
  [("TXBYTE".toList, .txbyte),
   ("transmitByte".toList, .txbyte),
   ("TXLINE".toList, .txline),
   ("transmitLine".toList, .txline)] ++
  [("RXBYTE".toList, .rxbyte),
   ("receiveByte".toList, .rxbyte),
   ("RXLINE".toList, .rxline),
   ("receiveLine".toList, .rxline)] ++
  [("OPEN".toList, .openLine), ("REBAUD".toList, .rebaud),
   ("ECHOLINE".toList, .echoline)]

/-- The operation a name stands for. -/
def asmLookup (name : List Char) : List (List Char × AsmOp) → Option AsmOp
  | [] => none
  | (n, op) :: rest => if n = name then some op else asmLookup name rest

/-- The five operands of INIT. -/
def asmInit (ops : List (List Char)) : Option Instr :=
  match ops with
  | [m, d, f, p, t] =>
    match asmMode m, asmSpeed d, asmUpTo 15 f, asmParity p, asmUpTo 15 t with
    | some mode, some speed, some fbits, some par, some stopb => some (.init mode speed fbits par stopb)
    | _, _, _, _, _ => none
  | _ => none

/-- The five operands of INIT and the target rate. -/
def asmOpen (ops : List (List Char)) : Option Pseudo :=
  match ops with
  | [m, d, f, p, t, b] =>
    match asmInit [m, d, f, p, t], asmUpTo 268435455 b with
    | some (.init mode speed fbits par stopb), some bps => some (.openLine mode speed fbits par stopb bps)
    | _, _ => none
  | _ => none

/-- The commands of an operation and its operand text. -/
def asmOperands (lineBuf : Word16) (op : AsmOp) (rest : List Char) : Option (List Instr) :=
  let ops := (asmSplit rest).map asmTrim
  match op with
  | .init => (asmInit ops).map fun i => [i]
  | .setbaud => (asmUpTo 268435455 rest).map fun b => [.setbaud b]
  | .enable => if rest = [] then some [.enable] else none
  | .txbyte => (asmValue rest).map fun v => [.txbyte v]
  | .txline => (asmAddr lineBuf rest).map fun a => [.txline a]
  | .rxbyte => if rest = [] then some [.rxbyte] else none
  | .rxline => if rest = [] then some [.rxline] else none
  | .openLine => (asmOpen ops).map (expand lineBuf)
  | .rebaud => (asmUpTo 268435455 rest).map fun b => expand lineBuf (.rebaud b)
  | .echoline => if rest = [] then some (expand lineBuf .echoline) else none

/-- The commands one line of text stands for; none for a line R66 does not admit; a blank or comment line stands for no
command. -/
def asmLine (lineBuf : Word16) (line : List Char) : Option (List Instr) :=
  let code := asmTrim (asmCode line)
  if code = [] then some []
  else
    match asmLookup (code.takeWhile fun c => !asmBlank c) asmNames with
    | some op => asmOperands lineBuf op (asmTrim (code.dropWhile fun c => !asmBlank c))
    | none => none

/-- The words of a text, line by line. -/
def assemble (lineBuf : Word16) : List (List Char) → Option (List CmdWord)
  | [] => some []
  | line :: lines =>
    match asmLine lineBuf line, assemble lineBuf lines with
    | some is, some ws => some (is.map encode ++ ws)
    | _, _ => none

end Sys2Proof.Machine
end

