-- ==== Sys2Proof/Tests/Slice0.lean ====
section
/-! SUPPORT. Tests whose expected values come from the spec's encodings and vectors (spec/30_encoding.md R57 to R68,
spec/95_test_vectors.md), and for every statement with hypotheses one witness that meets them. -/

namespace Sys2Proof.Tests

open Sys2Proof.Machine

/-! ## Helper states -/

/-- The next state of an outcome. -/
def nextOf : Out → Option State
  | .next t => some t
  | .fault _ => none
  | .refused _ => none

/-- Launch with the program `ws`, the sequencer's turn next. -/
def atReset (ws : List CmdWord) : State := { State.launch Params.examples ws [] with agenda := [.sequencer] }

/-- 8N1 configured, divisor set, both paths on, the sequencer's turn next. -/
def ready (ws : List CmdWord) : State :=
  { atReset ws with configured := true, divSet := true, rxen := true, txen := true }

/-- `ready` in a sequencer state. -/
def within (q : Seq) (ws : List CmdWord) : State := { ready ws with seq := q }

/-- A received character without errors. -/
def good (v : Char9) : RxEntry := { data := v, fe := false, pe := false }

/-- The fault a step records: SEQ, code, subcode, command index. -/
def faultOf (o : Out) : Option (Seq × Byte × Byte × Nat) := (nextOf o).map fun t => (t.seq, t.fcode, t.fsub, t.fcmd)

/-- An event is next in `s`. -/
def before (e : Event) (s : State) : State := { s with agenda := [e] }

/-! ## Which commands are well-formed: an ill-formed command for each check -/

theorem test_fbits_too_wide : (Instr.init false false 16 0 1).wellFormed = false := by decide
theorem test_stopb_too_wide : (Instr.init false false 8 0 16).wellFormed = false := by decide
theorem test_bps_too_wide : (Instr.setbaud 268435456).wellFormed = false := by decide
theorem test_pseudo_fbits_too_wide : (Pseudo.openLine false false 16 0 1 9600).wellFormed = false := by decide
theorem test_pseudo_stopb_too_wide : (Pseudo.openLine false false 8 0 16 9600).wellFormed = false := by decide
theorem test_pseudo_bps_too_wide : (Pseudo.openLine false false 8 0 1 268435456).wellFormed = false := by decide
theorem test_rebaud_too_wide : (Pseudo.rebaud 268435456).wellFormed = false := by decide

/-! ## Decoding: words written out field by field from R57 to R60 -/

/-- OP 0001, RSV sixteen zeros, MODE 1, SPEED 0, FBITS 0111, PARITY 11, STOPB 0010 (R57). -/
theorem test_decode_init :
    decode 0b0001_0000000000000000_1_0_0111_11_0010#32 = .ok (.init true false 7 3 2) := by decide

/-- OP 0001, MODE 0, SPEED 1, FBITS 1001, PARITY 10, STOPB 0001 (R57). -/
theorem test_decode_init_speed :
    decode 0b0001_0000000000000000_0_1_1001_10_0001#32 = .ok (.init false true 9 2 1) := by decide

/-- OP 0010, BPS 38400 in 28 bits (R58). -/
theorem test_decode_setbaud : decode 0b0010_0000000000001001011000000000#32 = .ok (.setbaud 38400) := by decide

/-- OP 0011, RSV zero (R60). -/
theorem test_decode_enable : decode 0b0011_0000000000000000000000000000#32 = .ok .enable := by decide

/-- OP 0100, RSV zero, IMM16 0x0145 (R59). -/
theorem test_decode_txbyte : decode 0b0100_000000000000_0000000101000101#32 = .ok (.txbyte 0x145) := by decide

/-- OP 0101, RSV zero, IMM16 0x0100 (R59). -/
theorem test_decode_txline : decode 0b0101_000000000000_0000000100000000#32 = .ok (.txline 0x100) := by decide

/-- OP 0110, RSV zero (R60). -/
theorem test_decode_rxbyte : decode 0b0110_0000000000000000000000000000#32 = .ok .rxbyte := by decide

/-- OP 0111, RSV zero (R60). -/
theorem test_decode_rxline : decode 0b0111_0000000000000000000000000000#32 = .ok .rxline := by decide

/-- The working of R68: `INIT sync, normal, 7, odd, 2` sums to 0x100009F2. -/
theorem test_encode_working : encode (.init true false 7 3 2) = 0x100009F2#32 := by decide

/-- The mask and match columns of R62 hold for the spec's INIT example. -/
theorem test_mask_match :
    0x100009F2#32 &&& maskOf (.init true false 7 3 2) = matchOf (.init true false 7 3 2) := by decide

/-- The table's numbering of bits is the word's own. -/
theorem test_table_word : decodeTableWord 32 0x40000145 = some (.txbyte 0x145) := by decide

/-- A word placed at reset runs in the next step: ENABLE before SETBAUD records fault 3, 3 at command 0
(spec/95_test_vectors.md 2.9). -/
theorem test_placed_word_runs :
    faultOf (step (State.reset.withFetchWord 32 0x30000000)) = some (.faulted, 3, 3, 0) := by decide

/-- OPEN, REBAUD and ECHOLINE (R67), assembled: the words of spec/95_test_vectors.md P1. -/
theorem test_assemble_program :
    assemble 0x0100 ["OPEN async, normal, 8, none, 1, 38400 ; start".toList, "ECHOLINE".toList] =
      some [0x10000201, 0x20009600, 0x30000000, 0x70000000, 0x50000100] := by decide

/-- R66's operand spellings: an alias, a character literal, a hexadecimal number. -/
theorem test_assemble_spellings :
    assemble 0x0100 ["transmitByte 'A'".toList, "TXBYTE 0x145".toList, "init sync,double,9,3,0".toList] =
      some [0x40000041, 0x40000145, 0x10000E70] := by decide

/-! ## One step of each command (spec/95_test_vectors.md) -/

/-- The last access of 0x10000661 (2.2): CTRLC 0x26, FSZ2 1, U2X 1, EXT 1, completion. -/
theorem test_init_double_nine :
    (nextOf (exec (.init false true 9 2 1)
      { allAccesses [.mode false, .u2x true, .fsz2 true, .fsz10 3, .ext true, .par 2] (atReset []) with pending := [.stop false] })).map
        (fun t => (ctrlcByte t, t.fsz2, t.u2x, t.ext, t.configured, t.ci)) =
      some (0x26, true, true, true, true, 1) := by decide

/-- `STRICT_CONFIG` = true, fbits 0, par 1, stopb 1: the width check comes first (2.2). -/
theorem test_init_strict_width_first :
    faultOf (exec (.init false false 0 1 1)
      { atReset [] with params := { Params.examples with strictConfig := true } }) = some (.faulted, 6, 1, 0) := by decide

/-- 16 MHz, Synchronous, 9600 (2.3): 832, so BAUDH 0x03 and BAUDL 0x40 are left to write; only TXEN is off, and the divisor as
it was (R46). -/
theorem test_setbaud_sync :
    (nextOf (exec (.setbaud 9600)
      { ready [] with modef := true, params := { Params.examples with fClk := 16000000 } })).map
        (fun t => (t.pending, t.divActive, t.txen, t.rxen, t.ci)) =
      some ([.rxen false, .baudh 0x03, .baudl 0x40], 0, false, true, 0) := by decide

/-- 12 MHz, normal, 11 bit/s (2.3): the divisor does not fit. -/
theorem test_setbaud_too_slow : faultOf (exec (.setbaud 11) (ready [])) = some (.faulted, 5, 2, 0) := by decide

/-- DIV_SET = 1, CTRLB = 0x04 gives 0x1C (2.4), here at the second access: the bits besides RXB8, a draw. -/
theorem test_enable_keeps_width :
    (nextOf (exec .enable
      { atReset [] with divSet := true, ext := true, fsz2 := true, txen := true, pending := [.rxen true] })).map
        (fun t => (t.rxen, t.txen, t.fsz2, t.txb8, t.ci)) = some (true, true, true, false, 1) := by decide

/-- ENABLE before SETBAUD (2.4). -/
theorem test_enable_too_early : faultOf (exec .enable (atReset [])) = some (.faulted, 3, 3, 0) := by decide

/-- EXT = 1: 0x145 sets TXB8 and TXBUF = 0x145 (2.7). -/
theorem test_txbyte_ninth :
    (nextOf (exec (.txbyte 0x145) { within (.txbWait 0x145) [] with ext := true })).map (fun t => (t.txb8, t.txbuf)) =
      some (true, some 0x145) := by decide

/-- EXT = 0: bit 8 is ignored, TXBUF = 0x045 (2.7). -/
theorem test_txbyte_eight :
    (nextOf (exec (.txbyte 0x145) (within (.txbWait 0x145) []))).map (fun t => (t.txb8, t.txbuf)) =
      some (false, some 0x045) := by decide

/-- Host byte 0x80 with EXT = 1 and TXB8 = 1 before: buffered as 0x080, TXB8 = 0 (2.8). -/
theorem test_txline_ninth_zero :
    (nextOf (exec (.txline 0x200) { within (.txlWait 0x200 0x80) [] with ext := true, txb8 := true })).map
      (fun t => (t.txb8, t.txbuf, t.seq)) = some (false, some 0x080, .txlFetch 0x201) := by decide

/-- Past 0xFFFF (2.8): fault 7, 0. -/
theorem test_txline_past_top :
    faultOf (exec (.txline 0xFFFE) (within (.txlFetch 0x10000) [])) = some (.faulted, 7, 0, 0) := by decide

/-- EXT = 1, two entries (2.7): RES = 0x0145, the second stays. -/
theorem test_rxbyte_ninth :
    (nextOf (exec .rxbyte { within .rxbWait [] with ext := true, rxfifo := [good 0x145, good 0x041] })).map
      (fun t => (t.res, t.rxfifo)) = some (0x145, [good 0x041]) := by decide

/-- EXT = 0, a framing error (2.7): RES = 0x0041, DOR cleared. -/
theorem test_rxbyte_error_returned :
    (nextOf (exec .rxbyte { within .rxbWait [] with dor := true, rxfifo := [{ good 0x041 with fe := true }] })).map
      (fun t => (t.res, t.rxfifo, t.dor)) = some (0x41, [], false) := by decide

/-- 9-bit 0x123 ends the line after 0x41 (2.8): read as 0x23, then the terminator at LINEBUF[1]. -/
theorem test_rxline_low8_ends :
    (nextOf (exec .rxline { within (.rxl 1) [] with ext := true, rxfifo := [good 0x123] })).map
      (fun t => (t.lineChar, t.rxfifo, t.seq)) = some (some 0x23, [], .rxl 1) ∧
    (nextOf (exec .rxline { within (.rxl 1) [] with mem := [(0x100, 0x41)], lineChar := some 0x23 })).map
      (fun t => (t.res, t.mem, t.lineChar, t.seq)) = some (0x100, [(0x100, 0x41)], none, .idle) := by decide

/-- The cap (2.8): with nine stored the line ends and the waiting `#` stays unread. -/
theorem test_rxline_cap :
    (nextOf (exec .rxline { within (.rxl 9) [] with rxfifo := [good 0x23] })).map (fun t => (t.res, t.rxfifo, t.seq)) =
      some (0x100, [good 0x23], .idle) := by decide

/-! ## The engines -/

/-- 9E1 of 0x145 on the wire: 0 101000101 0 1 (R105). -/
theorem test_encode_frame :
    encodeFrame { n := 9, parity := .even, stops := 1 } 0x145 =
      [false, true, false, true, false, false, false, true, false, true, false, true] := by decide

/-- 9O1 0 111111111 1 1: data 0x1FF with a parity error (2.5). -/
theorem test_decode_frame :
    decodeFrame { n := 9, parity := .odd, stops := 1 } ([false] ++ List.replicate 11 true) =
      { data := 0x1FF, fe := false, pe := true } := by decide

/-- 8N1 0 10000010 0: a framing error (2.5). -/
theorem test_decode_frame_stop :
    decodeFrame { n := 8, parity := .none, stops := 1 }
      [false, true, false, false, false, false, false, true, false, false] = { data := 0x41, fe := true, pe := false } := by
  decide

/-- SHIFT with TXBUF full leaves TXC (2.6). -/
theorem test_shift_keeps_txc :
    (nextOf (step { before .txShift (ready []) with tsr := some { bits := [false, true], corrupt := false },
                                                    txbuf := some 0x41 })).map (fun t => (t.txc, t.tsr, t.txwire.length)) =
      some (false, none, 1) := by decide

/-- BAUDL written with a frame in TSR: `TSR.corrupt` = true, its length kept, its bits a draw (2.6). -/
theorem test_baudl_corrupts :
    (writeBaudl 77 { ready [] with tsr := some { bits := [false, true], corrupt := false } }).tsr.map
      (fun f => (f.corrupt, f.bits.length)) = some (true, 2) := by decide

/-- An offer with two entries waiting sets DOR (2.6). -/
theorem test_overrun :
    (nextOf (step { before (.offer 0) (ready []) with rxfifo := [good 1, good 2] })).map (fun t => (t.dor, t.rxfifo.length)) =
      some (true, 2) := by decide

/-! ## Witnesses: for every statement with hypotheses, a concrete state and operands that meet them, each clause apart -/

/-- The sequencer's turn with a waiting state of each command, its word at CI. -/
def waiting (q : Seq) (w : CmdWord) : State := within q [w]

/-- A character is being sent. -/
def sending (s : State) : State := { s with tsr := some { bits := [false, true], corrupt := false } }

/-- The 8N1 frame of 0x41 (R105). -/
def frame41 : Frame := { bits := [false, true, false, false, false, false, false, true, false, true], corrupt := false }

/-- Loopback, with the frame of 0x41 on the wire. -/
def looped (e : Event) : State :=
  { before e (ready []) with params := { Params.examples with loopback := true }, txwire := [frame41] }

/-- In loopback a buffered 0x41 about to be loaded, sent and replayed. -/
def echoing : State :=
  { looped .txLoad with txbuf := some 0x41, lbptr := 1, agenda := [.txLoad, .txShift, .offer 0x7FF] }

/-- At reset with STRICT_CONFIG = true. -/
def strict (ws : List CmdWord) : State := { atReset ws with params := { Params.examples with strictConfig := true } }

/-- `ready` with another clock and another division. -/
def clocked (fClk : Nat) (arith : DivArith) : State :=
  { ready [] with params := { Params.examples with fClk := fClk, divArith := arith } }

/-- `RXL(i)` with these characters waiting. -/
def lined (i : Nat) (q : List RxEntry) : State := { within (.rxl i) [0x70000000] with rxfifo := q }

/-- An offer comes next, these characters are waiting. -/
def fed (s : State) (q : List RxEntry) : State := { before (.offer 0x7FF) s with rxfifo := q }

/-- The TX engine has its two turns and the sequencer the next. -/
def draining (s : State) : State := { s with agenda := [.txShift, .txLoad, .sequencer] }

/-- The format 8N1. -/
def f8n1 : Format := { n := 8, parity := .none, stops := 1 }

/-- `ready` with the parameters changed to the extra read at the cap. -/
def extraRead (s : State) : State := { s with params := { Params.examples with capExtraRead := true } }

/-- SETBAUD 38400 (divisor 18) under way: the low byte is left to write. -/
def halfSet : State := { ready [0x20009600] with txen := false, rxen := false, pending := [.baudl 18] }

theorem halfSet_underWay : Fetches halfSet (.setbaud 38400) ∧ UnderWay (.setbaud 38400) halfSet :=
  ⟨⟨_, rfl, rfl⟩, by decide, [.txen false, .rxen false, .baudh 0], by decide, by decide,
    by simp [Shows, halfSet, ready, atReset, State.launch]⟩

theorem halfSet_seqOk : SeqOk halfSet :=
  ⟨by decide, fun h => absurd rfl h, fun _ => ⟨_, halfSet_underWay⟩, fun h => absurd rfl h, trivial⟩

/-- INIT sync, double, 9, even, 1 (0x10000E61) under way: its width and the rest are left to write. -/
def halfInit : State :=
  { atReset [0x10000E61] with modef := true, u2xf := true, mode := true, u2x := true,
                              pending := [.fsz2 true, .fsz10 3, .ext true, .par 2, .stop false] }

theorem halfInit_underWay : Fetches halfInit (.init true true 9 2 1) ∧ UnderWay (.init true true 9 2 1) halfInit :=
  ⟨⟨_, rfl, rfl⟩, by decide, rfl, rfl, [.mode true, .u2x true], by decide, by decide, rfl, rfl, rfl, rfl, rfl, rfl, rfl⟩

/-- Its width is written, and EXT is left to write before parity and stop bits. -/
def wideInit : State := { halfInit with fsz2 := true, pending := [.ext true, .par 2, .stop false] }

theorem wideInit_underWay : Fetches wideInit (.init true true 9 2 1) ∧ UnderWay (.init true true 9 2 1) wideInit :=
  ⟨⟨_, rfl, rfl⟩, by decide, rfl, rfl, [.mode true, .u2x true, .fsz2 true, .fsz10 3], by decide, by decide,
    rfl, rfl, rfl, rfl, rfl, rfl, rfl⟩

/-- Its last access is left. -/
def lastInit : State :=
  { halfInit with fsz2 := true, ext := true, par := 2, pending := [.stop false] }

theorem lastInit_underWay : Fetches lastInit (.init true true 9 2 1) ∧ UnderWay (.init true true 9 2 1) lastInit :=
  ⟨⟨_, rfl, rfl⟩, by decide, rfl, rfl, [.mode true, .u2x true, .fsz2 true, .fsz10 3, .ext true, .par 2], by decide, by decide,
    rfl, rfl, rfl, rfl, rfl, rfl, rfl⟩

/-- ENABLE under way. -/
def halfEnabled : State := { ready [0x30000000] with rxen := false, pending := [.rxen true] }

theorem halfEnabled_underWay : UnderWay .enable halfEnabled :=
  ⟨by decide, [.txen true], by decide, by decide, by simp [Shows, halfEnabled, ready]⟩

/-! ### Runs that come to rest: a list of events, then the sequencer's turns without end -/

/-- The events of `es`, then the sequencer's turns. -/
def eventsOf (es : List Event) (n : Nat) : Event := es.getD n .sequencer

/-- The states along them from `s`. -/
def follow (es : List Event) (s : State) : Nat → State
  | 0 => s
  | n + 1 => (nextOf (runEvent (eventsOf es n) (follow es s n))).getD (follow es s n)

theorem next_of_nextOf {o : Out} {t : State} (h : nextOf o = some t) : o = .next t := by
  cases o <;> simp_all [nextOf]

/-- Where the states come to rest in `c`, without a step for the sequencer or the TX engine, the run is fair (R75). -/
theorem follow_fair {es : List Event} {s c : State} {k : Nat} (hk : es.length ≤ k)
    (hpre : ∀ n, n < k → (nextOf (runEvent (eventsOf es n) (follow es s n))).isSome = true) (hc : follow es s k = c)
    (hq : sequencerTurn c = .next c) (h1 : ¬ LoadEnabled c) (h2 : ¬ ShiftEnabled c) (h3 : ¬ SeqEnabled c) :
    FairRun (eventsOf es) (follow es s) := by
  have hev : ∀ n, k ≤ n → eventsOf es n = .sequencer := by
    intro n hn
    unfold eventsOf
    rw [List.getD_eq_default]
    omega
  have hrest : ∀ j, follow es s (k + j) = c := by
    intro j
    induction j with
    | zero => exact hc
    | succ j ih =>
      rw [← Nat.add_assoc, follow, ih, hev _ (by omega), runEvent, hq]
      rfl
  have hfair : ∀ {p : State → Prop} {e : Event}, ¬ p c → WeaklyFair p e (eventsOf es) (follow es s) := by
    intro p e hp n h
    exact absurd (hrest n ▸ h (k + n) (by omega)) hp
  refine ⟨fun n => ?_, hfair h1, hfair h2, hfair h3⟩
  by_cases hn : n < k
  · obtain ⟨t, ht⟩ := Option.isSome_iff_exists.mp (hpre n hn)
    rw [follow, ht]
    exact next_of_nextOf ht
  · obtain ⟨j, rfl⟩ := Nat.exists_eq_add_of_le (Nat.le_of_not_lt hn)
    rw [Nat.add_assoc, hrest, hrest, hev _ (by omega)]
    exact hq

theorem eventsOf_noReset {es : List Event} (h : ∀ e ∈ es, e ≠ .reset) (n : Nat) : NoReset (eventsOf es) n := by
  intro m _ hm
  unfold eventsOf at hm
  rcases Nat.lt_or_ge m es.length with hl | hl
  · rw [List.getD_eq_getElem _ _ hl] at hm
    exact h _ (List.getElem_mem hl) hm
  · rw [List.getD_eq_default _ _ hl] at hm
    cases hm

theorem witness_DecodeEncodeRoundTrip :
    (Instr.init true true 15 3 15).wellFormed = true ∧ (Instr.setbaud 268435455).wellFormed = true ∧
    (Instr.txbyte 0xFFFF).wellFormed = true := by decide

theorem witness_EncodeDecodeRoundTrip :
    decode 0x10000FFF#32 = .ok (.init true true 15 3 15) ∧ decode 0x2FFFFFFF#32 = .ok (.setbaud 268435455) ∧
    decode 0x4000FFFF#32 = .ok (.txbyte 0xFFFF) := by decide

/-- A word of each row, at the ends of its operand fields. -/
theorem witness_WordMatchesRow :
    0x10000FFF#32 &&& 0xFFFFF000#32 = 0x10000000#32 ∧ 0x2FFFFFFF#32 &&& 0xF0000000#32 = 0x20000000#32 ∧
    0x30000000#32 &&& 0xFFFFFFFF#32 = 0x30000000#32 ∧ 0x4000FFFF#32 &&& 0xFFFF0000#32 = 0x40000000#32 ∧
    0x50000000#32 &&& 0xFFFF0000#32 = 0x50000000#32 ∧ 0x60000000#32 &&& 0xFFFFFFFF#32 = 0x60000000#32 ∧
    0x70000000#32 &&& 0xFFFFFFFF#32 = 0x70000000#32 := by decide

/-- The faulting words of spec/95_test_vectors.md 2.1. -/
theorem witness_DecodeRejectsReserved :
    decode 0x00000000#32 = .error (.reservedOpcode 0x0) ∧ decode 0x80000000#32 = .error (.reservedOpcode 0x8) ∧
    decode 0xFFFFFFFF#32 = .error (.reservedOpcode 0xF) ∧ decode 0x10001201#32 = .error (.reservedField 1) ∧
    decode 0x30000001#32 = .error (.reservedField 3) ∧ decode 0x40010041#32 = .error (.reservedField 4) ∧
    decode 0x50010000#32 = .error (.reservedField 5) ∧ decode 0x6000000F#32 = .error (.reservedField 6) ∧
    decode 0x7FFFFFFF#32 = .error (.reservedField 7) := by decide

theorem witness_StepRunsDecoded :
    (nextEvent (atReset [0x10000201]) = .sequencer ∧ (atReset [0x10000201]).seq = .idle ∧
      (atReset [0x10000201]).program[(atReset [0x10000201]).ci]? = some 0x10000201#32 ∧
      decode 0x10000201#32 = .ok (.init false false 8 0 1)) ∧
    (atReset []).agenda = .sequencer :: [] ∧ State.reset.agenda = [] := by decide

theorem witness_SequencerTurnWithoutCommand :
    nextEvent (atReset [0x80000000]) = .sequencer ∧
    ((atReset [0x00000000]).program[0]? = some 0x00000000#32 ∧ (0x00000000#32).extractLsb' 28 4 = 0) ∧
    ((atReset [0x80000000]).program[0]? = some 0x80000000#32 ∧ 8 ≤ ((0x80000000#32).extractLsb' 28 4).toNat) ∧
    ((atReset [0x30000001]).program[0]? = some 0x30000001#32 ∧ decode 0x30000001#32 = .error (.reservedField 3)) ∧
    ((atReset []).seq = .idle ∧ (atReset []).program.length ≤ (atReset []).ci) ∧
    (within .faulted []).seq = .faulted := by decide

theorem witness_WaitingCommandResumes :
    SeqOk (waiting (.txbWait 0x41) 0x40000041) ∧ SeqOk (waiting (.txlFetch 0x10000) 0x5000FFFF) ∧
    SeqOk { waiting (.txlWait 0xFFFF 0x42) 0x5000FFFF with mem := [(0xFFFF, 0x42)] } ∧
    SeqOk (waiting .rxbWait 0x60000000) ∧ SeqOk (waiting (.rxl 0) 0x70000000) ∧ SeqOk (waiting (.rxl 9) 0x70000000) ∧
    SeqOk { waiting (.rxl 8) 0x70000000 with lineChar := some 0x41 } ∧
    nextEvent (waiting .rxbWait 0x60000000) = .sequencer :=
  ⟨⟨by decide, fun _ => rfl, fun h => absurd rfl h, fun h => absurd rfl h, _, rfl, rfl⟩,
    ⟨by decide, fun _ => rfl, fun h => absurd rfl h, fun h => absurd rfl h, 0xFFFF, ⟨_, rfl, rfl⟩, by decide, by decide⟩,
    ⟨by decide, fun _ => rfl, fun h => absurd rfl h, fun h => absurd rfl h, ⟨0xFFFF, ⟨_, rfl, rfl⟩, by decide⟩,
      by decide, by decide,
      by decide⟩,
    ⟨by decide, fun _ => rfl, fun h => absurd rfl h, fun h => absurd rfl h, _, rfl, rfl⟩,
    ⟨by decide, fun _ => rfl, fun h => absurd rfl h, fun h => absurd rfl h, ⟨_, rfl, rfl⟩, by decide⟩,
    ⟨by decide, fun _ => rfl, fun h => absurd rfl h, fun h => absurd rfl h, ⟨_, rfl, rfl⟩, by decide⟩,
    ⟨by decide, fun _ => rfl, fun h => absurd rfl h, fun _ => ⟨8, rfl, .inl (by decide)⟩, ⟨_, rfl, rfl⟩, by decide⟩, by decide⟩

/-- TXB_WAIT and TXL_WAIT with TXBUF full; RXB_WAIT, RXL(8) and, with the extra read, RXL(9) with RXFIFO empty; the end of the
program, and FAULTED. -/
theorem witness_UnmetWaitHolds :
    (WaitsTx { within (.txbWait 0) [] with txbuf := some 0 } ∧ { within (.txbWait 0) [] with txbuf := some 0 }.txbuf ≠ none ∧
      nextEvent { within (.txbWait 0) [] with txbuf := some 0 } = .sequencer) ∧
    (WaitsTx { within (.txlWait 0 1) [] with txbuf := some 0 } ∧ { within (.txlWait 0 1) [] with txbuf := some 0 }.txbuf ≠ none ∧
      nextEvent { within (.txlWait 0 1) [] with txbuf := some 0 } = .sequencer) ∧
    (WaitsRx (within .rxbWait []) ∧ (within .rxbWait []).rxfifo = [] ∧ nextEvent (within .rxbWait []) = .sequencer) ∧
    (WaitsRx (within (.rxl 8) []) ∧ (within (.rxl 8) []).rxfifo = [] ∧ nextEvent (within (.rxl 8) []) = .sequencer) ∧
    (WaitsRx (extraRead (within (.rxl 9) [])) ∧ (extraRead (within (.rxl 9) [])).rxfifo = [] ∧
      nextEvent (extraRead (within (.rxl 9) [])) = .sequencer) ∧
    (¬ SeqEnabled (ready []) ∧ nextEvent (ready []) = .sequencer) ∧ ¬ SeqEnabled (within .faulted []) :=
  ⟨⟨trivial, by decide, rfl⟩, ⟨trivial, by decide, rfl⟩, ⟨trivial, rfl, rfl⟩, ⟨⟨rfl, .inl (by decide)⟩, rfl, rfl⟩,
    ⟨⟨rfl, .inr ⟨rfl, rfl⟩⟩, rfl, rfl⟩, ⟨Nat.lt_irrefl 0, rfl⟩, id⟩

theorem witness_FaultedUntilReset :
    (within .faulted []).seq = .faulted ∧ nextEvent (within .faulted []) = .sequencer ∧
    (∃ t, step (before .txLoad (within .faulted [])) = .next t ∧ nextEvent (before .txLoad (within .faulted [])) ≠ .reset) ∧
    nextEvent (before .reset (within .faulted [])) = .reset :=
  ⟨rfl, rfl, ⟨_, rfl, by decide⟩, rfl⟩

/-- One state for each row of the table of R116 that a step from IDLE can enter, and one for F_MEM_RANGE. -/
theorem witness_FaultEntryWritesRecordOnly :
    (atReset [0x80000000]).seq ≠ .faulted ∧
    faultOf (step (atReset [0x80000000])) = some (.faulted, 1, 8, 0) ∧
    faultOf (step (atReset [0x10001201])) = some (.faulted, 2, 1, 0) ∧
    faultOf (step (ready [0x10000201])) = some (.faulted, 3, 1, 0) ∧
    faultOf (step (atReset [0x20002580])) = some (.faulted, 3, 2, 0) ∧
    faultOf (step (ready [0x20000000])) = some (.faulted, 4, 0, 0) ∧
    faultOf (step (ready [0x200B71B1])) = some (.faulted, 5, 1, 0) ∧
    faultOf (step (ready [0x2000000B])) = some (.faulted, 5, 2, 0) ∧
    faultOf (step (atReset [0x10000211])) = some (.faulted, 6, 2, 0) ∧
    faultOf (step (waiting (.txlFetch 0x10000) 0x5000FFFF)) = some (.faulted, 7, 0, 0) :=
  ⟨by decide, by decide, by decide, by decide, by decide, by decide, by decide, by decide, by decide, by decide⟩

/-- Both ends of the strict range, a width outside it without STRICT_CONFIG, each form of the parity and stop-bit operands; two
accesses left and one; a run of seven turns. -/
theorem witness_InitCompletes :
    ((strict []).seq = .idle ∧ (strict []).pending = [] ∧ (strict []).configured = false ∧
      ((strict []).params.strictConfig = true → 5 ≤ 5 ∧ 5 ≤ 9) ∧ ((strict []).params.strictConfig = true → 5 ≤ 9 ∧ 9 ≤ 9) ∧
      (0#2 = 0 ∨ 15 = 0 ∨ ((0#2 = 2 ∨ 0#2 = 3) ∧ 15 ≤ 2))) ∧
    ((atReset []).seq = .idle ∧ (atReset []).configured = false ∧
      ((atReset []).params.strictConfig = true → 5 ≤ 15 ∧ 15 ≤ 9) ∧
      (1#2 = 0 ∨ 0 = 0 ∨ ((1#2 = 2 ∨ 1#2 = 3) ∧ 0 ≤ 2)) ∧ (2#2 = 0 ∨ 1 = 0 ∨ ((2#2 = 2 ∨ 2#2 = 3) ∧ 1 ≤ 2)) ∧
      (3#2 = 0 ∨ 2 = 0 ∨ ((3#2 = 2 ∨ 3#2 = 3) ∧ 2 ≤ 2))) ∧
    (halfInit.seq = .idle ∧ halfInit.pending = .fsz2 true :: .fsz10 3 :: [.ext true, .par 2, .stop false]) ∧
    (lastInit.seq = .idle ∧ lastInit.pending = [.stop false]) ∧
    (Fetches { atReset [0x10000661] with agenda := seqTurns 7 [] } (.init false true 9 2 1) ∧
      { atReset [0x10000661] with agenda := seqTurns 7 [] }.agenda = seqTurns (initAccesses false true 9 2 1).length []) :=
  ⟨by decide, by decide, by decide, by decide, ⟨_, rfl, rfl⟩, by decide⟩

theorem witness_InitFaultsInOrder :
    ((ready []).seq = .idle ∧ (ready []).pending = [] ∧ (ready []).configured = true) ∧
    ((strict []).seq = .idle ∧ (strict []).pending = [] ∧ (strict []).configured = false ∧
      (strict []).params.strictConfig = true ∧ (4 < 5 ∨ 9 < 4) ∧ (10 < 5 ∨ 9 < 10)) ∧
    ((atReset []).seq = .idle ∧ (atReset []).pending = [] ∧ (atReset []).configured = false ∧
      ((atReset []).params.strictConfig = false ∨ (5 ≤ 0 ∧ 0 ≤ 9)) ∧
      1#2 = 1 ∧ 0 < 1 ∧ (2#2 = 2 ∨ 2#2 = 3) ∧ 2 < 3) ∧
    ((strict []).params.strictConfig = false ∨ (5 ≤ 9 ∧ 9 ≤ 9)) := by decide

/-- A first access, the last one, and a fault, of each. -/
theorem witness_InitAndEnableFrame :
    (∃ t, (atReset []).pending = [] ∧ exec (.init false true 9 2 1) (atReset []) = .next t ∧ t.seq ≠ .faulted) ∧
    (∃ t, UnderWay (.init true true 9 2 1) lastInit ∧ exec (.init true true 9 2 1) lastInit = .next t ∧ t.seq ≠ .faulted) ∧
    (∃ t, (ready []).pending = [] ∧ exec (.init false false 8 0 1) (ready []) = .next t ∧ t.seq = .faulted) ∧
    (∃ t, exec .enable (ready []) = .next t ∧ t.seq ≠ .faulted) ∧
    (∃ t, UnderWay .enable halfEnabled ∧ exec .enable halfEnabled = .next t ∧ t.seq ≠ .faulted) ∧
    (∃ t, exec .enable (atReset []) = .next t ∧ t.seq = .faulted) :=
  ⟨⟨_, rfl, rfl, by decide⟩, ⟨_, lastInit_underWay.2, rfl, by decide⟩, ⟨_, rfl, rfl, by decide⟩, ⟨_, rfl, by decide⟩,
    ⟨_, halfEnabled_underWay, rfl, by decide⟩, ⟨_, rfl, by decide⟩⟩

/-- The least and the greatest quotient that fit, each oversampling factor, each arithmetic; each number of accesses left; a run
of four turns. -/
theorem witness_SetbaudCompletes :
    ((ready []).seq = .idle ∧ (ready []).pending = [] ∧ (ready []).configured = true ∧
    (16 = (if (ready []).modef then 2 else if (ready []).u2xf then 8 else 16) ∧
      1 = quotient (ready []).params.divArith (ready []).params.fClk 16 750000 ∧ 0 < 750000 ∧ 1 ≤ 1 ∧ 1 ≤ 65536) ∧
    (16 = (if (clocked 1048576 .exact).modef then 2 else if (clocked 1048576 .exact).u2xf then 8 else 16) ∧
      65536 = quotient (clocked 1048576 .exact).params.divArith (clocked 1048576 .exact).params.fClk 16 1 ∧ 0 < 1 ∧
      1 ≤ 65536 ∧ 65536 ≤ 65536) ∧
    (8 = (if { clocked 12000000 .binary32 with u2xf := true }.modef then 2
        else if { clocked 12000000 .binary32 with u2xf := true }.u2xf then 8 else 16) ∧
      39 = quotient (clocked 12000000 .binary32).params.divArith (clocked 12000000 .binary32).params.fClk 8 38400) ∧
    (2 = (if { clocked 12000000 .binary64 with modef := true }.modef then 2 else 16) ∧
      156 = quotient (clocked 12000000 .binary64).params.divArith (clocked 12000000 .binary64).params.fClk 2 38400)) ∧
    ({ ready [] with pending := [.rxen false, .baudh 3, .baudl 64] }.pending = [.rxen false, .baudh 3, .baudl 64] ∧
      { ready [] with pending := [.baudh 3, .baudl 64] }.pending = [.baudh 3, .baudl 64] ∧
      halfSet.seq = .idle ∧ halfSet.pending = [.baudl 18]) ∧
    (Fetches { ready [0x20009600] with agenda := seqTurns 4 [] } (.setbaud 38400) ∧
      { ready [0x20009600] with agenda := seqTurns 4 [] }.agenda = seqTurns 4 []) :=
  ⟨by decide, by decide, ⟨_, rfl, rfl⟩, rfl⟩

theorem witness_SetbaudFaultsInOrder :
    (ready []).seq = .idle ∧ (ready []).pending = [] ∧
    16 = (if (ready []).modef then 2 else if (ready []).u2xf then 8 else 16) ∧
    (atReset []).configured = false ∧ (ready []).configured = true ∧
    (0 < 750001 ∧ 0 = quotient (ready []).params.divArith (ready []).params.fClk 16 750001) ∧
    ((clocked 1048592 .exact).seq = .idle ∧ (clocked 1048592 .exact).configured = true ∧ 0 < 1 ∧
      65537 = quotient (clocked 1048592 .exact).params.divArith (clocked 1048592 .exact).params.fClk 16 1 ∧ 65536 < 65537) := by
  decide

/-- A first access, the last one with a frame in TSR, and a fault. -/
theorem witness_SetbaudFrame :
    (∃ t, (sending (ready [])).pending = [] ∧ exec (.setbaud 38400) (sending (ready [])) = .next t ∧ t.seq ≠ .faulted) ∧
    (∃ t, UnderWay (.setbaud 38400) (sending halfSet) ∧ exec (.setbaud 38400) (sending halfSet) = .next t ∧
      t.seq ≠ .faulted) ∧
    (∃ t, (ready []).pending = [] ∧ exec (.setbaud 0) (ready []) = .next t ∧ t.seq = .faulted) :=
  ⟨⟨_, rfl, rfl, by decide⟩, ⟨_, halfSet_underWay.2, rfl, by decide⟩, ⟨_, rfl, rfl, by decide⟩⟩

/-- Rates that complete, 38400 and that of the quotient 65536, and rates that fault, 750001 and that of the quotient 65537. -/
theorem witness_DivisorIsFloorMinusOne :
    ((ready []).seq = .idle ∧ (ready []).pending = [] ∧ (ready []).configured = true ∧ (ready []).params.divArith = .exact ∧
      0 < 38400 ∧ 0 < 750001 ∧ 16 = (if (ready []).modef then 2 else if (ready []).u2xf then 8 else 16)) ∧
    (Fetches { ready [0x20009600] with agenda := seqTurns 4 [] } (.setbaud 38400) ∧
      16 * 38400 ≤ 12000000 ∧ 12000000 < 65537 * (16 * 38400)) ∧
    (Fetches { ready [0x200B71B1] with agenda := seqTurns 4 [] } (.setbaud 750001) ∧ ¬ 16 * 750001 ≤ 12000000) ∧
    (Fetches { clocked 1048591 .exact with program := [0x20000001] } (.setbaud 1) ∧
      1048591 / (16 * 1) = 65536 ∧ 1048591 < 65537 * (16 * 1)) ∧
    (Fetches { clocked 1048592 .exact with program := [0x20000001] } (.setbaud 1) ∧
      1048592 / (16 * 1) = 65537 ∧ ¬ 1048592 < 65537 * (16 * 1)) :=
  ⟨by decide, ⟨⟨_, rfl, rfl⟩, by decide, by decide⟩, ⟨⟨_, rfl, rfl⟩, by decide⟩, ⟨⟨_, rfl, rfl⟩, by decide, by decide⟩,
    ⟨_, rfl, rfl⟩, by decide, by decide⟩

/-- The source's example, and a rate that divides. -/
theorem witness_AchievedRateNotBelowTarget :
    0 < 16 ∧ 0 < 38400 ∧ 18 + 1 = 12000000 / (16 * 38400) ∧ 0 + 1 = 12000000 / (16 * 750000) := by decide

theorem witness_FloatQuotientAgrees : 0 < 16 ∧ 0 < 38400 ∧ 2 ^ 24 - 1 < 2 ^ 24 ∧ 2 ^ 53 - 1 < 2 ^ 53 := by decide

theorem witness_EnableCompletes :
    ((ready []).seq = .idle ∧ (ready []).pending = [] ∧ (ready []).divSet = true) ∧
    (halfEnabled.seq = .idle ∧ halfEnabled.pending = [.rxen true]) ∧
    ((atReset []).seq = .idle ∧ (atReset []).pending = [] ∧ (atReset []).divSet = false) ∧
    (Fetches { ready [0x30000000] with agenda := seqTurns 2 [] } .enable ∧
      { ready [0x30000000] with agenda := seqTurns 2 [] }.agenda = seqTurns 2 []) :=
  ⟨by decide, by decide, by decide, ⟨_, rfl, rfl⟩, rfl⟩

theorem witness_TxbyteCompletes :
    ((within (.txbWait 0x1FF) []).seq = .txbWait 0x1FF ∧ (within (.txbWait 0x1FF) []).txbuf = none) ∧
    { within (.txbWait 0x1FF) [] with txbuf := some 0x41 }.txbuf ≠ none ∧ (ready []).seq = .idle := by decide

/-- Addresses 0xFFFF and 0x10000, a 0x00 byte and another. -/
theorem witness_TxlineCompletes :
    ((within (.txlFetch 0xFFFF) []).seq = .txlFetch 0xFFFF ∧ 0xFFFF ≤ 0xFFFF ∧
      memRead (within (.txlFetch 0xFFFF) []).mem 0xFFFF = 0) ∧
    memRead { within (.txlFetch 0xFFFF) [] with mem := [(0xFFFF, 0x42)] }.mem 0xFFFF ≠ 0 ∧
    ((within (.txlFetch 0x10000) []).seq = .txlFetch 0x10000 ∧ 0xFFFF < 0x10000) ∧
    ((within (.txlWait 0xFFFF 0x42) []).seq = .txlWait 0xFFFF 0x42 ∧ (within (.txlWait 0xFFFF 0x42) []).txbuf = none) ∧
    { within (.txlWait 0xFFFF 0x42) [] with txbuf := some 0x41 }.txbuf ≠ none ∧ (ready []).seq = .idle := by decide

theorem witness_TransmitFrame :
    (∃ t, exec (.txbyte 0x145) (within (.txbWait 0x145) []) = .next t ∧ t.seq ≠ .faulted) ∧
    (∃ t, exec (.txline 0x200) (within (.txlWait 0x200 0x41) []) = .next t ∧ t.seq ≠ .faulted) ∧
    (∃ t, exec (.txline 0xFFFF) (within (.txlFetch 0x10000) []) = .next t ∧ t.seq = .faulted) :=
  ⟨⟨_, rfl, by decide⟩, ⟨_, rfl, by decide⟩, ⟨_, rfl, by decide⟩⟩

/-- "OK" at 0x0200, in 8N1. -/
def stringState : State :=
  { within (.txlFetch 0x200) [0x50000200] with
    mem := [(0x200, 0x4F), (0x201, 0x4B)], agenda := sendTurns 2 ++ Event.sequencer :: [] }

theorem witness_TxlineSendsString :
    stringState.seq = .txlFetch 0x200 ∧ formatOf stringState = some f8n1 ∧ stringState.txen = true ∧ stringState.txbuf = none ∧
    stringState.tsr = none ∧ (stringState.ext = false → stringState.txb8 = false) ∧
    (∀ j c, [0x4F#8, 0x4B#8][j]? = some c → memRead stringState.mem (0x200 + j) = c ∧ c ≠ 0) ∧
    memRead stringState.mem (0x200 + [0x4F#8, 0x4B#8].length) = 0 ∧ 0x200 + [0x4F#8, 0x4B#8].length ≤ 0xFFFF ∧
    stringState.agenda = sendTurns [0x4F#8, 0x4B#8].length ++ Event.sequencer :: [] := by
  refine ⟨by decide, by decide, by decide, by decide, by decide, by decide, ?_, by decide, by decide, by decide⟩
  intro j c h
  match j, h with
  | 0, h => cases h; decide
  | 1, h => cases h; decide

theorem witness_RxbyteCompletes :
    ({ within .rxbWait [] with rxfifo := [good 0x1FF] }.seq = .rxbWait ∧
      { within .rxbWait [] with rxfifo := [good 0x1FF] }.rxfifo = good 0x1FF :: []) ∧
    (within .rxbWait []).rxfifo = [] ∧ (ready []).seq = .idle := by decide

/-- Reads at 0, 8 and, with the extra read, 9, with and without a character; stores at 0 and 8 of `#` and of another; the ends at
the cap. -/
theorem witness_RxlineCompletes :
    ((lined 8 [good 0x123]).params.wf = true ∧ (lined 8 [good 0x123]).seq = .rxl 8 ∧ (lined 8 [good 0x123]).lineChar = none ∧
      8 < 9 ∧ (lined 8 [good 0x123]).rxfifo = good 0x123 :: []) ∧
    ((lined 0 []).seq = .rxl 0 ∧ (lined 0 []).lineChar = none ∧ (lined 0 []).rxfifo = []) ∧
    ((extraRead (lined 9 [good 0x23])).params.wf = true ∧ (extraRead (lined 9 [good 0x23])).seq = .rxl 9 ∧
      (extraRead (lined 9 [good 0x23])).params.capExtraRead = true ∧
      (extraRead (lined 9 [good 0x23])).rxfifo = good 0x23 :: []) ∧
    ((extraRead (lined 9 [])).params.capExtraRead = true ∧ (extraRead (lined 9 [])).rxfifo = []) ∧
    ({ lined 8 [] with lineChar := some 0x23 }.lineChar = some 0x23#8 ∧
      { lined 0 [] with lineChar := some 0x41 }.lineChar = some 0x41#8 ∧ 0x41#8 ≠ 0x23) ∧
    ((lined 9 []).seq = .rxl 9 ∧ (lined 9 []).lineChar = none ∧ (lined 9 []).params.capExtraRead = false) ∧
    { lined 9 [] with lineChar := some 0x23 }.lineChar = some 0x23#8 ∧ (ready []).seq = .idle :=
  ⟨by decide, by decide, by decide, by decide, by decide, by decide, by decide, by decide⟩

/-- RXBYTE; RXLINE's read, which stores nothing, its store, and its start. -/
theorem witness_ReceiveFrame :
    (∃ t, exec .rxbyte { within .rxbWait [] with rxfifo := [good 0x41] } = .next t) ∧
    (∃ t, exec .rxline { within (.rxl 8) [] with rxfifo := [good 0x41] } = .next t ∧ (within (.rxl 8) []).seq = .rxl 8 ∧
      (within (.rxl 8) []).lineChar = none ∧ 8 ≠ 9) ∧
    (∃ t, exec .rxline { within (.rxl 8) [] with lineChar := some 0x41 } = .next t) ∧
    (∃ t, exec .rxline (ready []) = .next t ∧ ∀ i, (ready []).seq ≠ .rxl i) :=
  ⟨⟨_, rfl⟩, ⟨_, rfl, rfl, rfl, by decide⟩, ⟨_, rfl⟩, ⟨_, rfl, fun _ h => by cases h⟩⟩

/-- `RXL(0)` with the turns of a peer that sends `vs` in 8N1. -/
def lineState (vs : List Char9) (more : List Event) : State :=
  { within (.rxl 0) [0x70000000] with agenda := receiveTurns f8n1 vs ++ more }

theorem witness_RxlineReceivesLine :
    (lineState ([0x52, 0x50, 0x4D] ++ [0x23]) []).params.wf = true ∧
    Memory.wf (lineState ([0x52, 0x50, 0x4D] ++ [0x23]) []).mem = true ∧
    (lineState ([0x52, 0x50, 0x4D] ++ [0x23]) []).params.loopback = false ∧
    (lineState ([0x52, 0x50, 0x4D] ++ [0x23]) []).rxen = true ∧ (lineState ([0x52, 0x50, 0x4D] ++ [0x23]) []).rxfifo = [] ∧
    (lineState ([0x52, 0x50, 0x4D] ++ [0x23]) []).seq = .rxl 0 ∧ (lineState ([0x52, 0x50, 0x4D] ++ [0x23]) []).lineChar = none ∧
    formatOf (lineState ([0x52, 0x50, 0x4D] ++ [0x23]) []) = some f8n1 ∧ 8 ≤ f8n1.n ∧
    [0x52#9, 0x50, 0x4D].length ≤ 8 ∧ (∀ v ∈ [0x52#9, 0x50, 0x4D], v.setWidth 8 ≠ 0x23#8) ∧
    (0x23#9).setWidth 8 = 0x23#8 ∧
    (lineState ([0x52, 0x50, 0x4D] ++ [0x23]) []).agenda = receiveTurns f8n1 ([0x52, 0x50, 0x4D] ++ [0x23]) ++ [] := by
  decide

/-- Nine characters, as in spec/95_test_vectors.md S5. -/
def nine : List Char9 := [0x41, 0x42, 0x43, 0x44, 0x45, 0x46, 0x47, 0x48, 0x49]

theorem witness_RxlineTruncatesAtNine :
    (lineState nine [.sequencer]).params.wf = true ∧ Memory.wf (lineState nine [.sequencer]).mem = true ∧
    (lineState nine [.sequencer]).params.loopback = false ∧ (lineState nine [.sequencer]).params.capExtraRead = false ∧
    (lineState nine [.sequencer]).rxen = true ∧ (lineState nine [.sequencer]).rxfifo = [] ∧
    (lineState nine [.sequencer]).seq = .rxl 0 ∧ (lineState nine [.sequencer]).lineChar = none ∧
    formatOf (lineState nine [.sequencer]) = some f8n1 ∧ 8 ≤ f8n1.n ∧
    nine.length = 9 ∧ (∀ v ∈ nine, v.setWidth 8 ≠ 0x23#8) ∧
    (lineState nine [.sequencer]).agenda = receiveTurns f8n1 nine ++ Event.sequencer :: [] := by decide

theorem witness_LoadMovesBufferToShifter :
    (nextEvent { before .txLoad (ready []) with txbuf := some 0x41 } = .txLoad ∧
      { before .txLoad (ready []) with txbuf := some 0x41 }.txen = true ∧
      { before .txLoad (ready []) with txbuf := some 0x41 }.txbuf = some 0x41 ∧
      { before .txLoad (ready []) with txbuf := some 0x41 }.tsr = none ∧
      formatOf { before .txLoad (ready []) with txbuf := some 0x41 } = some f8n1) ∧
    (nextEvent (before .txLoad (atReset [])) = .txLoad ∧ (before .txLoad (atReset [])).txen = false) ∧
    (before .txLoad (ready [])).txbuf = none ∧ (before .txLoad (sending (ready []))).tsr ≠ none := by decide

theorem witness_ShiftSendsFrame :
    (nextEvent (before .txShift (sending (ready []))) = .txShift ∧
      (before .txShift (sending (ready []))).tsr = some { bits := [false, true], corrupt := false } ∧
      (before .txShift (sending (ready []))).txbuf = none) ∧
    (before .txShift (sending { ready [] with txbuf := some 0x41 })).txbuf ≠ none ∧
    (before .txShift (ready [])).tsr = none := by decide

/-- FIFO lengths 1 and 2, the ends of the two clauses. -/
theorem witness_ReceiveFillsFifo :
    (nextEvent (fed (ready []) [good 1]) = .offer 0x7FF ∧ (fed (ready []) [good 1]).params.loopback = false ∧
      formatOf (fed (ready []) [good 1]) = some f8n1 ∧ (fed (ready []) [good 1]).rxen = true ∧
      (fed (ready []) [good 1]).rxfifo.length < 2) ∧
    (fed (atReset []) []).rxen = false ∧
    ((fed (ready []) [good 1, good 2]).rxen = true ∧ 2 ≤ (fed (ready []) [good 1, good 2]).rxfifo.length) := by decide

theorem witness_PeerOffersEveryFrame :
    formatOf (ready []) = some f8n1 ∧ (false :: List.replicate 9 true).length = sampledLen f8n1 ∧
    (false :: List.replicate 9 true).head? = some false := by decide

/-- The end of TXWIRE; RXEN = 0; two entries waiting; a frame that is not corrupt; a corrupt one. -/
theorem witness_LoopbackReplaysWire :
    (nextEvent (looped (.offer 0)) = .offer 0 ∧ (looped (.offer 0)).params.loopback = true ∧
      formatOf (looped (.offer 0)) = some f8n1 ∧ (looped (.offer 0)).txwire[(looped (.offer 0)).lbptr]? = some frame41 ∧
      (looped (.offer 0)).rxen = true ∧ frame41.corrupt = false ∧ sampledLen f8n1 ≤ frame41.bits.length ∧
      (looped (.offer 0)).rxfifo.length < 2) ∧
    { looped (.offer 0) with lbptr := 1 }.txwire.length ≤ { looped (.offer 0) with lbptr := 1 }.lbptr ∧
    ({ looped (.offer 0) with rxen := false }.txwire[{ looped (.offer 0) with rxen := false }.lbptr]? = some frame41 ∧
      { looped (.offer 0) with rxen := false }.rxen = false) ∧
    2 ≤ { looped (.offer 0) with rxfifo := [good 1, good 2] }.rxfifo.length ∧
    ({ looped (.offer 0) with txwire := [corruptFrame 0 frame41] }.txwire[0]? = some (corruptFrame 0 frame41) ∧
      (corruptFrame 0 frame41).corrupt = true) :=
  ⟨by decide, by decide, by decide, by decide, rfl, rfl⟩

theorem witness_FrameRoundTrip : formatOf (ready []) = some f8n1 := by decide

/-- A state for each frame-size code, and for each parity code. -/
theorem witness_EncodedFrameShape :
    (formatOf { ready [] with fsz10 := 0 } = some { n := 5, parity := .none, stops := 1 } ∧
      fsz { ready [] with fsz10 := 0 } = 0) ∧
    (fsz { ready [] with fsz10 := 1 } = 1 ∧ fsz { ready [] with fsz10 := 2 } = 2 ∧ fsz (ready []) = 3) ∧
    (formatOf { ready [] with fsz2 := true, par := 3, stop := true } = some { n := 9, parity := .odd, stops := 2 } ∧
      fsz { ready [] with fsz2 := true, par := 3, stop := true } = 7) ∧
    (formatOf { ready [] with par := 2 } = some { n := 8, parity := .even, stops := 1 }) ∧
    (1 = (if { ready [] with par := 2 }.par = 0 then 0 else 1) ∧ 0 = (if (ready []).par = 0 then 0 else 1)) ∧
    formatOf { ready [] with par := 1 } = none ∧ formatOf { ready [] with fsz2 := true, fsz10 := 0 } = none := by decide

/-- 8E1; the first data bit and the parity bit. -/
theorem witness_ParityErrorDetected :
    formatOf { ready [] with par := 2 } = some { n := 8, parity := .even, stops := 1 } ∧ Parity.even ≠ .none ∧
    (1 ≤ 1 ∧ 1 ≤ 1 + 8) ∧ (1 ≤ 9 ∧ 9 ≤ 1 + 8) := by decide

theorem witness_LoopbackDelivers :
    echoing.params.loopback = true ∧ echoing.txen = true ∧ echoing.rxen = true ∧ echoing.txbuf = some 0x41 ∧
    echoing.tsr = none ∧ echoing.lbptr = echoing.txwire.length ∧ echoing.rxfifo.length < 2 ∧ formatOf echoing = some f8n1 ∧
    echoing.agenda = .txLoad :: .txShift :: .offer 0x7FF :: [] := by decide

/-- The FIFO non-empty and empty; RXEN going from 1 to 0, and not. -/
theorem witness_RegisterAccessEffects :
    { ready [] with rxfifo := [good 1, good 2] }.rxfifo = good 1 :: [good 2] ∧ (ready []).rxfifo = [] ∧
    ((ready []).rxen = true ∧ (0x08#8).getLsbD 4 = false) ∧ ((atReset []).rxen = false ∧ (0x18#8).getLsbD 4 = true) := by decide

theorem witness_RegisterBits : { ready [] with rxfifo := [good 0x1FF] }.rxfifo = good 0x1FF :: [] := by decide

theorem witness_AtomicAccessLosesNothing :
    (∃ t, runEvent .txLoad (ready []) = .next t ∧ (ready []).txbuf = none) ∧
    (∃ t, runEvent .txShift (sending (ready [])) = .next t ∧ (sending (ready [])).txbuf = none) ∧
    (∃ t, runEvent (.offer 0) { ready [] with rxfifo := [good 1] } = .next t ∧ { ready [] with rxfifo := [good 1] }.rxfifo ≠ []) :=
  ⟨⟨_, rfl, by decide⟩, ⟨_, rfl, by decide⟩, ⟨_, rfl, by decide⟩⟩

theorem witness_MemoryReadsLastWrite : Memory.wf [(0x100, 0x41), (0xFFFF, 0x01)] = true := by decide

/-- RXLINE stores 0x41 at LINEBUF[8]; reset clears LINEBUF[0]. -/
theorem witness_MemoryWrittenOnlyByRxline :
    (∃ t, SeqOk { waiting (.rxl 8) 0x70000000 with lineChar := some 0x41 } ∧
      step { waiting (.rxl 8) 0x70000000 with lineChar := some 0x41 } = .next t ∧
      memRead t.mem 0x108 ≠ memRead (waiting (.rxl 8) 0x70000000).mem 0x108) ∧
    (∃ t, SeqOk (before .reset { ready [] with mem := [(0x100, 0x41)] }) ∧
      step (before .reset { ready [] with mem := [(0x100, 0x41)] }) = .next t ∧
      memRead t.mem 0x100 ≠ memRead [(0x100, 0x41)] 0x100) :=
  ⟨⟨_, witness_WaitingCommandResumes.2.2.2.2.2.2.1, rfl, by decide⟩,
    ⟨_, ⟨by decide, fun _ => rfl, fun h => absurd rfl h, fun h => absurd rfl h, trivial⟩, rfl, by decide⟩⟩

theorem witness_ResetSetsEverything :
    nextEvent (before .reset { ready [] with mem := [(0x0F0, 0x41), (0x100, 0x42)] }) = .reset ∧
    Memory.wf (before .reset { ready [] with mem := [(0x0F0, 0x41), (0x100, 0x42)] }).mem = true := by decide

theorem witness_ResetKeepsInputs :
    nextEvent (before .reset (within .faulted [])) = .reset ∧ nextEvent (before .reset halfSet) = .reset := by decide

theorem witness_InvariantAtLaunch :
    Params.examples.wf = true ∧ { Params.examples with linebufBase := 0xFFF6 }.wf = true ∧ Memory.wf [(0xFFFF, 0x01)] = true := by
  decide

/-- A frame of 0x41 in the present format stands in TSR. -/
def loaded (e : Event) (s : State) : State :=
  { before e s with tsr := some { bits := encodeFrame f8n1 0x41, corrupt := false } }

theorem ready_inv : Inv (ready [0x20009600]) := by
  refine ⟨by decide, by decide, by unfold FormatLegal; decide, by unfold FifoBounded; decide,
    ⟨by decide, by decide, by decide, by decide⟩,
    ⟨by decide, by decide, fun h => (by cases h), by decide⟩, ⟨fun _ => rfl, by decide⟩, ⟨by decide, by decide⟩,
    ⟨by decide, fun _ => rfl, fun h => absurd rfl h, fun h => absurd rfl h, trivial⟩, ?_, by unfold LoopbackOk; decide⟩
  intro _ _ _ h
  cases h

/-- Between the two writes of a divisor: the pair may differ from the divisor in use. -/
theorem halfSet_inv : Inv { halfSet with baudl := 5, divActive := 5 } := by
  refine ⟨by decide, by decide, by unfold FormatLegal; decide, by unfold FifoBounded; decide,
    ⟨by decide, by decide, by decide, by decide⟩,
    ⟨by decide, by decide, fun h => (by cases h), by decide⟩, ⟨fun h => absurd rfl (h 18), fun h => by cases h⟩,
    ⟨by decide, by decide⟩,
    ⟨by decide, fun h => absurd rfl h, fun _ => ⟨_, ⟨_, rfl, rfl⟩, ?_⟩, fun h => absurd rfl h, trivial⟩, ?_,
    by unfold LoopbackOk; decide⟩
  · exact ⟨by decide, [.txen false, .rxen false, .baudh 0], by decide, by decide,
    by simp [Shows, halfSet, ready, atReset, State.launch]⟩
  · intro _ _ _ h
    cases h

theorem witness_StepKeepsInvariant :
    (Inv (ready [0x20009600]) ∧ ∃ t, step (ready [0x20009600]) = .next t) ∧
    (Inv { halfSet with baudl := 5, divActive := 5 } ∧ ∃ t, step { halfSet with baudl := 5, divActive := 5 } = .next t) :=
  ⟨⟨ready_inv, _, rfl⟩, halfSet_inv, _, rfl⟩

theorem witness_InvariantStateNeverStops : Inv (ready [0x20009600]) := ready_inv

/-- A step that completes a command, one that does not, and reset. -/
theorem witness_CommandIndexAdvancesByOne :
    (∃ t, step halfEnabled = .next t ∧ nextEvent halfEnabled ≠ .reset ∧ t.ci = 1) ∧
    (∃ t, step (ready [0x60000000]) = .next t ∧ nextEvent (ready [0x60000000]) ≠ .reset ∧ t.ci = 0) ∧
    (∃ t, step (before .reset (ready [])) = .next t ∧ nextEvent (before .reset (ready [])) = .reset) :=
  ⟨⟨_, rfl, by decide, rfl⟩, ⟨_, rfl, by decide, rfl⟩, ⟨_, rfl, rfl⟩⟩

/-- INIT steps: the first changes two flags, a width access the format, the one after it EXT; a configured state. -/
theorem witness_FormatFixedOnceConfigured :
    (∃ t, SeqOk (atReset [0x10000E61]) ∧ step (atReset [0x10000E61]) = .next t ∧ nextEvent (atReset [0x10000E61]) ≠ .reset ∧
      t.modef ≠ (atReset []).modef ∧ t.u2xf ≠ (atReset []).u2xf) ∧
    (∃ t, SeqOk halfInit ∧ step halfInit = .next t ∧ formatOf t ≠ formatOf halfInit) ∧
    (∃ t, SeqOk wideInit ∧ step wideInit = .next t ∧ t.ext ≠ wideInit.ext ∧ Fetches wideInit (.init true true 9 2 1) ∧
      t.ext = true) ∧
    SeqOk (ready []) ∧ (ready []).configured = true ∧ (ready []).divSet = true :=
  ⟨⟨_, ⟨by decide, fun _ => rfl, fun h => absurd rfl h, fun h => absurd rfl h, trivial⟩, rfl, by decide, by decide, by decide⟩,
    ⟨_, ⟨by decide, fun h => absurd rfl h, fun _ => ⟨_, halfInit_underWay⟩, fun h => absurd rfl h, trivial⟩, rfl, by decide⟩,
    ⟨_, ⟨by decide, fun h => absurd rfl h, fun _ => ⟨_, wideInit_underWay⟩, fun h => absurd rfl h, trivial⟩, rfl, by decide,
      wideInit_underWay.1, rfl⟩,
    ⟨by decide, fun _ => rfl, fun h => absurd rfl h, fun h => absurd rfl h, trivial⟩, rfl, rfl⟩

/-- A SETBAUD that changes the divisor, an RXBYTE and an RXLINE that change RES. -/
theorem witness_DivisorAndResultWriters :
    (∃ t, SeqOk halfSet ∧ step halfSet = .next t ∧ nextEvent halfSet ≠ .reset ∧ t.divActive ≠ halfSet.divActive) ∧
    (∃ t, SeqOk { waiting .rxbWait 0x60000000 with rxfifo := [good 0x41] } ∧
      step { waiting .rxbWait 0x60000000 with rxfifo := [good 0x41] } = .next t ∧ t.res ≠ (ready []).res) ∧
    (∃ t, SeqOk (waiting (.rxl 9) 0x70000000) ∧ step (waiting (.rxl 9) 0x70000000) = .next t ∧ t.res ≠ (ready []).res) :=
  ⟨⟨_, halfSet_seqOk, rfl, by decide, by decide⟩,
    ⟨_, ⟨by decide, fun _ => rfl, fun h => absurd rfl h, fun h => absurd rfl h, _, rfl, rfl⟩, rfl, by decide⟩,
    ⟨_, witness_WaitingCommandResumes.2.2.2.2.2.1, rfl, by decide⟩⟩

/-- A buffered character, a SHIFT, and a write of BAUDL with a frame in TSR. -/
theorem witness_CharactersLeaveInOrder :
    (∃ t, step (waiting (.txbWait 0x41) 0x40000041) = .next t ∧ nextEvent (waiting (.txbWait 0x41) 0x40000041) ≠ .reset ∧
      formatOf t = formatOf (waiting (.txbWait 0x41) 0x40000041)) ∧
    (∃ t, step (loaded .txShift (ready [])) = .next t ∧ formatOf t = formatOf (loaded .txShift (ready []))) ∧
    (∃ t, step (loaded .sequencer halfSet) = .next t ∧ formatOf t = formatOf (loaded .sequencer halfSet) ∧
      (loaded .sequencer halfSet).pending = .baudl 18 :: []) :=
  ⟨⟨_, rfl, by decide, rfl⟩, ⟨_, rfl, rfl⟩, ⟨_, rfl, rfl, rfl⟩⟩

theorem witness_WireLogOnlyGrows :
    (∃ t, step (loaded .txShift (ready [])) = .next t ∧ nextEvent (loaded .txShift (ready [])) ≠ .reset ∧
      (loaded .txShift (ready [])).txc = false ∧ t.txc = true) ∧
    { ready [] with txc := true }.txc = true :=
  ⟨⟨_, rfl, by decide, rfl, rfl⟩, rfl⟩

/-- Stuck by itself in each way: UDRE with TXEN = 0, RXC with RXEN = 0, RXC in loopback with nothing left to come. -/
theorem witness_stuckState :
    Stuck { waiting (.txbWait 0x41) 0x40000041 with txbuf := some 0x42, txen := false } ∧
    Stuck { waiting .rxbWait 0x60000000 with rxen := false } ∧
    Stuck { waiting (.rxl 2) 0x70000000 with params := { Params.examples with loopback := true } } ∧
    ∃ t, step { waiting .rxbWait 0x60000000 with rxen := false } = .next t :=
  ⟨.inl ⟨trivial, by decide, rfl⟩, .inr ⟨trivial, rfl, .inl rfl⟩,
    .inr ⟨⟨rfl, .inl (by decide)⟩, rfl, .inr ⟨rfl, rfl, rfl, .inl rfl⟩⟩, _, rfl⟩

/-- A peer that never offers a frame: a fair run that is stuck with RXEN = 1. And a fair run stuck by its first state. -/
theorem witness_stuckRun :
    (FairRun (eventsOf []) (follow [] (waiting .rxbWait 0x60000000)) ∧ NoReset (eventsOf []) 0 ∧
      Waits (waiting .rxbWait 0x60000000) ∧ (waiting .rxbWait 0x60000000).rxen = true ∧
      StuckIn (eventsOf []) (follow [] (waiting .rxbWait 0x60000000)) 0) ∧
    (FairRun (eventsOf []) (follow [] { waiting .rxbWait 0x60000000 with rxen := false }) ∧
      Stuck (follow [] { waiting .rxbWait 0x60000000 with rxen := false } 0)) := by
  refine ⟨⟨follow_fair (k := 0) (by decide) (by decide) rfl rfl (by unfold LoadEnabled; decide)
    (by unfold ShiftEnabled; decide) (fun h => h rfl),
    eventsOf_noReset (by simp) 0, .inr trivial, rfl, .inr ⟨trivial, rfl, .inr ?_⟩⟩,
    follow_fair (k := 0) (by decide) (by decide) rfl rfl (by unfold LoadEnabled; decide)
    (by unfold ShiftEnabled; decide) (fun h => h rfl),
    witness_stuckState.2.1⟩
  rintro m _ ⟨⟨free, h⟩, _⟩
  cases h

/-- A wait for RXC that ends: an offer, the sequencer's turn. -/
theorem witness_endingRun :
    FairRun (eventsOf [.offer 0x7FF, .sequencer]) (follow [.offer 0x7FF, .sequencer] (waiting .rxbWait 0x60000000)) ∧
    NoReset (eventsOf [.offer 0x7FF, .sequencer]) 0 ∧ WaitsRx (waiting .rxbWait 0x60000000) ∧
    (waiting .rxbWait 0x60000000).rxfifo = [] ∧
    ¬ WaitsRx (follow [.offer 0x7FF, .sequencer] (waiting .rxbWait 0x60000000) 2) :=
  ⟨follow_fair (k := 2) (by decide) (by decide) rfl rfl (by unfold LoadEnabled; decide) (by unfold ShiftEnabled; decide)
      (Nat.lt_irrefl 1), eventsOf_noReset (by simp) 0, trivial, rfl, id⟩

theorem witness_StuckUntilReset :
    Stuck { waiting .rxbWait 0x60000000 with rxen := false } ∧
    (IsRun (eventsOf []) (follow [] (waiting .rxbWait 0x60000000)) ∧ NoReset (eventsOf []) 0 ∧
      StuckIn (eventsOf []) (follow [] (waiting .rxbWait 0x60000000)) 0) ∧
    (FairRun (eventsOf [.offer 0x7FF, .sequencer]) (follow [.offer 0x7FF, .sequencer] (waiting .rxbWait 0x60000000)) ∧
      Waits (waiting .rxbWait 0x60000000)) :=
  ⟨witness_stuckState.2.1, ⟨witness_stuckRun.1.1.1, witness_stuckRun.1.2.1, witness_stuckRun.1.2.2.2.2⟩,
    witness_endingRun.1, .inr trivial⟩

/-- `TXB_WAIT` with TXBUF and TSR full, whose character and the two before it a fair run sends. -/
def crowded : State := loaded .txShift { waiting (.txbWait 0x42) 0x40000042 with txbuf := some 0x41 }

/-- The turns that send them. -/
def crowdedTurns : List Event := [.txShift, .txLoad, .sequencer, .txShift, .txLoad, .txShift]

/-- `TXB_WAIT` with TXBUF and TSR full, and `TXL_WAIT` with both empty; a fair run; a wait for RXC that ends. -/
theorem witness_TransmitWaitEnds :
    (WaitsTx (draining crowded) ∧ (draining crowded).txen = true ∧ formatOf (draining crowded) ≠ none ∧
      (draining crowded).agenda = .txShift :: .txLoad :: .sequencer :: []) ∧
    WaitsTx (draining (waiting (.txlWait 0x200 0x4F) 0x50000200)) ∧
    (FairRun (eventsOf crowdedTurns) (follow crowdedTurns crowded) ∧ NoReset (eventsOf crowdedTurns) 0 ∧
      WaitsTx (follow crowdedTurns crowded 0) ∧ (follow crowdedTurns crowded 0).txen = true) ∧
    (IsRun (eventsOf [.offer 0x7FF, .sequencer]) (follow [.offer 0x7FF, .sequencer] (waiting .rxbWait 0x60000000)) ∧
      WaitsRx (waiting .rxbWait 0x60000000) ∧ (waiting .rxbWait 0x60000000).rxfifo = [] ∧
      ¬ WaitsRx (follow [.offer 0x7FF, .sequencer] (waiting .rxbWait 0x60000000) 2)) :=
  ⟨⟨trivial, by decide, by decide, by decide⟩, trivial,
    ⟨follow_fair (k := 6) (by decide) (by decide) rfl rfl (by unfold LoadEnabled; decide) (by unfold ShiftEnabled; decide)
      (Nat.lt_irrefl 1), eventsOf_noReset (by decide) 0, trivial, rfl⟩,
    ⟨witness_endingRun.1.1, witness_endingRun.2.2⟩⟩

/-- The end of a program, with an offer coming. -/
theorem witness_FinalStateStaysFinal :
    Final (before (.offer 0) (ready [])) ∧ (∃ t, step (before (.offer 0) (ready [])) = .next t) ∧
    nextEvent (before (.offer 0) (ready [])) ≠ .reset ∧ (ready []).params.loopback = false ∧
    nextEvent (before .txLoad (ready [])) = .txLoad :=
  ⟨⟨rfl, rfl, rfl, rfl⟩, ⟨_, rfl⟩, by decide, rfl, rfl⟩

/-- Two states whose draws differ, those of a corrupt frame among them. -/
theorem witness_DrawsNotObserved :
    { ready [] with tsr := some { bits := [false, true], corrupt := true } }.agenda = .sequencer :: [] ∧
    forgetDraws { ready [] with tsr := some { bits := [false, true], corrupt := true } } =
      forgetDraws { ready [] with draws := 7, tsr := some { bits := [true, true], corrupt := true } } := by decide

end Sys2Proof.Tests
end

section
/-! PROOF. The state family: what reset leaves in every piece of state (spec/10_state.md R38, spec/70_reset_and_hazards.md R130),
and how CI moves (R15). -/

namespace Sys2Proof.Machine

/-! ## Host memory: reading back what was written -/

/-- In canonical form a written byte is read back, 0x00 included: an address is listed at most once. -/
theorem memRead_memWrite_same {lo : Nat} {m : Memory} (hm : memWfFrom lo m = true) (a : Nat) (v : Byte) :
    memRead (memWrite m a v) a = v := by
  induction m generalizing lo with
  | nil =>
    unfold memWrite
    split_ifs with hv <;> simp [memRead, hv]
  | cons c m ih =>
    obtain ⟨a', b⟩ := c
    have ⟨_, ha', hb, htail⟩ := memWfFrom_cons.mp hm
    unfold memWrite
    split_ifs with hlt hv heq hv
    · exact (memRead_below (memWfFrom_cons.mpr ⟨le_refl a', ha', hb, htail⟩) hlt).trans hv.symm
    · simp [memRead]
    · exact (memRead_below htail (by omega)).trans hv.symm
    · simp [memRead]
    · simpa only [memRead, if_neg heq] using ih htail

/-- Zeroing the line buffer makes each of its bytes 0x00. -/
theorem memRead_memZero_inside {m : Memory} (hm : Memory.wf m = true) (base : Nat) {k j : Nat} (hj : j < k) :
    memRead (memZero m base k) (base + j) = 0 := by
  induction k with
  | zero => omega
  | succ k ih =>
    unfold memZero
    by_cases hjk : j = k
    · subst hjk
      exact memRead_memWrite_same (memZero_wf hm base j) _ _
    · rw [memRead_memWrite_ne (by omega)]
      exact ih (by omega)

/-! ## Reset -/

/-- The reset event's step, from any state. -/
theorem step_of_reset {s : State} (he : nextEvent s = .reset) : step s = .next (resetBlock (afterEvent s)) := by
  rw [step_eq, he]
  rfl

@[simp] theorem resetBlock_mem (s : State) : (resetBlock s).mem = memZero s.mem s.params.linebufBase.toNat 10 := rfl

/-- UDRE alone stands in STATA after reset. -/
@[simp] theorem stataByte_resetBlock (s : State) : stataByte (resetBlock s) = 0x20 :=
  (show stataByte (resetBlock s) = stataByte State.reset from rfl).trans (by decide)

/-- CTRLB after reset is 0x00 but for RXB8, a draw with an empty FIFO (R24, R38). -/
theorem ctrlbByte_resetBlock (s : State) : ctrlbByte (resetBlock s) = 0x00 ∨ ctrlbByte (resetBlock s) = 0x02 := by
  have hb : ctrlbByte (resetBlock s) =
      byteOf false false false false false false (Config.freeBit s.draws) false := rfl
  rw [hb]
  cases Config.freeBit s.draws
  · exact Or.inl rfl
  · exact Or.inr rfl

@[simp] theorem ctrlcByte_resetBlock (s : State) : ctrlcByte (resetBlock s) = 0x06 :=
  (show ctrlcByte (resetBlock s) = ctrlcByte State.reset from rfl).trans (by decide)

@[simp] theorem fsz_resetBlock (s : State) : fsz (resetBlock s) = 3 :=
  (show fsz (resetBlock s) = fsz State.reset from rfl).trans (by decide)

/-- The line buffer holds 0x00 after reset. -/
theorem memRead_resetBlock_line {s : State} (hm : Memory.wf s.mem = true) {j : Nat} (hj : j < 10) :
    memRead (resetBlock s).mem (lineAddr s j) = 0 := by
  rw [resetBlock_mem]
  exact memRead_memZero_inside hm _ hj

/-- Reset keeps host memory outside the line buffer. -/
theorem memRead_resetBlock_outside {s : State} {a : Nat} (ha : a < lineAddr s 0 ∨ lineAddr s 9 < a) :
    memRead (resetBlock s).mem a = memRead s.mem a := by
  unfold lineAddr at ha
  rw [resetBlock_mem]
  exact memRead_memZero_outside s.mem (by omega)

/-- Settles O47: the step is `resetBlock`, a launch value in every field but the model's inputs; the line buffer by the two
memory lemmas above. -/
theorem resetSetsEverything : Obligations.ResetSetsEverything := by
  unfold Obligations.ResetSetsEverything
  intro s he hm
  refine ⟨resetBlock (afterEvent s), step_of_reset he, rfl, rfl, rfl, rfl, rfl, stataByte_resetBlock _,
    ctrlbByte_resetBlock _, ctrlcByte_resetBlock _, fsz_resetBlock _, rfl, rfl, rfl, rfl, rfl, rfl, rfl, rfl, rfl, rfl, rfl,
    rfl, rfl, rfl, fun j hj => ?_, fun a ha => ?_⟩
  · rw [← lineAddr_afterEvent]
    exact memRead_resetBlock_line (by rwa [afterEvent_mem]) hj
  · rw [← afterEvent_mem s]
    exact memRead_resetBlock_outside (by simpa only [lineAddr_afterEvent] using ha)

/-! ## The command index -/

@[simp] theorem sendChar_ci (v : Word16) (s : State) : (sendChar v s).ci = s.ci := by rw [sendChar_eq]

@[simp] theorem initEnd_ci (s : State) : (initEnd s).ci = s.ci + 1 := rfl
@[simp] theorem initEnd_seq (s : State) : (initEnd s).seq = .idle := rfl
@[simp] theorem setbaudEnd_ci (s : State) : (setbaudEnd s).ci = s.ci + 1 := rfl
@[simp] theorem setbaudEnd_seq (s : State) : (setbaudEnd s).seq = .idle := rfl

/-- A move of the sequencer keeps CI or completes a command: CI one more, SEQ at IDLE, and it was not FAULTED (R71). -/
theorem SeqMove.ci_cases {s t : State} (h : SeqMove s t) :
    t.ci = s.ci ∨ (t.ci = s.ci + 1 ∧ t.seq = .idle ∧ s.seq ≠ .faulted) := by
  cases h with
  | initLast hq => exact Or.inr ⟨by simp, by simp, by simp [hq]⟩
  | setbaudLast hq => exact Or.inr ⟨by simp, by simp, by simp [hq]⟩
  | enableLast hq => exact Or.inr ⟨by simp, by simp, by simp [hq]⟩
  | txbyteSend hq => exact Or.inr ⟨by simp, by simp, by simp [hq]⟩
  | txlineEnd hq => exact Or.inr ⟨by simp, by simp, by simp [hq]⟩
  | rxbyteTake hq => exact Or.inr ⟨by simp, by simp, by simp [hq]⟩
  | rxlineEnd hq => exact Or.inr ⟨rfl, rfl, by simp [hq]⟩
  | rxlineCap hq => exact Or.inr ⟨rfl, rfl, by simp [hq]⟩
  | _ => exact Or.inl (by simp)

/-- No engine and no offer moves CI. -/
theorem EngineMove.ci_eq {s t : State} (h : EngineMove s t) : t.ci = s.ci := by
  cases h <;> rfl

/-- Settles O52, by the cases of a step: the sequencer's moves, the engines' moves, reset. -/
theorem commandIndexAdvancesByOne : Obligations.CommandIndexAdvancesByOne := by
  unfold Obligations.CommandIndexAdvancesByOne
  refine ⟨fun p program mem => rfl, fun s t h hne => ?_, fun s t h he => ?_⟩
  · rcases step_cases h with ⟨he, hm⟩ | ⟨_, _, hm⟩ | ⟨he, _⟩
    · have hci := hm.ci_cases
      rw [afterEvent_ci, afterEvent_seq] at hci
      exact hci.imp_right fun ⟨hci, hidle, hseq⟩ => ⟨hci, hidle, he, hseq⟩
    · exact Or.inl (hm.ci_eq.trans (afterEvent_ci s))
    · exact absurd he hne
  · rw [step_of_reset he] at h
    cases h
    rfl

end Sys2Proof.Machine
end

section
/-! PROOF. The encoding family: a row's match and mask say what the decoder checks (spec/30_encoding.md R62, R63). -/

namespace Sys2Proof

open Sys2Proof.Laws.OpField (reservedFrom)

/-! ## The fields under a row's mask -/

/-- `reservedFrom` as a function of the OP field: the format, and so the reserved field, is the row's and not the command's. -/
def reservedFromOp : Nat → Nat
  | 1 => 12
  | 2 => 28
  | 4 | 5 => 16
  | _ => 0

theorem reservedFrom_eq (i : Instr) : reservedFrom i = reservedFromOp (opOf i) := by
  cases i <;> rfl

/-- A row's mask keeps the bits from the reserved field's lowest up, so the reserved field and OP. -/
theorem maskOf_eq_allOnes_shiftLeft (i : Instr) : maskOf i = BitVec.allOnes 32 <<< reservedFrom i := by
  cases i <;> simp only [maskOf, reservedFrom] <;> decide

/-- Masking tests the two fields the decoder tests. SETBAUD has no reserved field: `slice w 27 28` reads bit 28, which is 0 in
its OP field. -/
theorem and_maskOf_eq_matchOf_iff_fields (w : CmdWord) (i : Instr) :
    w &&& maskOf i = matchOf i ↔ slice w 31 28 = opOf i ∧ slice w 27 (reservedFrom i) = 0 := by
  have hw := w.isLt
  rw [maskOf_eq_allOnes_shiftLeft, ← BitVec.shiftLeft_ushiftRight, ← BitVec.toNat_inj, BitVec.toNat_shiftLeft,
    BitVec.toNat_ushiftRight, Nat.shiftLeft_eq, Nat.shiftRight_eq_div_pow]
  cases i <;> simp only [slice, reservedFrom, matchOf, opOf, BitVec.toNat_ofNat] <;> omega

/-! ## The decoder's rows -/

/-- What the decoder has checked of a word it accepts (R63). -/
theorem fields_of_decode {w : CmdWord} {i : Instr} (h : decode w = .ok i) :
    slice w 31 28 = opOf i ∧ slice w 27 (reservedFrom i) = 0 := by
  unfold decode at h
  split_ifs at h with hop hr hop hop hr hop hr hop hr hop hr hop hr <;> cases h
  case pos.refl =>
    refine ⟨hop, ?_⟩
    simp only [slice, reservedFrom] at hop ⊢
    omega
  all_goals exact ⟨hop, not_not.mp hr⟩

/-- The decoder accepts every word with a row's OP field and reserved field 0, as a command of that row (R63). -/
theorem decode_of_fields {w : CmdWord} {i : Instr} (hop : slice w 31 28 = opOf i)
    (hr : slice w 27 (reservedFrom i) = 0) : ∃ j, decode w = .ok j ∧ opOf j = opOf i := by
  cases i <;> simp only [opOf, reservedFrom] at hop hr <;> simp [decode, hop, hr, opOf]

/-- A word matches a row exactly when the decoder gives a command of that row (R62). -/
theorem and_maskOf_eq_matchOf_iff_decode (w : CmdWord) (i : Instr) :
    w &&& maskOf i = matchOf i ↔ ∃ j, decode w = .ok j ∧ opOf j = opOf i := by
  rw [and_maskOf_eq_matchOf_iff_fields]
  constructor
  · rintro ⟨hop, hr⟩
    exact decode_of_fields hop hr
  · rintro ⟨j, hj, hrow⟩
    rw [reservedFrom_eq, ← hrow, ← reservedFrom_eq]
    exact fields_of_decode hj

/-- Some command, by the rows of the opcode map. -/
theorem exists_instr {P : Instr → Prop} :
    (∃ i, P i) ↔ (∃ m d f p t, P (.init m d f p t)) ∨ (∃ bps, P (.setbaud bps)) ∨ P .enable ∨ (∃ v, P (.txbyte v)) ∨
      (∃ a, P (.txline a)) ∨ P .rxbyte ∨ P .rxline := by
  constructor
  · rintro ⟨i, h⟩
    cases i with
    | init m d f p t => exact .inl ⟨m, d, f, p, t, h⟩
    | setbaud bps => exact .inr (.inl ⟨bps, h⟩)
    | enable => exact .inr (.inr (.inl h))
    | txbyte v => exact .inr (.inr (.inr (.inl ⟨v, h⟩)))
    | txline a => exact .inr (.inr (.inr (.inr (.inl ⟨a, h⟩))))
    | rxbyte => exact .inr (.inr (.inr (.inr (.inr (.inl h)))))
    | rxline => exact .inr (.inr (.inr (.inr (.inr (.inr h)))))
  · rintro (⟨_, _, _, _, _, h⟩ | ⟨_, h⟩ | h | ⟨_, h⟩ | ⟨_, h⟩ | h | h) <;> exact ⟨_, h⟩

/-- Settles O3: each part is the row lemma at a command of that row, whose operands neither side reads. -/
theorem wordMatchesRow : Obligations.WordMatchesRow := by
  unfold Obligations.WordMatchesRow
  intro w
  have row (i : Instr) := and_maskOf_eq_matchOf_iff_decode w i
  simp only [exists_instr] at row
  refine ⟨?_, ?_, ?_, ?_, ?_, ?_, ?_⟩
  · simpa [maskOf, matchOf, opOf] using row (.init false false 0 0 0)
  · simpa [maskOf, matchOf, opOf] using row (.setbaud 0)
  · simpa [maskOf, matchOf, opOf] using row .enable
  · simpa [maskOf, matchOf, opOf] using row (.txbyte 0)
  · simpa [maskOf, matchOf, opOf] using row (.txline 0)
  · simpa [maskOf, matchOf, opOf] using row .rxbyte
  · simpa [maskOf, matchOf, opOf] using row .rxline

end Sys2Proof
end

section
/-! PROOF. The engines family: LOAD, SHIFT and the wire log they write (spec/43_frame_codec.md R96, R97, R99). -/

namespace Sys2Proof.Machine

variable {s t : State}

/-! ## The TX engine's steps -/

/-- LOAD, enabled (R96). -/
theorem txLoad_of_loadEnabled {v : Char9} {f : Format} (hx : s.txen = true) (hb : s.txbuf = some v) (ht : s.tsr = none)
    (hf : formatOf s = some f) :
    txLoad s = .next { s with tsr := some { bits := encodeFrame f v, corrupt := false }, txbuf := none } := by
  simp only [txLoad, hx, hb, ht, hf]

/-- LOAD, not enabled: an engine without an enabled step changes nothing (log 4). -/
theorem txLoad_of_not_loadEnabled (h : ¬ LoadEnabled s) : txLoad s = .next s := by
  unfold txLoad
  split
  · rename_i v hx hb ht
    exact absurd ⟨hx, by simp [hb], ht⟩ h
  · rfl

/-- SHIFT, enabled (R97). -/
theorem txShift_of_some {fr : Frame} (ht : s.tsr = some fr) :
    txShift s = .next { s with txwire := s.txwire ++ [fr], tsr := none, txc := s.txc || udre s } := by
  simp only [txShift, ht, emit]

/-- SHIFT, not enabled. -/
theorem txShift_of_none (ht : s.tsr = none) : txShift s = .next s := by
  simp only [txShift, ht]

/-- UDRE is 0 exactly with TXBUF full. -/
theorem udre_eq_false_iff : udre s = false ↔ s.txbuf ≠ none := by
  rw [← Bool.not_eq_true, udre_iff]

/-- LOAD's step. -/
theorem step_of_txLoad (he : nextEvent s = .txLoad) : step s = txLoad (afterEvent s) := by
  rw [step_eq, he]
  rfl

/-- SHIFT's step. -/
theorem step_of_txShift (he : nextEvent s = .txShift) : step s = txShift (afterEvent s) := by
  rw [step_eq, he]
  rfl

/-- Taking the event leaves LOAD enabled or not. -/
@[simp] theorem loadEnabled_afterEvent (s : State) : LoadEnabled (afterEvent s) ↔ LoadEnabled s := by
  simp only [LoadEnabled, afterEvent_txen, afterEvent_txbuf, afterEvent_tsr]

/-- Settles O31: LOAD enabled and not enabled, at the state with the event taken. -/
theorem loadMovesBufferToShifter : Obligations.LoadMovesBufferToShifter := by
  unfold Obligations.LoadMovesBufferToShifter
  intro s he
  rw [step_of_txLoad he]
  refine ⟨fun v f hx hb ht hf => ?_, fun h => txLoad_of_not_loadEnabled ?_⟩
  · exact txLoad_of_loadEnabled (by simpa using hx) (by simpa using hb) (by simpa using ht) (by simpa using hf)
  · rw [loadEnabled_afterEvent]
    rintro ⟨hx, hb, ht⟩
    rcases h with h | h | h
    · exact Bool.false_ne_true (h.symm.trans hx)
    · exact hb h
    · exact h ht

/-- Settles O32: SHIFT with TSR full, where UDRE says what TXC becomes, and with TSR empty. -/
theorem shiftSendsFrame : Obligations.ShiftSendsFrame := by
  unfold Obligations.ShiftSendsFrame
  intro s he
  rw [step_of_txShift he]
  refine ⟨fun fr ht hb => ?_, fun fr ht hb => ?_, fun ht => txShift_of_none (by simpa using ht)⟩
  · rw [txShift_of_some (by simpa using ht), udre_afterEvent, udre_iff.mpr hb, Bool.or_true, afterEvent_txwire]
  · rw [txShift_of_some (by simpa using ht), udre_afterEvent, udre_eq_false_iff.mpr hb, Bool.or_false, afterEvent_txwire]

/-! ## Who writes TXWIRE and TXC -/

@[simp] theorem sendChar_txwire (v : Word16) (s : State) : (sendChar v s).txwire = s.txwire := by rw [sendChar_eq]
@[simp] theorem sendChar_txc (v : Word16) (s : State) : (sendChar v s).txc = s.txc := by rw [sendChar_eq]
@[simp] theorem initEnd_txwire (s : State) : (initEnd s).txwire = s.txwire := rfl
@[simp] theorem initEnd_txc (s : State) : (initEnd s).txc = s.txc := rfl
@[simp] theorem setbaudEnd_txwire (s : State) : (setbaudEnd s).txwire = s.txwire := rfl
@[simp] theorem setbaudEnd_txc (s : State) : (setbaudEnd s).txc = s.txc := rfl

/-- The sequencer writes neither: no access and no end of a command does. -/
theorem SeqMove.txwire_txc_eq (h : SeqMove s t) : t.txwire = s.txwire ∧ t.txc = s.txc := by
  cases h <;> simp

/-- LOAD writes neither. -/
theorem txLoad_txwire_txc (h : txLoad s = .next t) : t.txwire = s.txwire ∧ t.txc = s.txc := by
  rcases txLoad_next h with rfl | ⟨_, _, _, _, _, _, rfl⟩ <;> exact ⟨rfl, rfl⟩

/-- RECEIVE writes neither. -/
theorem receive_txwire_txc {free : BitVec 11} {src : Option Frame} (h : receive free src s = .next t) :
    t.txwire = s.txwire ∧ t.txc = s.txc := by
  rcases receive_next h with ⟨_, rfl⟩ | ⟨_, _, _, _, rfl⟩ | ⟨_, _, rfl⟩ <;> exact ⟨rfl, rfl⟩

/-- An offer writes neither: in loopback it moves LBPTR only before RECEIVE. -/
theorem offerFrame_txwire_txc {free : BitVec 11} (h : offerFrame free s = .next t) :
    t.txwire = s.txwire ∧ t.txc = s.txc := by
  rcases offerFrame_next h with ⟨_, _, rfl⟩ | ⟨_, _, _, h⟩ | ⟨_, h⟩
  · exact ⟨rfl, rfl⟩
  · exact receive_txwire_txc (s := { s with lbptr := s.lbptr + 1 }) h
  · exact receive_txwire_txc h

/-- A step but reset keeps TXWIRE and TXC, or it is SHIFT with TSR full (R99). -/
theorem step_txwire_txc_cases (h : step s = .next t) (hr : nextEvent s ≠ .reset) :
    (t.txwire = s.txwire ∧ t.txc = s.txc) ∨
    ∃ fr, nextEvent s = .txShift ∧ s.tsr = some fr ∧ t.txwire = s.txwire ++ [fr] ∧ t.txc = (s.txc || udre s) := by
  rw [step_eq] at h
  rw [← afterEvent_txwire s, ← afterEvent_txc s, ← afterEvent_tsr s, ← udre_afterEvent s]
  cases he : nextEvent s with
  | sequencer => rw [he] at h; exact Or.inl (sequencerTurn_move h).txwire_txc_eq
  | txLoad => rw [he] at h; exact Or.inl (txLoad_txwire_txc h)
  | txShift =>
    rw [he] at h
    rcases txShift_next h with ⟨_, rfl⟩ | ⟨fr, ht, rfl⟩
    · exact Or.inl ⟨rfl, rfl⟩
    · exact Or.inr ⟨fr, rfl, ht, rfl, rfl⟩
  | offer free => rw [he] at h; exact Or.inl (offerFrame_txwire_txc h)
  | reset => exact absurd he hr

/-- Settles O56, by the two cases of a step on TXWIRE and TXC. -/
theorem wireLogOnlyGrows : Obligations.WireLogOnlyGrows := by
  unfold Obligations.WireLogOnlyGrows
  intro s t h hr
  rcases step_txwire_txc_cases h hr with ⟨hw, hc⟩ | ⟨fr, he, ht, hw, hc⟩
  · refine ⟨Or.inl hw, fun hs => hc.trans hs, fun hs hset => ?_⟩
    exact absurd ((hc.trans hs).symm.trans hset) Bool.false_ne_true
  · refine ⟨Or.inr ⟨fr, he, ht, hw⟩, fun hs => by rw [hc, hs, Bool.true_or], fun hs hset => ?_⟩
    have hu : udre s = true := by rwa [hc, hs, Bool.false_or] at hset
    exact ⟨he, by simp [ht], udre_iff.mp hu⟩

end Sys2Proof.Machine
end

section
/-! PROOF. The character commands TXBYTE and RXBYTE (spec/44_char_io.md R106 to R109). -/

namespace Sys2Proof.Machine

variable {s : State}

/-! ## A character as a number -/

/-- A ninth bit before a byte, as one 9-bit number. -/
theorem ofBool_append_byte (b : Bool) (c : Byte) :
    (BitVec.ofBool b ++ c : BitVec (1 + 8)) = BitVec.ofNat 9 (b.toNat * 256 + c.toNat) := by
  have hlt : b.toNat * 256 + c.toNat < 2 ^ 9 := by
    have := b.toNat_lt
    omega
  apply BitVec.eq_of_toNat_eq
  rw [BitVec.toNat_append, ← Nat.shiftLeft_add_eq_or_of_lt c.isLt, Nat.shiftLeft_eq, BitVec.toNat_ofBool,
    BitVec.toNat_ofNat, Nat.mod_eq_of_lt hlt]

/-- `send_char` with the buffered character as a number. -/
theorem sendChar_eq_ofNat {v : Word16} {ninth : Bool} (hn : ninth = if s.ext then v.getLsbD 8 else s.txb8) :
    sendChar v s =
      { s with txb8 := ninth, txbuf := some (BitVec.ofNat 9 (ninth.toNat * 256 + v.toNat % 256)) } := by
  rw [sendChar_eq, ← hn, ofBool_append_byte, BitVec.toNat_setWidth]

/-- What RXBYTE makes of the character it reads: nine bits with EXT = 1, the low eight otherwise, zero-extended. -/
theorem readChar_setWidth16 {e : RxEntry} {more : List RxEntry} (h : s.rxfifo = e :: more) :
    (readChar s).1.setWidth 16 = BitVec.ofNat 16 (if s.ext then e.data.toNat else e.data.toNat % 256) := by
  rw [readChar_cons h]
  apply BitVec.eq_of_toNat_eq
  cases s.ext <;> simp

/-- RXC is 0 exactly with RXFIFO empty. -/
theorem rxc_eq_false_iff : rxc s = false ↔ s.rxfifo = [] := by
  unfold rxc
  cases s.rxfifo <;> simp

/-! ## The waiting steps -/

/-- TXB_WAIT with UDRE = 1: the character is sent and TXBYTE completes. -/
theorem txbWaitStep_of_empty (v : Word16) (h : s.txbuf = none) :
    txbWaitStep v s = .next (complete (sendChar v s)) := if_pos (udre_iff.mpr h)

/-- TXB_WAIT with UDRE = 0 takes no step. -/
theorem txbWaitStep_of_full (v : Word16) (h : s.txbuf ≠ none) : txbWaitStep v s = .next s :=
  if_neg (mt udre_iff.mp h)

/-- RXB_WAIT with RXC = 1: the oldest character goes to RES and RXBYTE completes. -/
theorem rxbWaitStep_of_cons {e : RxEntry} {more : List RxEntry} (h : s.rxfifo = e :: more) :
    rxbWaitStep s = .next (complete { s with
      res := BitVec.ofNat 16 (if s.ext then e.data.toNat else e.data.toNat % 256), rxfifo := more, dor := false }) := by
  have hc : rxc s = true := rxc_iff.mpr ⟨e, more, h⟩
  rw [rxbWaitStep, if_pos hc, readChar_setWidth16 h, readChar_cons h]

/-- RXB_WAIT with RXC = 0 takes no step. -/
theorem rxbWaitStep_of_nil (h : s.rxfifo = []) : rxbWaitStep s = .next s :=
  if_neg (Bool.eq_false_iff.mp (rxc_eq_false_iff.mpr h))

/-! ## The commands, by sequencer state -/

theorem exec_txbyte_of_idle (value : Word16) (hq : s.seq = .idle) :
    exec (.txbyte value) s = .next (setSeq (.txbWait value) s) := by
  simp only [exec, execTxbyte, hq]

/-- TXB_WAIT holds the value; the operand is not read again (R107). -/
theorem exec_txbyte_of_txbWait {v : Word16} (value : Word16) (hq : s.seq = .txbWait v) :
    exec (.txbyte value) s = txbWaitStep v s := by
  simp only [exec, execTxbyte, hq]

theorem exec_rxbyte_of_idle (hq : s.seq = .idle) : exec .rxbyte s = .next (setSeq .rxbWait s) := by
  simp only [exec, execRxbyte, hq]

theorem exec_rxbyte_of_rxbWait (hq : s.seq = .rxbWait) : exec .rxbyte s = rxbWaitStep s := by
  simp only [exec, execRxbyte, hq]

/-- Settles O22: the waiting step with TXBUF empty, with TXBUF full, and the start from IDLE. -/
theorem txbyteCompletes : Obligations.TxbyteCompletes := by
  unfold Obligations.TxbyteCompletes
  intro s v value ninth
  refine ⟨fun hq hb hn => ?_, fun hq hb => ?_, fun hq => exec_txbyte_of_idle value hq⟩
  · rw [exec_txbyte_of_txbWait value hq, txbWaitStep_of_empty v hb, sendChar_eq_ofNat hn, complete]
  · rw [exec_txbyte_of_txbWait value hq, txbWaitStep_of_full v hb]

/-- Settles O26: the waiting step with a character in RXFIFO, with RXFIFO empty, and the start from IDLE. -/
theorem rxbyteCompletes : Obligations.RxbyteCompletes := by
  unfold Obligations.RxbyteCompletes
  intro s e more
  refine ⟨fun hq hr => ?_, fun hq hr => ?_, fun hq => exec_rxbyte_of_idle hq⟩
  · rw [exec_rxbyte_of_rxbWait hq, rxbWaitStep_of_cons hr, complete]
  · rw [exec_rxbyte_of_rxbWait hq, rxbWaitStep_of_nil hr]

end Sys2Proof.Machine
end

section
/-! PROOF. The exceptions family: FAULTED and its record until reset (spec/60_exceptions.md R120). -/

namespace Sys2Proof.Machine

variable {s t : State}

/-- The sequencer has no step in FAULTED. -/
theorem sequencerTurn_of_faulted (hq : s.seq = .faulted) : sequencerTurn s = .next s := by
  simp only [sequencerTurn, hq, hold]

/-- The sequencer's turn in FAULTED only takes the event. -/
theorem step_of_faulted (hq : s.seq = .faulted) (he : nextEvent s = .sequencer) : step s = .next (afterEvent s) := by
  rw [step_eq, he]
  exact sequencerTurn_of_faulted ((afterEvent_seq s).trans hq)

/-- A FAULTED state is not final: a final one is at IDLE (R78). -/
theorem not_final_of_faulted (hq : s.seq = .faulted) : ¬ Final s := by
  rintro ⟨hidle, -⟩
  exact Seq.noConfusion (hidle.symm.trans hq)

/-- No engine and no offer writes SEQ. -/
theorem EngineMove.seq_eq (h : EngineMove s t) : t.seq = s.seq := by
  cases h <;> rfl

/-- No engine and no offer writes the fault record. -/
theorem EngineMove.sameRecord (h : EngineMove s t) : SameRecord s t := by
  cases h <;> exact ⟨rfl, rfl, rfl⟩

/-- Taking the event leaves the fault record as it is. -/
theorem sameRecord_afterEvent (s : State) : SameRecord s (afterEvent s) :=
  ⟨afterEvent_fcode s, afterEvent_fsub s, afterEvent_fcmd s⟩

/-- A step but reset in FAULTED is an engine's, or only takes the event. -/
theorem engineMove_of_faulted (hq : s.seq = .faulted) (h : step s = .next t) (hr : nextEvent s ≠ .reset) :
    EngineMove (afterEvent s) t := by
  rcases step_cases h with ⟨he, _⟩ | ⟨_, _, hm⟩ | ⟨he, _⟩
  · rw [step_of_faulted hq he] at h
    cases h
    exact .idle _
  · exact hm
  · exact absurd he hr

/-- Settles O10: in FAULTED the sequencer's turn does nothing and an engine's step writes neither SEQ, the record nor CI;
reset is `resetBlock`. -/
theorem faultedUntilReset : Obligations.FaultedUntilReset := by
  unfold Obligations.FaultedUntilReset
  intro s hq
  refine ⟨not_final_of_faulted hq, step_of_faulted hq, fun t h hr => ?_, fun he => ?_⟩
  · have hm := engineMove_of_faulted hq h hr
    obtain ⟨hcode, hsub, hcmd⟩ := hm.sameRecord
    obtain ⟨hcode', hsub', hcmd'⟩ := sameRecord_afterEvent s
    exact ⟨hm.seq_eq.trans ((afterEvent_seq s).trans hq), hcode.trans hcode', hsub.trans hsub', hcmd.trans hcmd',
      hm.ci_eq.trans (afterEvent_ci s)⟩
  · exact ⟨resetBlock (afterEvent s), step_of_reset he, rfl, rfl, rfl, rfl⟩

end Sys2Proof.Machine
end

section
/-! PROOF. The encoding family: the round trips of decoder and encoder, the words the decoder refuses, and the spec's example
words (spec/30_encoding.md R57 to R64, R68). -/

namespace Sys2Proof

open Sys2Proof.Laws.OpField (reservedFrom)

/-! ## A row's command with the operands a word holds -/

/-- The command of `i`'s row with the operands that `w` holds in the fields of that row (R57 to R60). -/
def rowCommand (w : CmdWord) : Instr → Instr
  | .init _ _ _ _ _ =>
    .init (slice w 11 11 == 1) (slice w 10 10 == 1) (slice w 9 6) (BitVec.ofNat 2 (slice w 5 4)) (slice w 3 0)
  | .setbaud _ => .setbaud (slice w 27 0)
  | .enable => .enable
  | .txbyte _ => .txbyte (BitVec.ofNat 16 (slice w 15 0))
  | .txline _ => .txline (BitVec.ofNat 16 (slice w 15 0))
  | .rxbyte => .rxbyte
  | .rxline => .rxline

/-- A word with a row's OP field and reserved field 0 decodes to the row's command with the word's operands. -/
theorem decode_eq_rowCommand {w : CmdWord} {i : Instr} (hop : slice w 31 28 = opOf i)
    (hr : slice w 27 (reservedFrom i) = 0) : decode w = .ok (rowCommand w i) := by
  cases i <;> simp only [opOf, reservedFrom] at hop hr <;> simp [decode, hop, hr, rowCommand]

/-- A command that a word decodes to has the word's operands. -/
theorem rowCommand_of_decode {w : CmdWord} {i : Instr} (h : decode w = .ok i) : rowCommand w i = i := by
  obtain ⟨hop, hr⟩ := fields_of_decode h
  have := (decode_eq_rowCommand hop hr).symm.trans h
  exact Except.ok.inj this

/-- The word of a well-formed command has its row's OP field and reserved field 0, by the law of each row. -/
theorem fields_of_encode {i : Instr} (h : i.wellFormed = true) :
    slice (encode i) 31 28 = opOf i ∧ slice (encode i) 27 (reservedFrom i) = 0 := by
  cases i with
  | init m d f p t => exact Laws.OpField.init m d f p t h
  | setbaud bps => exact Laws.OpField.setbaud bps h
  | enable => exact Laws.OpField.enable h
  | txbyte v => exact Laws.OpField.txbyte v h
  | txline a => exact Laws.OpField.txline a h
  | rxbyte => exact Laws.OpField.rxbyte h
  | rxline => exact Laws.OpField.rxline h

/-- A one-bit field of a number, read as a flag, is the flag that was put there. -/
theorem toNat_beq_one (b : Bool) : (b.toNat == 1) = b := by
  cases b <;> rfl

/-- INIT's operands are read back from its word. -/
theorem rowCommand_encode_init {m d : Bool} {f : Nat} {p : BitVec 2} {t : Nat} (hf : f < 16) (ht : t < 16) :
    rowCommand (encode (.init m d f p t)) (.init m d f p t) = .init m d f p t := by
  have hp := p.isLt
  have hm : m.toNat ≤ 1 := m.toNat_le
  have hd : d.toNat ≤ 1 := d.toNat_le
  have hw : (encode (.init m d f p t)).toNat =
      0x10000000 + m.toNat * 2048 + d.toNat * 1024 + f * 64 + p.toNat * 16 + t := by
    simp only [encode, BitVec.toNat_ofNat]
    omega
  have h11 : slice (encode (.init m d f p t)) 11 11 = m.toNat := by simp only [slice, hw]; omega
  have h10 : slice (encode (.init m d f p t)) 10 10 = d.toNat := by simp only [slice, hw]; omega
  have h9 : slice (encode (.init m d f p t)) 9 6 = f := by simp only [slice, hw]; omega
  have h5 : slice (encode (.init m d f p t)) 5 4 = p.toNat := by simp only [slice, hw]; omega
  have h3 : slice (encode (.init m d f p t)) 3 0 = t := by simp only [slice, hw]; omega
  simp only [rowCommand, h11, h10, h9, h5, h3, toNat_beq_one, BitVec.ofNat_toNat, BitVec.setWidth_eq]

/-- A 16-bit operand is read back from bits 15:0. -/
theorem ofNat_slice_low16 {base : Nat} (v : Word16) (hb : base % 65536 = 0) :
    BitVec.ofNat 16 (slice (BitVec.ofNat 32 (base + v.toNat)) 15 0) = v := by
  have hv := v.isLt
  apply BitVec.eq_of_toNat_eq
  simp only [slice, BitVec.toNat_ofNat]
  omega

/-- Every operand of a well-formed command is read back from its word. -/
theorem rowCommand_encode {i : Instr} (h : i.wellFormed = true) : rowCommand (encode i) i = i := by
  cases i with
  | init m d f p t =>
    simp only [Instr.wellFormed, Bool.and_eq_true, decide_eq_true_eq] at h
    exact rowCommand_encode_init h.1 h.2
  | setbaud bps =>
    simp only [Instr.wellFormed, decide_eq_true_eq] at h
    have hs : slice (encode (.setbaud bps)) 27 0 = bps := by
      simp only [slice, encode, BitVec.toNat_ofNat]
      omega
    simp only [rowCommand, hs]
  | txbyte v => exact congrArg Instr.txbyte (ofNat_slice_low16 v rfl)
  | txline a => exact congrArg Instr.txline (ofNat_slice_low16 a rfl)
  | enable | rxbyte | rxline => rfl

/-- Settles O1: the word's fields choose the row, and each operand is read back from its field. -/
theorem decodeEncodeRoundTrip : Obligations.DecodeEncodeRoundTrip := by
  unfold Obligations.DecodeEncodeRoundTrip
  intro i h
  obtain ⟨hop, hr⟩ := fields_of_encode h
  rw [decode_eq_rowCommand hop hr, rowCommand_encode h]

/-! ## From a word back to the same word -/

/-- What a word's fields hold fits them, so the command they give is well-formed. -/
theorem rowCommand_wellFormed (w : CmdWord) (i : Instr) : (rowCommand w i).wellFormed = true := by
  cases i <;> simp only [rowCommand, Instr.wellFormed, Bool.and_eq_true, decide_eq_true_eq, slice] <;> omega

/-- A one-bit number as a flag, as a number again. -/
theorem toNat_beq_one_of_lt {n : Nat} (h : n < 2) : (n == 1).toNat = n := by
  obtain rfl | rfl : n = 0 ∨ n = 1 := by omega
  all_goals rfl

/-- A word with a row's OP field and reserved field 0 is the word of the row's command with the word's operands: the fields
cover all 32 bits. -/
theorem encode_rowCommand {w : CmdWord} {i : Instr} (hop : slice w 31 28 = opOf i)
    (hr : slice w 27 (reservedFrom i) = 0) : encode (rowCommand w i) = w := by
  have hw := w.isLt
  apply BitVec.eq_of_toNat_eq
  cases i with
  | init m d f p t =>
    have h11 : (slice w 11 11 == 1).toNat = slice w 11 11 := toNat_beq_one_of_lt (by simp only [slice]; omega)
    have h10 : (slice w 10 10 == 1).toNat = slice w 10 10 := toNat_beq_one_of_lt (by simp only [slice]; omega)
    simp only [rowCommand, encode, h11, h10, BitVec.toNat_ofNat]
    simp only [slice, opOf, reservedFrom] at hop hr ⊢
    omega
  | setbaud bps | enable | txbyte v | txline a | rxbyte | rxline =>
    simp only [rowCommand, encode, slice, opOf, reservedFrom, BitVec.toNat_ofNat] at hop hr ⊢
    omega

/-- Settles O2: a word that decodes to `i` has `i`'s fields, and `i` has the word's operands. -/
theorem encodeDecodeRoundTrip : Obligations.EncodeDecodeRoundTrip := by
  unfold Obligations.EncodeDecodeRoundTrip
  intro w i h
  obtain ⟨hop, hr⟩ := fields_of_decode h
  have hwf := rowCommand_wellFormed w i
  have henc := encode_rowCommand hop hr
  rw [rowCommand_of_decode h] at hwf henc
  exact ⟨hwf, henc⟩

/-! ## The words the decoder refuses -/

/-- The field of a word that starts at `lo`, as the bits it is made of (spec/00_scope.md R9). -/
theorem extractLsb'_eq_iff_slice {w : CmdWord} {lo n k : Nat} (hn : 0 < n) (hk : k < 2 ^ n) :
    w.extractLsb' lo n = BitVec.ofNat n k ↔ slice w (lo + n - 1) lo = k := by
  rw [← BitVec.toNat_inj, BitVec.extractLsb'_toNat, BitVec.toNat_ofNat, Nat.shiftRight_eq_div_pow, Nat.mod_eq_of_lt hk,
    slice, show lo + n - 1 - lo + 1 = n by omega]

/-- The OP field as four bits. -/
theorem extractLsb'_op (w : CmdWord) : w.extractLsb' 28 4 = BitVec.ofNat 4 (slice w 31 28) :=
  (extractLsb'_eq_iff_slice (by omega) (by simp only [slice]; omega)).mpr rfl

/-- The decoder's refusals: an OP that no row has, or a row's OP with its reserved field not 0 (R63). -/
theorem decode_eq_error_iff {w : CmdWord} {c : Cause} :
    decode w = .error c ↔
      ((slice w 31 28 = 0 ∨ 8 ≤ slice w 31 28) ∧ c = .reservedOpcode (BitVec.ofNat 4 (slice w 31 28))) ∨
      (slice w 31 28 = 1 ∧ slice w 27 12 ≠ 0 ∧ c = .reservedField 1) ∨
      ((slice w 31 28 = 4 ∨ slice w 31 28 = 5) ∧ slice w 27 16 ≠ 0 ∧
        c = .reservedField (BitVec.ofNat 4 (slice w 31 28))) ∨
      ((slice w 31 28 = 3 ∨ slice w 31 28 = 6 ∨ slice w 31 28 = 7) ∧ slice w 27 0 ≠ 0 ∧
        c = .reservedField (BitVec.ofNat 4 (slice w 31 28))) := by
  unfold decode
  split_ifs with h1 hr h2 h3 hr h4 hr h5 hr h6 hr h7 hr
  rotate_right
  · have hop : slice w 31 28 = 0 ∨ 8 ≤ slice w 31 28 := by omega
    simp [h1, h3, h4, h5, h6, h7, hop, @eq_comm Cause _ c]
  all_goals simp [*, @eq_comm Cause _ c]

/-- Settles O4: the decoder's refusals, with each field of the word as its bits. -/
theorem decodeRejectsReserved : Obligations.DecodeRejectsReserved := by
  unfold Obligations.DecodeRejectsReserved
  intro w c
  have hlt : slice w 31 28 < 16 := by simp only [slice]; omega
  have op (k : Nat) (hk : k < 2 ^ 4) : w.extractLsb' 28 4 = BitVec.ofNat 4 k ↔ slice w 31 28 = k :=
    extractLsb'_eq_iff_slice (by omega) hk
  have hto : (w.extractLsb' 28 4).toNat = slice w 31 28 := by
    rw [extractLsb'_op, BitVec.toNat_ofNat, Nat.mod_eq_of_lt hlt]
  have h12 : w.extractLsb' 12 16 = 0 ↔ slice w 27 12 = 0 := extractLsb'_eq_iff_slice (n := 16) (k := 0) (by omega) (by omega)
  have h16 : w.extractLsb' 16 12 = 0 ↔ slice w 27 16 = 0 := extractLsb'_eq_iff_slice (n := 12) (k := 0) (by omega) (by omega)
  have h0 : w.extractLsb' 0 28 = 0 ↔ slice w 27 0 = 0 := extractLsb'_eq_iff_slice (n := 28) (k := 0) (by omega) (by omega)
  have o0 := op 0 (by omega)
  have o1 := op 1 (by omega)
  have o3 := op 3 (by omega)
  have o4 := op 4 (by omega)
  have o5 := op 5 (by omega)
  have o6 := op 6 (by omega)
  have o7 := op 7 (by omega)
  rw [decode_eq_error_iff, hto, ← extractLsb'_op]
  simp only [ne_eq, h12, h16, h0, ← o0, ← o1, ← o3, ← o4, ← o5, ← o6, ← o7]
  rfl

/-- Settles O5: each word is a concrete one, and the decoder computes. -/
theorem specWordsDecode : Obligations.SpecWordsDecode := by
  unfold Obligations.SpecWordsDecode
  decide

end Sys2Proof
end

section
/-! PROOF. The frame codec (spec/43_frame_codec.md R91 to R94, R103): the bits of an encoded frame, what the decoder reads of
them, and what it reads with one bit inverted. -/

namespace Sys2Proof.Machine

variable {s : State} {f : Format}

/-! ## Lists of bits as numbers -/

/-- Bit `i` of the number whose bits are `x`. -/
theorem testBit_bitsToNat (x : List Bool) (i : Nat) : (bitsToNat x).testBit i = x.getD i false := by
  induction x generalizing i with
  | nil => simp [bitsToNat]
  | cons b x ih =>
    have hb : bitsToNat (b :: x) = Nat.bit b (bitsToNat x) := by
      rw [bitsToNat, Nat.bit_val, Nat.add_comm]
    cases i with
    | zero => rw [hb, Nat.testBit_bit_zero, List.getD_cons_zero]
    | succ i => rw [hb, Nat.testBit_bit_succ, ih, List.getD_cons_succ]

/-- An entry of a list of `n` computed bits. -/
theorem getD_map_range (g : Nat → Bool) (n i : Nat) :
    ((List.range n).map g).getD i false = (decide (i < n) && g i) := by
  by_cases h : i < n <;> simp [h]

/-- The data field as a number is the character's low `n` bits. -/
theorem bitsToNat_dataField (n : Nat) (v : Char9) : bitsToNat (dataField n v) = v.toNat % 2 ^ n := by
  apply Nat.eq_of_testBit_eq
  intro i
  rw [testBit_bitsToNat, dataField, getD_map_range, Nat.testBit_mod_two_pow]
  rfl

/-! ## Parity -/

/-- Even parity is the parity of the number of ones (R92). -/
theorem evenParity_eq (x : List Bool) : evenParity x = decide (x.count true % 2 = 1) := by
  induction x with
  | nil => rfl
  | cons b x ih =>
    rw [evenParity, ih]
    have hm : x.count true % 2 < 2 := Nat.mod_lt _ (by omega)
    cases b
    · simp
    · rcases (by omega : x.count true % 2 = 0 ∨ x.count true % 2 = 1) with h | h <;> simp [h] <;> omega

theorem evenParity_append (x y : List Bool) : evenParity (x ++ y) = (evenParity x ^^ evenParity y) := by
  induction x with
  | nil => simp [evenParity]
  | cons b x ih => simp [evenParity, ih]

/-- Inverting one bit inverts the parity. -/
theorem evenParity_set_not {x : List Bool} {i : Nat} (hi : i < x.length) :
    evenParity (x.set i !x.getD i false) = !evenParity x := by
  induction x generalizing i with
  | nil => simp at hi
  | cons b x ih =>
    cases i with
    | zero => cases b <;> simp [evenParity]
    | succ i =>
      rw [List.set_cons_succ, List.getD_cons_succ, evenParity, ih (by simpa using hi), evenParity, Bool.xor_not]

/-- The data bits with the parity bit have the parity of the scheme. -/
theorem evenParity_append_parityField (x : List Bool) :
    evenParity (x ++ parityField .even x) = false ∧ evenParity (x ++ parityField .odd x) = true := by
  simp [parityField, evenParity_append, evenParity]

/-- Settles O37: the parity of the number of ones is the even-parity bit of the whole. -/
theorem parityBitCountsOnes : Obligations.ParityBitCountsOnes := by
  unfold Obligations.ParityBitCountsOnes
  intro x
  obtain ⟨he, ho⟩ := evenParity_append_parityField x
  rw [evenParity_eq] at he ho
  have he := of_decide_eq_false he
  exact ⟨by omega, of_decide_eq_true ho, rfl⟩

/-! ## The bits of an encoded frame -/

@[simp] theorem dataField_length (n : Nat) (v : Char9) : (dataField n v).length = n := by simp [dataField]

@[simp] theorem parityField_length (f : Format) (x : List Bool) : (parityField f.parity x).length = parityBits f := by
  unfold parityField parityBits
  cases f.parity <;> rfl

@[simp] theorem encodeFrame_length (f : Format) (v : Char9) : (encodeFrame f v).length = frameLen f := by
  simp only [encodeFrame, List.length_cons, List.length_append, dataField_length, parityField_length,
    List.length_replicate, frameLen]
  omega

/-- The data bits of a frame (R93). -/
theorem encodeFrame_data {v : Char9} {i : Nat} (hi : i < f.n) : (encodeFrame f v)[1 + i]? = some (v.getLsbD i) := by
  rw [encodeFrame, Nat.add_comm, List.getElem?_cons_succ, List.append_assoc, List.getElem?_append_left (by simpa using hi)]
  simp [dataField, hi]

/-- The stop bits of a frame (R93). -/
theorem encodeFrame_stop {v : Char9} {i : Nat} (hlo : 1 + f.n + parityBits f ≤ i) (hi : i < frameLen f) :
    (encodeFrame f v)[i]? = some true := by
  unfold frameLen at hi
  obtain ⟨j, rfl⟩ : ∃ j, i = j + 1 := ⟨i - 1, by omega⟩
  rw [encodeFrame, List.getElem?_cons_succ, List.getElem?_append_right
    (by simp only [List.length_append, dataField_length, parityField_length]; omega)]
  simp only [List.length_append, dataField_length, parityField_length, List.getElem?_replicate]
  rw [if_pos (by omega)]

/-- The data and parity bits of a frame, in a format with parity. -/
theorem encodeFrame_checked (v : Char9) (hp : f.parity ≠ .none) :
    ((encodeFrame f v).drop 1).take (f.n + 1) = dataField f.n v ++ parityField f.parity (dataField f.n v) := by
  have hlen : (dataField f.n v ++ parityField f.parity (dataField f.n v)).length = f.n + 1 := by
    rw [List.length_append, dataField_length, parityField_length, parityBits]
    revert hp
    cases f.parity <;> simp
  rw [encodeFrame, List.drop_one, List.tail_cons, List.take_append_of_le_length hlen.ge, List.take_of_length_le hlen.le]

/-- A frame holds at least the bits that the receiver samples: it has a stop bit (R91). -/
theorem sampledLen_le_frameLen (h : formatOf s = some f) : sampledLen f ≤ frameLen f := by
  obtain ⟨-, -, hstop, -, -⟩ := formatOf_bounds h
  unfold sampledLen frameLen
  omega

/-! ## What the decoder reads -/

/-- A sampled bit of a frame's first bits. -/
theorem sampled_take {b : List Bool} {i m : Nat} (hi : i < m) : sampled (b.take m) i = sampled b i := by
  simp [sampled, List.getD_eq_getElem?_getD, hi]

/-- A bit that stands in a frame is sampled. -/
theorem sampled_of_getElem? {b : List Bool} {i : Nat} {x : Bool} (h : b[i]? = some x) : sampled b i = x := by
  simp [sampled, h]

/-- The sampled data bits of an encoded frame are the data field. -/
theorem sampledData_encode (v : Char9) : sampledData f ((encodeFrame f v).take (sampledLen f)) = dataField f.n v := by
  refine List.map_congr_left fun i hi => ?_
  have hi : i < f.n := List.mem_range.mp hi
  rw [sampled_take (by unfold sampledLen; omega)]
  exact sampled_of_getElem? (encodeFrame_data hi)

/-- The bits that the parity check reads: the data bits and, behind them, the parity bit (R94). -/
def checkedBits (f : Format) (b : List Bool) : List Bool := sampledData f b ++ [sampled b (1 + f.n)]

/-- The parity check on the checked bits as a whole: it fails when their parity is not the scheme's. -/
theorem parityError_eq (b : List Bool) (hp : f.parity ≠ .none) :
    parityError f b = (evenParity (checkedBits f b) != decide (f.parity = .odd)) := by
  unfold parityError checkedBits
  rw [evenParity_append]
  cases h : f.parity with
  | none => exact absurd h hp
  | even => cases sampled b (1 + f.n) <;> cases evenParity (sampledData f b) <;> rfl
  | odd => cases sampled b (1 + f.n) <;> cases evenParity (sampledData f b) <;> rfl

/-- The checked bits of an encoded frame have the parity of the scheme. -/
theorem evenParity_checkedBits_encode (v : Char9) (hp : f.parity ≠ .none) :
    evenParity (checkedBits f ((encodeFrame f v).take (sampledLen f))) = decide (f.parity = .odd) := by
  have hpar : sampled ((encodeFrame f v).take (sampledLen f)) (1 + f.n) = sampled (encodeFrame f v) (1 + f.n) := by
    refine sampled_take ?_
    unfold sampledLen parityBits
    omega
  obtain ⟨he, ho⟩ := evenParity_append_parityField (dataField f.n v)
  rw [checkedBits, sampledData_encode, hpar]
  have hbit (x : Bool) (hx : parityField f.parity (dataField f.n v) = [x]) : sampled (encodeFrame f v) (1 + f.n) = x := by
    refine sampled_of_getElem? ?_
    rw [encodeFrame, hx, Nat.add_comm, List.getElem?_cons_succ, List.append_assoc,
      List.getElem?_append_right (by simp), dataField_length, Nat.sub_self]
    rfl
  cases h : f.parity with
  | none => exact absurd h hp
  | even => rw [hbit _ (by rw [h, parityField])]; simpa [h, parityField] using he
  | odd => rw [hbit _ (by rw [h, parityField])]; simpa [h, parityField] using ho

/-- An encoded frame passes the parity check. -/
theorem parityError_encode (v : Char9) : parityError f ((encodeFrame f v).take (sampledLen f)) = false := by
  by_cases hp : f.parity = .none
  · simp only [parityError, hp]
  · rw [parityError_eq _ hp, evenParity_checkedBits_encode v hp, bne_self_eq_false]

/-- The first stop bit of an encoded frame is sampled as 1. -/
theorem sampled_encode_stop (h : formatOf s = some f) (v : Char9) :
    sampled ((encodeFrame f v).take (sampledLen f)) (1 + f.n + parityBits f) = true := by
  have hle := sampledLen_le_frameLen h
  rw [sampled_take (by unfold sampledLen; omega)]
  exact sampled_of_getElem? (encodeFrame_stop le_rfl (by unfold sampledLen at hle; omega))

/-- Settles O36: the decoder reads the data field, a stop bit 1 and a parity bit that agrees. -/
theorem frameRoundTrip : Obligations.FrameRoundTrip := by
  unfold Obligations.FrameRoundTrip
  intro s f v h
  rw [decodeFrame, sampledData_encode, bitsToNat_dataField, sampled_encode_stop h, parityError_encode, Bool.not_true]

/-! ## One bit inverted -/

/-- The frame with its bit `i` inverted, as sampled. -/
theorem sampled_set_not {b : List Bool} {i : Nat} (hi : i < b.length) (j : Nat) :
    sampled (b.set i !b.getD i false) j = if j = i then !sampled b i else sampled b j := by
  unfold sampled
  simp only [List.getD_eq_getElem?_getD, List.getElem?_set]
  by_cases hj : i = j
  · subst hj; simp [hi]
  · simp [hj, Ne.symm hj]

/-- The checked bits are the sampled bits from 1 to 1 + n. -/
theorem checkedBits_eq (b : List Bool) : checkedBits f b = (List.range (f.n + 1)).map fun i => sampled b (1 + i) := by
  rw [checkedBits, List.range_succ, List.map_append, sampledData]
  rfl

/-- Inverting a bit after the start bit inverts its place in the checked bits. -/
theorem checkedBits_set_not {b : List Bool} {i : Nat} (hi : i < b.length) (hlo : 1 ≤ i) :
    checkedBits f (b.set i !b.getD i false) =
      (checkedBits f b).set (i - 1) !(checkedBits f b).getD (i - 1) false := by
  simp only [checkedBits_eq]
  refine List.ext_getElem (by simp) fun j hj _ => ?_
  have hj : j < f.n + 1 := by simpa using hj
  simp only [List.getElem_map, List.getElem_range, sampled_set_not hi, List.getElem_set, getD_map_range]
  by_cases hij : 1 + j = i
  · have : i - 1 = j := by omega
    simp [hij, this, hj]
  · have : i - 1 ≠ j := by omega
    simp [hij, this]

/-- Settles O39: the inverted bit is one of those the parity check reads and not the stop bit. -/
theorem parityErrorDetected : Obligations.ParityErrorDetected := by
  unfold Obligations.ParityErrorDetected
  intro s f v i h hp hlo hhi b
  have hpb : parityBits f = 1 := by
    unfold parityBits
    cases hq : f.parity with
    | none => exact absurd hq hp
    | even | odd => rfl
  have hlen : i < b.length := by
    rw [List.length_take, encodeFrame_length, Nat.min_eq_left (sampledLen_le_frameLen h)]
    unfold sampledLen
    omega
  constructor
  · have hchk : i - 1 < (checkedBits f b).length := by simp [checkedBits_eq]; omega
    rw [decodeFrame, parityError_eq _ hp, checkedBits_set_not hlen hlo, evenParity_set_not hchk,
      evenParity_checkedBits_encode v hp]
    simp
  · rw [decodeFrame, sampled_set_not hlen, if_neg (by omega), sampled_encode_stop h, Bool.not_true]

/-! ## The shape of a frame by the registers -/

theorem dataBits_ne_none (c : BitVec 3) : dataBits c ≠ none ↔ c = 0 ∨ c = 1 ∨ c = 2 ∨ c = 3 ∨ c = 7 := by
  revert c; decide

theorem parityOf_ne_none (p : BitVec 2) : parityOf p ≠ none ↔ p = 0 ∨ p = 2 ∨ p = 3 := by
  revert p; decide

/-- Settles O38: the format by the two codes, and each clause of the shape by the lemma about those bits of a frame. -/
theorem encodedFrameShape : Obligations.EncodedFrameShape := by
  unfold Obligations.EncodedFrameShape
  refine ⟨fun s => by rw [formatOf_ne_none, dataBits_ne_none, parityOf_ne_none], fun s f v n pb h hn hpb => ?_⟩
  obtain ⟨-, -, hstop, hdata, hpar⟩ := formatOf_bounds h
  have hfn : f.n = n := by
    rcases hn with ⟨hc, rfl⟩ | ⟨hc, rfl⟩ | ⟨hc, rfl⟩ | ⟨hc, rfl⟩ | ⟨hc, rfl⟩ <;>
      (rw [hc] at hdata; exact (Option.some.inj hdata).symm)
  have hcode : (s.par = 0 ∧ f.parity = .none) ∨ (s.par = 2 ∧ f.parity = .even) ∨ (s.par = 3 ∧ f.parity = .odd) := by
    rcases (parityOf_ne_none s.par).mp (by simp [hpar]) with hc | hc | hc <;>
      (rw [hc] at hpar ⊢; simp [← Option.some.inj hpar])
  have hpbits : parityBits f = pb := by
    rw [hpb, parityBits]
    rcases hcode with ⟨hc, hq⟩ | ⟨hc, hq⟩ | ⟨hc, hq⟩ <;> simp [hc, hq]
  have hcount (q : Parity) (hq : f.parity = q) (hne : q ≠ .none) :
      ((encodeFrame f v).drop 1).take (n + 1) = dataField f.n v ++ parityField q (dataField f.n v) := by
    rw [← hfn, encodeFrame_checked v (hq ▸ hne), hq]
  obtain ⟨heven, hodd, -⟩ := parityBitCountsOnes (dataField f.n v)
  refine ⟨hfn, hpbits, ?_, rfl, fun i hi => encodeFrame_data (hfn ▸ hi), fun hc => ?_, fun hc => ?_, fun i hlo hi => ?_⟩
  · rw [encodeFrame_length, frameLen, hfn, hpbits, hstop]
    cases s.stop <;> rfl
  · rw [hcount .even (by simpa [hc] using hcode) (by decide), heven]
  · rw [hcount .odd (by simpa [hc] using hcode) (by decide), hodd]
  · exact encodeFrame_stop (by omega) (encodeFrame_length f v ▸ hi)

end Sys2Proof.Machine
end

section
/-! PROOF. The RX engine and the environment (spec/43_frame_codec.md R98, R101, R102): what an offer gives the receiver, in
loopback and from a peer. -/

namespace Sys2Proof.Machine

variable {s : State} {f : Format} {free : BitVec 11}

/-! ## The bits on the receive wire -/

/-- A peer's frame is its free bits behind the start bit; so is what is read of a corrupt frame (logs 7 and 18). -/
theorem wireBits_peer (free : BitVec 11) (len : Nat) : wireBits free len none = (List.range len).map (peerBit free) := rfl

theorem wireBits_corrupt {fr : Frame} (h : fr.corrupt = true) (len : Nat) :
    wireBits free len (some fr) = (List.range len).map (peerBit free) := by
  simp only [wireBits, h, if_true]

/-- A frame that is not corrupt is read as sent, whatever the free bits are. -/
theorem wireBits_sent {fr : Frame} {len : Nat} (h : fr.corrupt = false) (hlen : len ≤ fr.bits.length) :
    wireBits free len (some fr) = fr.bits.take len := by
  refine List.ext_getElem (by simp [wireBits, hlen]) fun i hi _ => ?_
  have hi : i < len := by simpa [wireBits] using hi
  simp [wireBits, h, List.getElem?_eq_getElem (hi.trans_le hlen)]

/-- The free bits made of a list of at most eleven bits give that list behind the start bit. -/
theorem peerBit_ofNat_bitsToNat {x : List Bool} (hx : x.length ≤ 11) (i : Nat) :
    peerBit (BitVec.ofNat 11 (bitsToNat x)) i = (false :: x).getD i false := by
  cases i with
  | zero => rfl
  | succ i =>
    rw [peerBit, BitVec.getLsbD_ofNat, testBit_bitsToNat, List.getD_cons_succ]
    by_cases hi : i < 11
    · simp [hi]
    · simp [hi, List.getElem?_eq_none (hx.trans (not_lt.mp hi))]

/-- A list of at most twelve bits that begins with the start bit is the frame of an offer. -/
theorem map_peerBit_eq {x : List Bool} (hx : x.length ≤ 11) :
    (List.range (x.length + 1)).map (peerBit (BitVec.ofNat 11 (bitsToNat x))) = false :: x := by
  refine List.ext_getElem (by simp) fun i hi _ => ?_
  have hi : i < (false :: x).length := by simpa using hi
  simp [peerBit_ofNat_bitsToNat hx, List.getElem?_eq_getElem hi]

/-- A frame as sampled has at most twelve bits (R91). -/
theorem sampledLen_le (h : formatOf s = some f) : sampledLen f ≤ 12 := by
  obtain ⟨-, hn, -⟩ := formatOf_bounds h
  have hpb : parityBits f ≤ 1 := by unfold parityBits; cases f.parity <;> simp
  unfold sampledLen
  omega

/-- Settles O34: the bits after the start bit, as the free bits of the offer. -/
theorem peerOffersEveryFrame : Obligations.PeerOffersEveryFrame := by
  unfold Obligations.PeerOffersEveryFrame
  intro s f b hf hlen hstart
  obtain ⟨x, rfl⟩ : ∃ x, b = false :: x := List.head?_eq_some_iff.mp hstart
  rw [List.length_cons] at hlen
  have hx : x.length ≤ 11 := by
    have := sampledLen_le hf
    omega
  exact ⟨BitVec.ofNat 11 (bitsToNat x), hlen ▸ map_peerBit_eq hx⟩

/-! ## RECEIVE -/

/-- RXEN = 0: the frame is lost. -/
theorem receive_of_off (source : Option Frame) (hr : s.rxen = false) : receive free source s = .next s := by
  simp only [receive, hr, Bool.false_eq_true, if_false]

/-- RXEN = 1 with room in RXFIFO: the frame is decoded into it. -/
theorem receive_of_room (source : Option Frame) (hr : s.rxen = true) (hf : formatOf s = some f)
    (hlen : s.rxfifo.length < 2) : receive free source s =
      .next { s with rxfifo := s.rxfifo ++ [decodeFrame f (wireBits free (sampledLen f) source)] } := by
  simp only [receive, hr, if_true, hf, rxFifoDepth, hlen]

/-- RXEN = 1 with RXFIFO full: the frame is lost and DOR set. -/
theorem receive_of_full (source : Option Frame) (hr : s.rxen = true) (hf : formatOf s = some f)
    (hlen : 2 ≤ s.rxfifo.length) : receive free source s = .next { s with dor := true } := by
  simp only [receive, hr, if_true, hf, rxFifoDepth, if_neg (not_lt.mpr hlen)]

/-! ## Offers -/

/-- A peer's offer. -/
theorem offerFrame_of_peer (hl : s.params.loopback = false) : offerFrame free s = receive free none s := by
  simp only [offerFrame, hl, Bool.false_eq_true, if_false]

/-- In loopback with a frame at LBPTR it is replayed. -/
theorem offerFrame_of_replay {fr : Frame} (hl : s.params.loopback = true) (hw : s.txwire[s.lbptr]? = some fr) :
    offerFrame free s = receive free (some fr) { s with lbptr := s.lbptr + 1 } := by
  simp only [offerFrame, hl, if_true, hw]

/-- In loopback with TXWIRE used up there is no offer. -/
theorem offerFrame_of_usedUp (hl : s.params.loopback = true) (hw : s.txwire[s.lbptr]? = none) :
    offerFrame free s = .next s := by
  simp only [offerFrame, hl, if_true, hw]

/-- An offer's step. -/
theorem step_of_offer (he : nextEvent s = .offer free) : step s = offerFrame free (afterEvent s) := by
  rw [step_eq, he]
  rfl

/-- Settles O33: a peer's offer with RXEN = 0, with room in RXFIFO, and with RXFIFO full. -/
theorem receiveFillsFifo : Obligations.ReceiveFillsFifo := by
  unfold Obligations.ReceiveFillsFifo
  intro s free f he hl hf
  rw [step_of_offer he, offerFrame_of_peer (by simpa using hl), ← formatOf_afterEvent] at *
  refine ⟨fun hr => receive_of_off none (by simpa using hr), fun hr hlen => ?_, fun hr hlen => ?_⟩
  · rw [receive_of_room none (by simpa using hr) hf (by simpa using hlen), wireBits_peer, afterEvent_rxfifo]
  · exact receive_of_full none (by simpa using hr) hf (by simpa using hlen)

/-- Settles O35: in loopback the offer at the end of TXWIRE, and RECEIVE of a replayed frame with RXEN = 0, with RXFIFO full, and
with room for a frame as sent or a corrupt one. -/
theorem loopbackReplaysWire : Obligations.LoopbackReplaysWire := by
  unfold Obligations.LoopbackReplaysWire
  intro s free f he hl hf
  have hl' : (afterEvent s).params.loopback = true := by simpa using hl
  have replay (fr : Frame) (hw : s.txwire[s.lbptr]? = some fr) :
      step s = receive free (some fr) { afterEvent s with lbptr := s.lbptr + 1 } := by
    rw [step_of_offer he, offerFrame_of_replay hl' (by simpa using hw), afterEvent_lbptr]
  have hf' : formatOf { afterEvent s with lbptr := s.lbptr + 1 } = some f := (formatOf_afterEvent s).trans hf
  refine ⟨fun hend => ?_, fun fr hw hr => ?_, fun fr hw hr hlen => ?_, fun fr hw hr hc hbits hlen => ?_,
    fun fr hw hr hc hlen => ?_⟩
  · rw [step_of_offer he]
    exact offerFrame_of_usedUp hl' (by simpa using hend)
  · rw [replay fr hw]
    exact receive_of_off _ (by simpa using hr)
  · rw [replay fr hw]
    exact receive_of_full _ (by simpa using hr) hf' (by simpa using hlen)
  · rw [replay fr hw, receive_of_room _ (by simpa using hr) hf' (by simpa using hlen), wireBits_sent hc hbits,
      afterEvent_rxfifo]
  · rw [replay fr hw, receive_of_room _ (by simpa using hr) hf' (by simpa using hlen), wireBits_corrupt hc,
      afterEvent_rxfifo]

/-! ## Runs of engine steps -/

variable {k : Nat} {more : List Event} {fr : Frame}

/-- A run whose first event is decided. -/
theorem run_event {t : State} {e : Event} (ha : s.agenda = e :: more)
    (h : runEvent e { s with agenda := more } = .next t) :
    Host.Core.run Sys2Proof.core (k + 1) s = Host.Core.run Sys2Proof.core k t :=
  run_succ ((step_cons ha).trans h)

/-- A run that begins with LOAD, enabled. -/
theorem run_load {v : Char9} (ha : s.agenda = .txLoad :: more) (hx : s.txen = true) (hb : s.txbuf = some v)
    (ht : s.tsr = none) (hf : formatOf s = some f) :
    Host.Core.run Sys2Proof.core (k + 1) s = Host.Core.run Sys2Proof.core k { s with
      agenda := more, tsr := some { bits := encodeFrame f v, corrupt := false }, txbuf := none } :=
  run_event ha (txLoad_of_loadEnabled (s := { s with agenda := more }) hx hb ht hf)

/-- A run that begins with SHIFT, enabled. -/
theorem run_shift (ha : s.agenda = .txShift :: more) (ht : s.tsr = some fr) :
    Host.Core.run Sys2Proof.core (k + 1) s = Host.Core.run Sys2Proof.core k { s with
      agenda := more, txwire := s.txwire ++ [fr], tsr := none, txc := s.txc || udre s } :=
  run_event ha (txShift_of_some (s := { s with agenda := more }) ht)

/-- A run that begins with an offer in loopback, with room in RXFIFO. -/
theorem run_replay (ha : s.agenda = .offer free :: more) (hl : s.params.loopback = true) (hr : s.rxen = true)
    (hf : formatOf s = some f) (hlen : s.rxfifo.length < 2) (hw : s.txwire[s.lbptr]? = some fr) :
    Host.Core.run Sys2Proof.core (k + 1) s = Host.Core.run Sys2Proof.core k { s with
      agenda := more, lbptr := s.lbptr + 1,
      rxfifo := s.rxfifo ++ [decodeFrame f (wireBits free (sampledLen f) (some fr))] } :=
  run_event ha ((offerFrame_of_replay (s := { s with agenda := more }) hl hw).trans
    (receive_of_room (s := { s with agenda := more, lbptr := s.lbptr + 1 }) _ hr hf hlen))

/-- Settles O40: LOAD encodes the character, SHIFT puts the frame at LBPTR, and the offer decodes it. -/
theorem loopbackDelivers : Obligations.LoopbackDelivers := by
  unfold Obligations.LoopbackDelivers
  intro s v f free rest hl hx hr hb ht hp hlen hf ha
  have hread : decodeFrame f (wireBits free (sampledLen f) (some { bits := encodeFrame f v, corrupt := false })) =
      { data := BitVec.ofNat 9 (v.toNat % 2 ^ f.n), fe := false, pe := false } := by
    rw [wireBits_sent rfl (by rw [encodeFrame_length]; exact sampledLen_le_frameLen hf), frameRoundTrip s f v hf]
  have hwire : (s.txwire ++ [{ bits := encodeFrame f v, corrupt := false }])[s.lbptr]? =
      some { bits := encodeFrame f v, corrupt := false } := by simp [hp]
  have hrun := (run_load (k := 2) ha hx hb ht hf).trans
    ((run_shift (k := 1) rfl rfl).trans (run_replay (k := 0) rfl hl hr hf hlen hwire))
  rw [hread] at hrun
  exact ⟨_, hrun, rfl, by simp [hp], rfl⟩

end Sys2Proof.Machine
end

section
/-! PROOF. INIT's accesses: the list of R79 in closed form, what all of them write, and what the registers show when some of them
have been made on the register file of reset (spec/41_config.md R79 to R82, log 21). -/

namespace Sys2Proof.Machine

variable {s t : State} {m d : Bool} {f b : Nat} {p : BitVec 2}

/-! ## The list of accesses -/

/-- The accesses of `write_fsz` by the width (R81). -/
theorem fszAccesses_eq (f : Nat) :
    fszAccesses f = if 5 ≤ f ∧ f ≤ 9 then
      [.fsz2 (decide (f = 9)), .fsz10 (if f = 9 then 3 else BitVec.ofNat 2 (f - 5))] else [] := by
  by_cases hf : 5 ≤ f ∧ f ≤ 9
  · obtain ⟨hlo, hhi⟩ := hf
    interval_cases f <;> decide
  · have hcode : fszCode f = none := by
      rw [fszCode, if_neg (by omega), if_neg (by omega), if_neg (by omega), if_neg (by omega), if_neg (by omega)]
    rw [if_neg hf, fszAccesses, hcode]

theorem toNat_pos_iff (p : BitVec 2) : 0 < p.toNat ↔ p ≠ 0 := by
  revert p; decide

/-- The accesses of `write_ps` (R82). -/
theorem psAccesses_eq (p : BitVec 2) (b : Nat) :
    psAccesses p b = if p ≠ 0 ∧ 0 < b then [.par p, .stop (decide (b = 2))] else [] := by
  simp only [psAccesses, toNat_pos_iff]

/-- What all of INIT's accesses write. -/
theorem allAccesses_initAccesses (s : State) :
    allAccesses (initAccesses m d f p b) s = { s with
      mode := m, u2x := d, ext := decide (f = 9),
      fsz2 := if f = 9 then true else if 5 ≤ f ∧ f ≤ 8 then false else s.fsz2,
      fsz10 := if f = 9 then 3 else if 5 ≤ f ∧ f ≤ 8 then BitVec.ofNat 2 (f - 5) else s.fsz10,
      par := if p ≠ 0 ∧ 0 < b then p else s.par,
      stop := if p ≠ 0 ∧ 0 < b then decide (b = 2) else s.stop } := by
  have hps (u : State) : allAccesses (psAccesses p b) u = { u with
      par := if p ≠ 0 ∧ 0 < b then p else u.par,
      stop := if p ≠ 0 ∧ 0 < b then decide (b = 2) else u.stop } := by
    rw [psAccesses_eq]
    split_ifs <;> rfl
  have hfsz (u : State) : allAccesses (fszAccesses f) u = { u with
      fsz2 := if f = 9 then true else if 5 ≤ f ∧ f ≤ 8 then false else u.fsz2,
      fsz10 := if f = 9 then 3 else if 5 ≤ f ∧ f ≤ 8 then BitVec.ofNat 2 (f - 5) else u.fsz10 } := by
    rw [fszAccesses_eq]
    by_cases h9 : f = 9
    · subst h9; rfl
    · by_cases h8 : 5 ≤ f ∧ f ≤ 8
      · rw [if_pos (by omega)]
        simp only [allAccesses, List.foldl, access, setFsz2, setFsz10, h9, if_false, decide_false, h8, and_self, if_true]
      · rw [if_neg (by omega)]
        simp only [allAccesses, List.foldl, h9, if_false, h8]
  have hsplit : allAccesses (initAccesses m d f p b) s =
      allAccesses (psAccesses p b) (access (.ext (decide (f = 9)))
        (allAccesses (fszAccesses f) (access (.u2x d) (access (.mode m) s)))) := by
    simp only [initAccesses, allAccesses, List.foldl_cons, List.foldl_append]
  rw [hsplit, hfsz, hps]
  rfl

/-! ## Registers that show the accesses made since reset -/

/-- EXT and the framing fields are what the accesses `made` leave of those of reset. -/
def RegsAfter (made : List Access) (s : State) : Prop :=
  s.ext = (allAccesses made (State.launch s.params s.program [])).ext ∧
  SameFraming (allAccesses made (State.launch s.params s.program [])) s

/-- An INIT under way, in these terms. -/
theorem underWay_init_iff : UnderWay (.init m d f p b) s ↔
    initCause f p b s = none ∧ s.modef = m ∧ s.u2xf = d ∧
      ∃ made, made ≠ [] ∧ made ++ s.pending = initAccesses m d f p b ∧ RegsAfter made s := Iff.rfl

/-- One more access made, and the registers show it. -/
theorem RegsAfter.access {made : List Access} (h : RegsAfter made s) (a : Access) (rest : List Access) :
    RegsAfter (made ++ [a]) (access a { s with pending := rest }) := by
  obtain ⟨hext, hu2x, hmode, hpar, hstop, hfsz2, hfsz10⟩ := h
  simp only [RegsAfter, access_params, access_program, allAccesses, List.foldl_append, List.foldl_cons, List.foldl_nil]
  simp only [allAccesses] at hext hu2x hmode hpar hstop hfsz2 hfsz10
  cases a <;> simp [Machine.access, SameFraming, hext, hu2x, hmode, hpar, hstop, hfsz2, hfsz10]

/-! ## A format between any two of INIT's accesses -/

/-- The register file holds a format, and EXT is not ahead of the width it goes with (R81). -/
def FramingOk (s : State) : Prop := FormatLegal s ∧ (s.ext = true → fsz s = 7)

/-- The framing is in order before, between and after the accesses. -/
def OkThroughout : List Access → State → Prop
  | [], u => FramingOk u
  | a :: as, u => FramingOk u ∧ OkThroughout as (access a u)

theorem OkThroughout.of_append {made rest : List Access} {u : State} (h : OkThroughout (made ++ rest) u) :
    FramingOk (allAccesses made u) := by
  induction made generalizing u with
  | nil =>
    cases rest with
    | nil => exact h
    | cons a rest => exact h.1
  | cons a made ih => exact ih h.2

theorem framingOk_iff : FramingOk s ↔
    dataBits (fsz s) ≠ none ∧ parityOf s.par ≠ none ∧ (s.ext = true → fsz s = 7) := by
  rw [FramingOk, FormatLegal, formatOf_ne_none, and_assoc]

/-- The parity and stop bits are written last, and a parity code that is written is legal (R79, R82). -/
theorem okThroughout_psAccesses {u : State} (h : FramingOk s) (hc : initCause f p b u = none) :
    OkThroughout (psAccesses p b) s := by
  rw [psAccesses_eq]
  split_ifs with hp
  · obtain ⟨hw, -, hx⟩ := framingOk_iff.mp h
    have hpar : parityOf p ≠ none :=
      (parityOf_ne_none p).mpr (Or.inr (initCause_par hc ⟨(toNat_pos_iff p).mpr hp.1, hp.2⟩))
    exact ⟨h, framingOk_iff.mpr ⟨hw, hpar, hx⟩, framingOk_iff.mpr ⟨hw, hpar, hx⟩⟩
  · exact h

/-- After the first of the two width writes the low bits are still those of reset, and the code is one of a width. -/
theorem dataBits_first_write (x : Bool) : dataBits (BitVec.ofBool x ++ 3#2) ≠ none := by
  cases x <;> decide

/-- After the second one the code is that of the width. -/
theorem dataBits_second_write (h : 5 ≤ f ∧ f ≤ 9) :
    dataBits (BitVec.ofBool (decide (f = 9)) ++ (if f = 9 then 3#2 else BitVec.ofNat 2 (f - 5))) ≠ none ∧
    (decide (f = 9) = true → BitVec.ofBool (decide (f = 9)) ++ (if f = 9 then 3#2 else BitVec.ofNat 2 (f - 5)) = 7#3) := by
  obtain ⟨hlo, hhi⟩ := h
  interval_cases f <;> decide

/-- From reset on, the framing is in order between any two of INIT's accesses. -/
theorem okThroughout_initAccesses {u : State} (hc : initCause f p b u = none) (ps : Params) (prog : List CmdWord) :
    OkThroughout (initAccesses m d f p b) (State.launch ps prog []) := by
  have hlaunch : FramingOk (State.launch ps prog []) := ⟨by simp [FormatLegal, formatOf_launch], fun h => nomatch h⟩
  have hpar : parityOf 0 ≠ none := by decide
  refine ⟨hlaunch, hlaunch, ?_⟩
  rw [fszAccesses_eq]
  by_cases hw : 5 ≤ f ∧ f ≤ 9
  · obtain ⟨hsecond, hx⟩ := dataBits_second_write hw
    rw [if_pos hw]
    exact ⟨hlaunch, framingOk_iff.mpr ⟨dataBits_first_write _, hpar, fun h => nomatch h⟩,
      framingOk_iff.mpr ⟨hsecond, hpar, fun h => nomatch h⟩,
      okThroughout_psAccesses (framingOk_iff.mpr ⟨hsecond, hpar, hx⟩) hc⟩
  · obtain ⟨hcode, -, -⟩ := framingOk_iff.mp hlaunch
    have hx : decide (f = 9) ≠ true := by simp; omega
    rw [if_neg hw]
    exact ⟨hlaunch, okThroughout_psAccesses (framingOk_iff.mpr ⟨hcode, hpar, fun h => absurd h hx⟩) hc⟩

/-- The format depends on the framing fields only. -/
theorem formatOf_of_sameFraming (h : SameFraming s t) : formatOf t = formatOf s := by
  obtain ⟨-, -, hpar, hstop, hfsz2, hfsz10⟩ := h
  exact formatOf_congr hfsz2 hfsz10 hpar hstop

/-- Registers that show some of INIT's accesses have the framing in order. -/
theorem RegsAfter.framingOk {made rest : List Access} {u : State} (h : RegsAfter made s)
    (hm : made ++ rest = initAccesses m d f p b) (hc : initCause f p b u = none) : FramingOk s := by
  have hok := okThroughout_initAccesses (m := m) (d := d) hc s.params s.program
  rw [← hm] at hok
  obtain ⟨hlegal, hx⟩ := hok.of_append
  obtain ⟨hext, hframing⟩ := h
  refine ⟨by rwa [FormatLegal, formatOf_of_sameFraming hframing], fun h => ?_⟩
  obtain ⟨-, -, -, -, hfsz2, hfsz10⟩ := hframing
  rw [fsz, hfsz2, hfsz10]
  exact hx (hext.symm.trans h)

/-- A width code is that of nine bits exactly for the width 9. -/
theorem fsz_eq_seven_iff (hs2 : s.fsz2 = if f = 9 then true else if 5 ≤ f ∧ f ≤ 8 then false else false)
    (hs10 : s.fsz10 = if f = 9 then 3 else if 5 ≤ f ∧ f ≤ 8 then BitVec.ofNat 2 (f - 5) else 3) :
    fsz s = 7 ↔ f = 9 := by
  rw [fsz, hs2, hs10]
  by_cases h9 : f = 9
  · simp [h9]
  · simp only [h9, if_false, ite_self, iff_false]
    generalize (if 5 ≤ f ∧ f ≤ 8 then BitVec.ofNat 2 (f - 5) else 3) = c
    revert c; decide

/-- Registers that show all of INIT's accesses agree with what it latches (R80, R81). -/
theorem RegsAfter.latches (h : RegsAfter (initAccesses m d f p b) s) :
    s.mode = m ∧ s.u2x = d ∧ s.ext = decide (f = 9) ∧ (fsz s = 7 ↔ f = 9) := by
  obtain ⟨hext, hu2x, hmode, -, -, hfsz2, hfsz10⟩ := h
  rw [allAccesses_initAccesses] at hext hu2x hmode hfsz2 hfsz10
  exact ⟨hmode, hu2x, hext, fsz_eq_seven_iff hfsz2 hfsz10⟩

end Sys2Proof.Machine
end

section
/-! PROOF. The invariant of the block, part one: the sequencer's moves keep the lifecycle, the latches, the divisor, the record and
the frames (spec/10_state.md R13 to R38, spec/43_frame_codec.md R98, R104). -/

namespace Sys2Proof.Machine

variable {s t : State} {i : Instr} {a : Access} {rest : List Access}

/-! ## What a command under way has left -/

/-- An access that writes EXT or a framing field, as all of INIT's do. -/
def IsInitAccess (a : Access) : Prop :=
  match a with
  | .mode _ | .u2x _ | .fsz2 _ | .fsz10 _ | .ext _ | .par _ | .stop _ => True
  | .txen _ | .rxen _ | .baudh _ | .baudl _ => False

theorem isInitAccess_of_mem {m d : Bool} {f b : Nat} {p : BitVec 2} (h : a ∈ initAccesses m d f p b) : IsInitAccess a := by
  rw [initAccesses, fszAccesses_eq, psAccesses_eq] at h
  simp only [List.mem_cons, List.mem_append] at h
  rcases h with rfl | rfl | h | rfl | h
  · trivial
  · trivial
  · obtain ⟨-, h⟩ := List.mem_ite_nil_right.mp h
    rcases List.mem_pair.mp h with rfl | rfl <;> trivial
  · trivial
  · obtain ⟨-, h⟩ := List.mem_ite_nil_right.mp h
    rcases List.mem_pair.mp h with rfl | rfl <;> trivial

/-- Such an access leaves everything but EXT and the framing fields alone. -/
theorem access_of_isInitAccess (h : IsInitAccess a) (s : State) :
    SameEnables s (access a s) ∧ SameRx s (access a s) ∧ SameDivisor s (access a s) ∧
      (access a s).tsr = s.tsr ∧ (access a s).draws = s.draws := by
  cases a with
  | txen | rxen | baudh | baudl => exact False.elim h
  | _ => exact ⟨⟨rfl, rfl⟩, ⟨rfl, rfl⟩, ⟨rfl, rfl, rfl⟩, rfl, rfl⟩

/-- The other accesses leave EXT and the framing fields alone. -/
theorem access_of_not_isInitAccess (h : ¬ IsInitAccess a) (s : State) :
    (access a s).ext = s.ext ∧ SameFraming s (access a s) := by
  cases a with
  | txen | rxen | baudh | baudl => exact ⟨rfl, rfl, rfl, rfl, rfl, rfl, rfl⟩
  | _ => exact absurd trivial h

/-- With accesses left the command at CI is the one under way. -/
theorem SeqOk.underWay (h : SeqOk s) (hp : s.pending ≠ []) (hf : Fetches s i) : UnderWay i s := by
  obtain ⟨-, -, hleft, -⟩ := h
  obtain ⟨j, hj, hu⟩ := hleft hp
  rwa [fetches_unique hf hj]

/-- INIT under way has one of its own accesses left. -/
theorem isInitAccess_of_underWay {m d : Bool} {f b : Nat} {p : BitVec 2} (h : UnderWay (.init m d f p b) s)
    (hp : s.pending = a :: rest) : IsInitAccess a := by
  obtain ⟨-, -, -, made, -, hm, -⟩ := underWay_init_iff.mp h
  exact isInitAccess_of_mem (hm ▸ List.mem_append_right made (hp ▸ List.mem_cons_self))

/-- What SETBAUD under way has left. -/
theorem setbaud_left {bps : Nat} (h : UnderWay (.setbaud bps) s) (hp : s.pending = a :: rest) :
    ∃ hi lo, (a = .rxen false ∧ rest = [.baudh hi, .baudl lo]) ∨ (a = .baudh hi ∧ rest = [.baudl lo]) ∨
      (a = .baudl lo ∧ rest = []) := by
  obtain ⟨-, made, hne, hm, -⟩ := h
  rw [hp, setbaudAccesses] at hm
  rcases made with _ | ⟨x, _ | ⟨y, _ | ⟨z, _ | ⟨w, made⟩⟩⟩⟩ <;> simp_all

/-- What ENABLE under way has left. -/
theorem enable_left (h : UnderWay .enable s) (hp : s.pending = a :: rest) : a = .rxen true ∧ rest = [] := by
  obtain ⟨-, made, hne, hm, -⟩ := h
  rw [hp] at hm
  rcases made with _ | ⟨x, _ | ⟨y, made⟩⟩ <;> simp_all

/-- A command that makes an access with others left is INIT, or SETBAUD at RXEN or BAUDH. -/
theorem nextAccess_cases (hok : SeqOk s) (hp : s.pending = a :: rest) (hr : rest ≠ []) (hf : Fetches s i) :
    (∃ m d f p b, i = .init m d f p b ∧ UnderWay i s ∧ IsInitAccess a) ∨
    (∃ bps hi lo, i = .setbaud bps ∧ UnderWay i s ∧
      ((a = .rxen false ∧ rest = [.baudh hi, .baudl lo]) ∨ (a = .baudh hi ∧ rest = [.baudl lo]))) := by
  have hu : UnderWay i s := hok.underWay (by simp [hp]) hf
  cases i with
  | init m d f p b => exact Or.inl ⟨m, d, f, p, b, rfl, hu, isInitAccess_of_underWay hu hp⟩
  | setbaud bps =>
    obtain ⟨hi, lo, h | h | ⟨-, h⟩⟩ := setbaud_left hu hp
    · exact Or.inr ⟨bps, hi, lo, rfl, hu, Or.inl h⟩
    · exact Or.inr ⟨bps, hi, lo, rfl, hu, Or.inr h⟩
    · exact absurd h hr
  | enable => exact absurd (enable_left hu hp).2 hr
  | txbyte v | txline v => exact False.elim hu
  | rxbyte | rxline => exact False.elim hu

/-- INIT runs only before CONFIGURED, and passes its checks. -/
theorem configured_of_initCause {f b : Nat} {p : BitVec 2} (h : initCause f p b s = none) : s.configured = false := by
  cases hc : s.configured with
  | false => rfl
  | true => simp [initCause, hc] at h

/-- SETBAUD runs only once CONFIGURED. -/
theorem configured_of_setbaudCause {bps : Nat} (h : setbaudCause bps s = none) : s.configured = true := by
  cases hc : s.configured with
  | true => rfl
  | false => simp [setbaudCause, hc] at h

/-- ENABLE runs only with DIV_SET. -/
theorem divSet_of_enableCause (h : enableCause s = none) : s.divSet = true := by
  cases hc : s.divSet with
  | true => rfl
  | false => simp [enableCause, hc] at h

/-- The sequencer changes neither the parameters nor the program. -/
theorem SeqMove.inputs_eq (h : SeqMove s t) : t.params = s.params ∧ t.program = s.program := by
  cases h <;> simp [sendChar_eq, initEnd, setbaudEnd]

/-! ## The lifecycle -/

/-- The lifecycle reads the enables, the two flags and whether there are frames. -/
theorem SeqMove.lifecycle (h : SeqMove s t) (hok : SeqOk s) (hl : Lifecycle s) : Lifecycle t := by
  obtain ⟨htx, hrx, hset, hfresh⟩ := id hl
  cases h with
  | setbaudFirst hq hp hf hc => exact ⟨by simp, hrx, hset, hfresh⟩
  | enableFirst hq hp hf hd => exact ⟨fun _ => hd, hrx, hset, hfresh⟩
  | @nextAccess i a rest hq hp hr hf =>
    rcases nextAccess_cases hok hp hr hf with ⟨m, d, f, p, b, rfl, hu, ha⟩ | ⟨bps, hi, lo, rfl, hu, ⟨rfl, rfl⟩ | ⟨rfl, rfl⟩⟩
    · obtain ⟨⟨hrxen, htxen⟩, ⟨hfifo, -⟩, -, htsr, -⟩ := access_of_isInitAccess ha { s with pending := rest }
      simpa [Lifecycle, hrxen, htxen, hfifo, htsr] using hl
    · have hc := configured_of_setbaudCause hu.1
      exact ⟨htx, by simp [access], hset, fun h => absurd (hc.symm.trans h) (by simp)⟩
    · exact ⟨htx, hrx, hset, hfresh⟩
  | @initLast m d f p b a hq hp hf =>
    have hu := hok.underWay (by simp [hp]) hf
    obtain ⟨⟨hrxen, htxen⟩, -⟩ := access_of_isInitAccess (isInitAccess_of_underWay hu hp) { s with pending := [] }
    refine ⟨fun h => ?_, fun h => ?_, fun _ => rfl, fun h => nomatch h⟩
    · simpa [initEnd] using htx (htxen.symm.trans h)
    · simpa [initEnd] using hrx (hrxen.symm.trans h)
  | @setbaudLast bps a hq hp hf =>
    have hu := hok.underWay (by simp [hp]) hf
    have hc := configured_of_setbaudCause hu.1
    refine ⟨fun _ => rfl, fun _ => rfl, fun _ => ?_, fun h => ?_⟩
    · simpa [setbaudEnd] using hc
    · simp [setbaudEnd, hc] at h
  | @enableLast a hq hp hf =>
    have hu := hok.underWay (by simp [hp]) hf
    obtain ⟨rfl, -⟩ := enable_left hu hp
    have hd := divSet_of_enableCause hu.1
    exact ⟨htx, fun _ => hd, hset, fun h => absurd ((hset hd).symm.trans h) (by simp)⟩
  | rxbyteTake hq hr =>
    exact ⟨htx, hrx, hset, fun h => absurd (hfresh h).2.2 (by simp [hr])⟩
  | rxlineRead hq hl' hi hr =>
    exact ⟨htx, hrx, hset, fun h => absurd (hfresh h).2.2 (by simp [hr])⟩
  | _ => simpa [Lifecycle, sendChar_eq] using hl

/-! ## The latches -/

/-- EXT and TXB8 after `send_char`: TXB8 stays 0 where EXT is. -/
theorem LatchesAgree.sendChar (h : LatchesAgree s) (hp : s.pending = []) (v : Word16) : LatchesAgree (sendChar v s) := by
  obtain ⟨hconf, hfresh, hreset, hext⟩ := h
  rw [sendChar_eq]
  refine ⟨hconf, fun hc => ?_, hreset, fun he => ?_⟩
  · obtain ⟨-, -, he, -⟩ := hreset hc hp
    simpa [he] using hfresh hc
  · have he : s.ext = false := he
    simpa [he] using hext he

/-- The latches and the framing fields stay, or INIT writes them all. -/
theorem SeqMove.latchesAgree (h : SeqMove s t) (hok : SeqOk s) (hlife : Lifecycle s) (hl : LatchesAgree s) :
    LatchesAgree t := by
  obtain ⟨hci, hwait, hleft, -⟩ := id hok
  obtain ⟨hconf, hfresh, hreset, hext⟩ := id hl
  cases h with
  | initFirst hq hp hf hc =>
    have hcfg := configured_of_initCause hc
    exact ⟨fun h => absurd (hcfg.symm.trans h) (by simp), hfresh, fun _ h => by simp [initAccesses] at h, hext⟩
  | setbaudFirst hq hp hf hc =>
    have hcfg := configured_of_setbaudCause hc
    exact ⟨hconf, hfresh, fun h => absurd (hcfg.symm.trans h) (by simp), hext⟩
  | enableFirst hq hp hf hd => exact ⟨hconf, hfresh, fun _ h => by simp at h, hext⟩
  | @nextAccess i a rest hq hp hr hf =>
    rcases nextAccess_cases hok hp hr hf with ⟨m, d, f, p, b, rfl, hu, ha⟩ | ⟨bps, hi, lo, rfl, hu, hcase⟩
    · have hcfg := configured_of_initCause hu.1
      refine ⟨fun h => ?_, fun _ => ?_, fun _ h => ?_, fun _ => ?_⟩
      · simp [hcfg] at h
      · simpa using hfresh hcfg
      · simp [hr] at h
      · simpa using hfresh hcfg
    · have hcfg := configured_of_setbaudCause hu.1
      rcases hcase with ⟨rfl, rfl⟩ | ⟨rfl, rfl⟩ <;> exact ⟨hconf, hfresh, fun _ h => by simp at h, hext⟩
  | @initLast m d f p b a hq hp hf =>
    obtain ⟨hc, rfl, rfl, made, -, hm, hregs⟩ := underWay_init_iff.mp (hok.underWay (by simp [hp]) hf)
    have hcfg := configured_of_initCause hc
    have hregs' := hregs.access a []
    rw [hp] at hm
    rw [hm] at hregs'
    obtain ⟨hmode, hu2x, hx, hfsz⟩ := hregs'.latches
    have hset : (initEnd (access a { s with pending := [] })).configured = true := rfl
    refine ⟨fun _ => ⟨?_, ?_, ?_⟩, fun h => absurd (hset.symm.trans h) (by simp),
      fun h => absurd (hset.symm.trans h) (by simp), fun _ => ?_⟩
    · simpa [initEnd] using hmode.symm
    · simpa [initEnd] using hu2x.symm
    · exact hx.trans (decide_eq_decide.mpr hfsz.symm)
    · simpa [initEnd] using hfresh hcfg
  | @setbaudLast bps a hq hp hf =>
    have hu := hok.underWay (by simp [hp]) hf
    have hcfg := configured_of_setbaudCause hu.1
    obtain ⟨hi, lo, ⟨-, h⟩ | ⟨-, h⟩ | ⟨rfl, -⟩⟩ := setbaud_left hu hp
    · simp at h
    · simp at h
    · exact ⟨hconf, hfresh, fun h => absurd (hcfg.symm.trans h) (by simp), hext⟩
  | @enableLast a hq hp hf =>
    have hu := hok.underWay (by simp [hp]) hf
    obtain ⟨-, -, hset, -⟩ := hlife
    have hcfg := hset (divSet_of_enableCause hu.1)
    obtain ⟨rfl, -⟩ := enable_left hu hp
    exact ⟨hconf, hfresh, fun h => absurd (hcfg.symm.trans h) (by simp), hext⟩
  | @txbyteSend v hq hb => exact hl.sendChar (hwait (by simp [hq])) v
  | @txlineSend a c hq hb => exact hl.sendChar (hwait (by simp [hq])) _
  | _ => exact hl

/-! ## The divisor in use -/

/-- The divisor registers are SETBAUD's: BAUDH's write comes before BAUDL's, and BAUDL's takes the pair over. -/
theorem SeqMove.divisorCommitted (h : SeqMove s t) (hok : SeqOk s) (hd : DivisorCommitted s) : DivisorCommitted t := by
  obtain ⟨hpair, hzero⟩ := id hd
  cases h with
  | initFirst hq hp hf hc => exact ⟨fun _ => hpair (by simp [hp]), hzero⟩
  | setbaudFirst hq hp hf hc => exact ⟨fun _ => hpair (by simp [hp]), hzero⟩
  | enableFirst hq hp hf hd => exact ⟨fun _ => hpair (by simp [hp]), hzero⟩
  | @nextAccess i a rest hq hp hr hf =>
    have hpair := hpair (by simp [hp, hr])
    rcases nextAccess_cases hok hp hr hf with ⟨m, d, f, p, b, rfl, hu, ha⟩ | ⟨bps, hi, lo, rfl, hu, ⟨rfl, rfl⟩ | ⟨rfl, rfl⟩⟩
    · obtain ⟨-, -, ⟨hbh, hbl, hda⟩, -, -⟩ := access_of_isInitAccess ha { s with pending := rest }
      exact ⟨fun _ => by simpa [baudPair, hbh, hbl, hda] using hpair, by simpa [hda] using hzero⟩
    · exact ⟨fun _ => hpair, hzero⟩
    · exact ⟨fun h => absurd rfl (h lo), hzero⟩
  | @initLast m d f p b a hq hp hf =>
    have ha := isInitAccess_of_underWay (hok.underWay (by simp [hp]) hf) hp
    obtain ⟨-, -, ⟨hbh, hbl, hda⟩, -, -⟩ := access_of_isInitAccess ha { s with pending := [] }
    have hne : ∀ l, s.pending ≠ [.baudl l] := fun l h => by
      rw [hp] at h
      cases h
      exact ha
    refine ⟨fun _ => ?_, fun h => ?_⟩
    · simpa [initEnd, baudPair, hbh, hbl, hda] using hpair hne
    · simpa [initEnd, hda] using hzero (by simpa [initEnd] using h)
  | @setbaudLast bps a hq hp hf =>
    obtain ⟨hi, lo, ⟨-, h⟩ | ⟨-, h⟩ | ⟨rfl, -⟩⟩ := setbaud_left (hok.underWay (by simp [hp]) hf) hp
    · simp at h
    · simp at h
    · exact ⟨fun _ => rfl, fun h => nomatch h⟩
  | @enableLast a hq hp hf =>
    obtain ⟨rfl, -⟩ := enable_left (hok.underWay (by simp [hp]) hf) hp
    exact ⟨fun _ => hpair (by simp [hp]), hzero⟩
  | txbyteSend hq hb => rw [sendChar_eq]; exact hd
  | txlineSend hq hb => rw [sendChar_eq]; exact hd
  | _ => exact hd

/-! ## The fault record -/

theorem causeCode_bounds (c : Cause) : 1 ≤ (causeCode c).toNat ∧ (causeCode c).toNat ≤ 7 := by
  cases c <;> simp [causeCode]

/-- A fault entry writes the record; no other move does, and none leaves FAULTED. -/
theorem SeqMove.record_cases (h : SeqMove s t) :
    t = s ∨ (s.seq ≠ .faulted ∧ ((∃ c, t = raise c s) ∨ (t.seq ≠ .faulted ∧ SameRecord s t))) := by
  cases h with
  | hold => exact Or.inl rfl
  | decodeFault hq hw hd => exact Or.inr ⟨by simp [hq], Or.inl ⟨_, rfl⟩⟩
  | initFault hq hp hf hc => exact Or.inr ⟨by simp [hq], Or.inl ⟨_, rfl⟩⟩
  | setbaudFault hq hp hf hc => exact Or.inr ⟨by simp [hq], Or.inl ⟨_, rfl⟩⟩
  | enableFault hq hp hf hd => exact Or.inr ⟨by simp [hq], Or.inl ⟨_, rfl⟩⟩
  | txlineFault hq ha => exact Or.inr ⟨by simp [hq], Or.inl ⟨_, rfl⟩⟩
  | _ => exact Or.inr ⟨by simp [*], Or.inr ⟨by simp [*, initEnd, setbaudEnd],
      by simp [SameRecord, sendChar_eq, initEnd, setbaudEnd]⟩⟩

theorem recordOk_raise (c : Cause) (s : State) : RecordOk (raise c s) :=
  ⟨fun _ => ⟨(causeCode_bounds c).1, (causeCode_bounds c).2, rfl⟩, fun hq => absurd rfl hq⟩

theorem SeqMove.recordOk (h : SeqMove s t) (hr : RecordOk s) : RecordOk t := by
  rcases h.record_cases with rfl | ⟨hs, ⟨c, rfl⟩ | ⟨ht, hcode, hsub, hcmd⟩⟩
  · exact hr
  · exact recordOk_raise c s
  · obtain ⟨-, hclear⟩ := hr
    obtain ⟨h1, h2, h3⟩ := hclear hs
    exact ⟨fun h => absurd h ht, fun _ => ⟨hcode.trans h1, hsub.trans h2, hcmd.trans h3⟩⟩

end Sys2Proof.Machine
end

section
/-! PROOF. The invariant of the block, part two: the format and the frames, SEQ and the accesses left, the engines, launch and
reset; every step keeps the invariant, and no step of a state that meets it stops the model. -/

namespace Sys2Proof.Machine

variable {s t : State} {i : Instr} {a : Access} {rest : List Access} {m d : Bool} {f b : Nat} {p : BitVec 2}

/-! ## The format and the frames -/

/-- The value that INIT writes to EXT (R81). -/
theorem ext_of_mem_initAccesses {x : Bool} (h : .ext x ∈ initAccesses m d f p b) : x = decide (f = 9) := by
  rw [initAccesses, fszAccesses_eq, psAccesses_eq] at h
  simpa [List.mem_ite_nil_right] using h

/-- What a step of INIT makes of the latches: EXT and the format stay, or EXT and the framing fields show the accesses made since
reset; and EXT changes only to the value of R81, with the width written already. -/
def InitStep (m d : Bool) (f : Nat) (p : BitVec 2) (b : Nat) (s t : State) : Prop :=
  initCause f p b s = none ∧
    ((t.ext = s.ext ∧ formatOf t = formatOf s) ∨
      ∃ made rest, made ++ rest = initAccesses m d f p b ∧ RegsAfter made t) ∧
    (t.ext ≠ s.ext → t.ext = decide (f = 9) ∧ fsz t = fsz s)

theorem initStep_first (hc : initCause f p b s = none) :
    InitStep m d f p b s { s with modef := m, u2xf := d, mode := m, pending := rest } :=
  ⟨hc, Or.inl ⟨rfl, rfl⟩, fun h => absurd rfl h⟩

theorem initStep_access (hu : UnderWay (.init m d f p b) s) (hp : s.pending = a :: rest) :
    InitStep m d f p b s (access a { s with pending := rest }) := by
  obtain ⟨hc, -, -, made, -, hm, hregs⟩ := underWay_init_iff.mp hu
  refine ⟨hc, Or.inr ⟨made ++ [a], rest, by simpa [hp] using hm, hregs.access a rest⟩, fun h => ?_⟩
  cases a with
  | ext x => exact ⟨ext_of_mem_initAccesses (hm ▸ List.mem_append_right made (hp ▸ List.mem_cons_self)), rfl⟩
  | mode | u2x | fsz2 | fsz10 | par | stop | txen | rxen | baudh | baudl => exact absurd rfl h

/-- The latched flags and the framing fields stay, but in the steps of the one INIT. -/
theorem SeqMove.latches_or_init (h : SeqMove s t) (hok : SeqOk s) :
    (t.modef = s.modef ∧ t.u2xf = s.u2xf ∧ t.ext = s.ext ∧ SameFraming s t) ∨
    (s.seq = .idle ∧ ∃ m d f p b, Fetches s (.init m d f p b) ∧ InitStep m d f p b s t) := by
  cases h with
  | initFirst hq hp hf hc => exact Or.inr ⟨hq, _, _, _, _, _, hf, initStep_first hc⟩
  | @nextAccess i a rest hq hp hr hf =>
    rcases nextAccess_cases hok hp hr hf with ⟨m, d, f, p, b, rfl, hu, -⟩ | ⟨bps, hi, lo, rfl, hu, ⟨rfl, rfl⟩ | ⟨rfl, rfl⟩⟩
    · exact Or.inr ⟨hq, m, d, f, p, b, hf, initStep_access hu hp⟩
    · exact Or.inl ⟨rfl, rfl, rfl, rfl, rfl, rfl, rfl, rfl, rfl⟩
    · exact Or.inl ⟨rfl, rfl, rfl, rfl, rfl, rfl, rfl, rfl, rfl⟩
  | @initLast m d f p b a hq hp hf =>
    exact Or.inr ⟨hq, m, d, f, p, b, hf, initStep_access (hok.underWay (by simp [hp]) hf) hp⟩
  | setbaudLast hq hp hf =>
    obtain ⟨hi, lo, ⟨rfl, -⟩ | ⟨rfl, -⟩ | ⟨rfl, -⟩⟩ := setbaud_left (hok.underWay (by simp [hp]) hf) hp <;>
      exact Or.inl ⟨rfl, rfl, rfl, rfl, rfl, rfl, rfl, rfl, rfl⟩
  | enableLast hq hp hf =>
    obtain ⟨rfl, -⟩ := enable_left (hok.underWay (by simp [hp]) hf) hp
    exact Or.inl ⟨rfl, rfl, rfl, rfl, rfl, rfl, rfl, rfl, rfl⟩
  | txbyteSend hq hb => rw [sendChar_eq]; exact Or.inl ⟨rfl, rfl, rfl, rfl, rfl, rfl, rfl, rfl, rfl⟩
  | txlineSend hq hb => rw [sendChar_eq]; exact Or.inl ⟨rfl, rfl, rfl, rfl, rfl, rfl, rfl, rfl, rfl⟩
  | _ => exact Or.inl ⟨rfl, rfl, rfl, rfl, rfl, rfl, rfl, rfl, rfl⟩

/-- The register file holds a format throughout. -/
theorem SeqMove.formatLegal (h : SeqMove s t) (hok : SeqOk s) (hf : FormatLegal s) : FormatLegal t := by
  rcases h.latches_or_init hok with
    ⟨-, -, -, hsame⟩ | ⟨-, m, d, f, p, b, -, hc, ⟨-, hsame⟩ | ⟨made, rest, hm, hregs⟩, -⟩
  · rwa [FormatLegal, formatOf_of_sameFraming hsame]
  · rwa [FormatLegal, hsame]
  · exact (hregs.framingOk hm hc).1

/-- An access leaves TSR alone, or marks a frame in it corrupt. -/
theorem access_tsr_cases (a : Access) (s : State) :
    (access a s).tsr = s.tsr ∨ (access a s).tsr = s.tsr.map (corruptFrame s.draws) := by
  cases a with
  | baudl v => exact Or.inr rfl
  | _ => exact Or.inl rfl

/-- The sequencer leaves the frames as they are, or marks one in TSR corrupt. -/
theorem SeqMove.frames_eq (h : SeqMove s t) :
    t.txwire = s.txwire ∧ (t.tsr = s.tsr ∨ t.tsr = s.tsr.map (corruptFrame s.draws)) := by
  refine ⟨h.txwire_txc_eq.1, ?_⟩
  cases h with
  | @nextAccess i a rest hq hp hr hf => exact access_tsr_cases a { s with pending := rest }
  | @initLast m d f p b a hq hp hf => exact access_tsr_cases a { s with pending := [] }
  | @setbaudLast bps a hq hp hf => exact access_tsr_cases a { s with pending := [] }
  | @enableLast a hq hp hf => exact access_tsr_cases a { s with pending := [] }
  | txbyteSend | txlineSend => rw [sendChar_eq]; exact Or.inl rfl
  | _ => exact Or.inl rfl

/-- Marking a frame corrupt keeps its length, and nothing is claimed of its bits. -/
theorem FramesEncoded.corrupt (h : FramesEncoded s) (hform : formatOf t = formatOf s) (hw : t.txwire = s.txwire)
    (ht : t.tsr = s.tsr ∨ t.tsr = s.tsr.map (corruptFrame s.draws)) : FramesEncoded t := by
  intro g hg fr hfr
  rw [hform] at hg
  rw [hw] at hfr
  rcases ht with ht | ht <;> rw [ht] at hfr
  · exact h g hg fr hfr
  · rcases List.mem_append.mp hfr with hfr | hfr
    · obtain ⟨fr', hfr', rfl⟩ : ∃ fr', s.tsr = some fr' ∧ corruptFrame s.draws fr' = fr := by simpa using hfr
      obtain ⟨hlen, -⟩ := h g hg fr' (by simp [hfr'])
      exact ⟨by simpa using hlen, fun hc => by simp at hc⟩
    · exact h g hg fr (List.mem_append_right _ hfr)

/-- Before CONFIGURED there are no frames, and after it the format is fixed. -/
theorem SeqMove.framesEncoded (h : SeqMove s t) (hok : SeqOk s) (hlife : Lifecycle s) (hfr : FramesEncoded s) :
    FramesEncoded t := by
  obtain ⟨hw, ht⟩ := h.frames_eq
  rcases h.latches_or_init hok with ⟨-, -, -, hsame⟩ | ⟨-, m, d, f, p, b, -, hc, -⟩
  · exact hfr.corrupt (formatOf_of_sameFraming hsame) hw ht
  · obtain ⟨-, -, -, hfresh⟩ := hlife
    obtain ⟨htsr, hwire, -⟩ := hfresh (configured_of_initCause hc)
    have htsr' : t.tsr = none := by rcases ht with ht | ht <;> simp [ht, htsr]
    intro g hg fr hmem
    simp [htsr', hw, hwire] at hmem

/-! ## SEQ and the accesses left -/

theorem Fetches.lt (h : Fetches s i) : s.ci < s.program.length := by
  obtain ⟨w, hw, -⟩ := h
  exact (List.getElem?_eq_some_iff.mp hw).1

/-- A character is held in RXL(i) only. -/
theorem SeqOk.lineChar_eq_none (h : SeqOk s) (hq : ∀ i, s.seq ≠ .rxl i) : s.lineChar = none := by
  obtain ⟨-, -, -, hline, -⟩ := h
  by_contra hne
  obtain ⟨i, hi, -⟩ := hline hne
  exact hq i hi

/-- A command without accesses has none left when it starts. -/
theorem SeqOk.pending_eq_nil (h : SeqOk s) (hf : Fetches s i) (hnone : ¬ UnderWay i s) : s.pending = [] := by
  by_contra hne
  exact hnone (h.underWay hne hf)

/-- The command at CI in each waiting state. -/
theorem SeqOk.txbWait {v : Word16} (h : SeqOk s) (hq : s.seq = .txbWait v) : Fetches s (.txbyte v) := by
  obtain ⟨-, -, -, -, hm⟩ := h
  simpa only [hq] using hm

theorem SeqOk.txlFetch {x : Nat} (h : SeqOk s) (hq : s.seq = .txlFetch x) :
    ∃ addr : Word16, Fetches s (.txline addr) ∧ addr.toNat ≤ x ∧ x ≤ 0x10000 := by
  obtain ⟨-, -, -, -, hm⟩ := h
  simpa only [hq] using hm

theorem SeqOk.txlWait {x : Nat} {c : Byte} (h : SeqOk s) (hq : s.seq = .txlWait x c) :
    (∃ addr : Word16, Fetches s (.txline addr) ∧ addr.toNat ≤ x) ∧ x ≤ 0xFFFF ∧ memRead s.mem x = c ∧ c ≠ 0 := by
  obtain ⟨-, -, -, -, hm⟩ := h
  simpa only [hq] using hm

theorem SeqOk.rxbWait (h : SeqOk s) (hq : s.seq = .rxbWait) : Fetches s .rxbyte := by
  obtain ⟨-, -, -, -, hm⟩ := h
  simpa only [hq] using hm

theorem SeqOk.rxl {j : Nat} (h : SeqOk s) (hq : s.seq = .rxl j) : Fetches s .rxline ∧ j ≤ lineCap := by
  obtain ⟨-, -, -, -, hm⟩ := h
  simpa only [hq] using hm

/-- Between commands: at IDLE with nothing left over. -/
theorem seqOk_of_idle (hq : t.seq = .idle) (hci : t.ci ≤ t.program.length) (hp : t.pending = []) (hl : t.lineChar = none) :
    SeqOk t :=
  ⟨hci, fun _ => hp, fun h => absurd hp h, fun h => absurd hl h, by simp only [hq]⟩

theorem seqOk_raise (c : Cause) (hci : s.ci < s.program.length) (hp : s.pending = []) (hl : s.lineChar = none) :
    SeqOk (raise c s) :=
  ⟨hci.le, fun _ => hp, fun h => absurd hp h, fun h => absurd hl h, hci⟩

/-- At IDLE with accesses of the command at CI left. -/
theorem seqOk_of_underWay (hq : t.seq = .idle) (hf : Fetches t i) (hu : UnderWay i t) (hl : t.lineChar = none) : SeqOk t :=
  ⟨hf.lt.le, fun h => absurd hq h, fun _ => ⟨i, hf, hu⟩, fun h => absurd hl h, by simp only [hq]⟩

/-- SETBAUD's accesses made are shown after one more. -/
theorem made_setbaud {w : BitVec 16} (h : Made (setbaudAccesses w) s) (hp : s.pending = a :: rest) (hr : rest ≠ []) :
    Made (setbaudAccesses w) (access a { s with pending := rest }) := by
  obtain ⟨made, hne, hm, hshow⟩ := h
  refine ⟨made ++ [a], by simp, by simpa [hp] using hm, ?_⟩
  rw [hp] at hm
  rcases made with _ | ⟨x, _ | ⟨y, _ | ⟨z, _ | ⟨w', made⟩⟩⟩⟩ <;> simp_all [setbaudAccesses]
  · obtain ⟨rfl, rfl, rfl⟩ := hm
    exact ⟨hshow, rfl⟩
  · obtain ⟨rfl, rfl, rfl, rfl⟩ := hm
    exact ⟨hshow.1, hshow.2, rfl⟩

/-- A command under way is under way after one more access, unless that is its last. -/
theorem underWay_access (hok : SeqOk s) (hp : s.pending = a :: rest) (hr : rest ≠ []) (hf : Fetches s i) :
    UnderWay i (access a { s with pending := rest }) := by
  rcases nextAccess_cases hok hp hr hf with ⟨m, d, f, p, b, rfl, hu, -⟩ | ⟨bps, hi, lo, rfl, hu, hcase⟩
  · obtain ⟨hc, hmode, hspeed, made, hne, hm, hregs⟩ := underWay_init_iff.mp hu
    refine underWay_init_iff.mpr ⟨by simpa [initCause] using hc, by simpa using hmode, by simpa using hspeed, made ++ [a],
      by simp, by simpa [hp] using hm, hregs.access a rest⟩
  · obtain ⟨hc, hmade⟩ := hu
    have hmade' := made_setbaud hmade hp hr
    rcases hcase with ⟨rfl, rfl⟩ | ⟨rfl, rfl⟩ <;> exact ⟨hc, hmade'⟩

/-- SEQ stays a state of the command at CI, with accesses and a character of that command only. -/
theorem SeqMove.seqOk (h : SeqMove s t) (hok : SeqOk s) (hl : LatchesAgree s) : SeqOk t := by
  have hidle (hq : s.seq = .idle) : s.lineChar = none := hok.lineChar_eq_none (by simp [hq])
  obtain ⟨hci, hwait, hleft, hline, -⟩ := id hok
  cases h with
  | hold => exact hok
  | @decodeFault w c hq hw hd =>
    have hp : s.pending = [] := by
      by_contra hne
      obtain ⟨i, ⟨w', hw', hd'⟩, -⟩ := hleft hne
      cases hw.symm.trans hw'
      exact absurd (hd.symm.trans hd') (by simp)
    exact seqOk_raise c (List.getElem?_eq_some_iff.mp hw).1 hp (hidle hq)
  | initFault hq hp hf hc => exact seqOk_raise _ hf.lt hp (hidle hq)
  | setbaudFault hq hp hf hc => exact seqOk_raise _ hf.lt hp (hidle hq)
  | enableFault hq hp hf hd => exact seqOk_raise _ hf.lt hp (hidle hq)
  | @initFirst m d f p b hq hp hf hc =>
    obtain ⟨-, -, hreset, -⟩ := hl
    obtain ⟨-, -, hext, hframing⟩ := hreset (configured_of_initCause hc) hp
    have hregs : RegsAfter [] s := ⟨hext, hframing⟩
    exact seqOk_of_underWay (i := .init m d f p b) hq hf
      (underWay_init_iff.mpr ⟨hc, rfl, rfl, [.mode m], by simp, rfl, hregs.access (.mode m) []⟩) (hidle hq)
  | @setbaudFirst bps hq hp hf hc =>
    exact seqOk_of_underWay (i := .setbaud bps) hq hf
      ⟨hc, [.txen false], by simp, rfl, fun a ha => by cases List.mem_singleton.mp ha; rfl⟩ (hidle hq)
  | enableFirst hq hp hf hd =>
    exact seqOk_of_underWay (i := .enable) hq hf
      ⟨by simp [enableCause, hd], [.txen true], by simp, rfl, fun a ha => by cases List.mem_singleton.mp ha; rfl⟩ (hidle hq)
  | @nextAccess i a rest hq hp hr hf =>
    exact seqOk_of_underWay (i := i) (by simpa using hq) (by simpa [Fetches] using hf) (underWay_access hok hp hr hf)
      (by simpa using hidle hq)
  | initLast hq hp hf =>
    exact seqOk_of_idle rfl (by simpa [initEnd] using hf.lt) (by simp [initEnd]) (by simpa [initEnd] using hidle hq)
  | setbaudLast hq hp hf =>
    exact seqOk_of_idle rfl (by simpa [setbaudEnd] using hf.lt) (by simp [setbaudEnd]) (by simpa [setbaudEnd] using hidle hq)
  | enableLast hq hp hf =>
    exact seqOk_of_idle rfl (by simpa using hf.lt) (by simp) (by simpa using hidle hq)
  | txbyteStart hq hf =>
    have hp := hok.pending_eq_nil hf id
    exact ⟨hci, fun _ => hp, fun h => absurd hp h, fun h => absurd (hidle hq) h, hf⟩
  | txbyteSend hq hb =>
    rw [sendChar_eq]
    exact seqOk_of_idle rfl (hok.txbWait hq).lt (hwait (by simp [hq])) (hok.lineChar_eq_none (by simp [hq]))
  | txlineStart hq hf =>
    have hp := hok.pending_eq_nil hf id
    exact ⟨hci, fun _ => hp, fun h => absurd hp h, fun h => absurd (hidle hq) h, _, hf, le_rfl,
      BitVec.toNat_lt_twoPow_of_le le_rfl |>.le⟩
  | txlineFault hq ha =>
    obtain ⟨addr, hf, -⟩ := hok.txlFetch hq
    exact seqOk_raise _ hf.lt (hwait (by simp [hq])) (hok.lineChar_eq_none (by simp [hq]))
  | txlineEnd hq ha hz =>
    obtain ⟨addr, hf, -⟩ := hok.txlFetch hq
    exact seqOk_of_idle rfl hf.lt (hwait (by simp [hq])) (hok.lineChar_eq_none (by simp [hq]))
  | txlineRead hq ha hz =>
    have hp := hwait (by simp [hq])
    obtain ⟨addr, hf, hle, -⟩ := hok.txlFetch hq
    exact ⟨hci, fun _ => hp, fun h => absurd hp h, fun h => absurd (hok.lineChar_eq_none (by simp [hq])) h,
      ⟨addr, hf, hle⟩, ha, rfl, hz⟩
  | txlineSend hq hb =>
    have hp := hwait (by simp [hq])
    obtain ⟨⟨addr, hf, hle⟩, ha, -⟩ := hok.txlWait hq
    rw [sendChar_eq]
    exact ⟨hci, fun _ => hp, fun h => absurd hp h, fun h => absurd (hok.lineChar_eq_none (by simp [hq])) h,
      addr, hf, by omega, by omega⟩
  | rxbyteStart hq hf =>
    have hp := hok.pending_eq_nil hf id
    exact ⟨hci, fun _ => hp, fun h => absurd hp h, fun h => absurd (hidle hq) h, hf⟩
  | rxbyteTake hq hr =>
    exact seqOk_of_idle rfl (hok.rxbWait hq).lt (hwait (by simp [hq])) (hok.lineChar_eq_none (by simp [hq]))
  | rxlineStart hq hf =>
    have hp := hok.pending_eq_nil hf id
    exact ⟨hci, fun _ => hp, fun h => absurd hp h, fun h => absurd (hidle hq) h, hf, Nat.zero_le _⟩
  | @rxlineRead j e more hq hn hcap hr =>
    obtain ⟨hf, hle⟩ := hok.rxl hq
    have hp := hwait (by simp [hq])
    refine ⟨hci, fun _ => hp, fun h => absurd hp h, fun _ => ⟨j, hq, hcap.imp_left fun hj => by omega⟩, ?_⟩
    simp only [hq]
    exact ⟨hf, hle⟩
  | rxlineStore hq hn hj hne ha =>
    obtain ⟨hf, hle⟩ := hok.rxl hq
    have hp := hwait (by simp [hq])
    exact ⟨hci, fun _ => hp, fun h => absurd hp h, fun h => absurd rfl h, hf, by omega⟩
  | rxlineEnd hq hn he ha =>
    exact seqOk_of_idle rfl (hok.rxl hq).1.lt (hwait (by simp [hq])) rfl
  | rxlineCap hq hn hx ha =>
    exact seqOk_of_idle rfl (hok.rxl hq).1.lt (hwait (by simp [hq])) hn

/-! ## RXFIFO and LBPTR -/

theorem access_rxfifo_length_le (a : Access) (s : State) : (access a s).rxfifo.length ≤ s.rxfifo.length := by
  cases a with
  | rxen b =>
    simp only [access, setRxen_rxfifo]
    split <;> simp
  | _ => exact le_rfl

/-- The sequencer only takes entries from RXFIFO. -/
theorem SeqMove.rxfifo_length_le (h : SeqMove s t) : t.rxfifo.length ≤ s.rxfifo.length := by
  cases h with
  | @nextAccess i a rest hq hp hr hf => exact access_rxfifo_length_le a { s with pending := rest }
  | @initLast m d f p b a hq hp hf => exact access_rxfifo_length_le a { s with pending := [] }
  | @setbaudLast bps a hq hp hf => exact access_rxfifo_length_le a { s with pending := [] }
  | @enableLast a hq hp hf => exact access_rxfifo_length_le a { s with pending := [] }
  | txbyteSend | txlineSend => rw [sendChar_eq]; exact le_rfl
  | rxbyteTake hq hr | rxlineRead hq hl hi hr => simp [hr]
  | _ => exact le_rfl

/-- LBPTR is the environment's. -/
theorem SeqMove.lbptr_eq (h : SeqMove s t) : t.lbptr = s.lbptr := by
  cases h <;> simp [sendChar_eq, initEnd, setbaudEnd]

/-- An offer keeps LBPTR within TXWIRE. -/
theorem OfferAt.le {n : Nat} (h : OfferAt s n) (hlb : LoopbackOk s) : n ≤ s.txwire.length := by
  rcases h with ⟨-, rfl⟩ | ⟨-, -, hle⟩
  · exact hlb
  · exact hle

/-! ## The invariant -/

/-- Everything in the invariant but the canonical form of host memory, which every step keeps by itself. -/
theorem SeqMove.inv (h : SeqMove s t) (hm : Memory.wf t.mem = true) (hi : Inv s) : Inv t := by
  obtain ⟨hwf, -, hlegal, hfifo, hlife, hlatch, hdiv, hrec, hok, hframes, hlb⟩ := hi
  refine ⟨h.inputs_eq.1 ▸ hwf, hm, h.formatLegal hok hlegal, ?_, h.lifecycle hok hlife,
    h.latchesAgree hok hlife hlatch, h.divisorCommitted hok hdiv, h.recordOk hrec, h.seqOk hok hlatch,
    h.framesEncoded hok hlife hframes, ?_⟩
  · exact (h.rxfifo_length_le).trans hfifo
  · rw [LoopbackOk, h.lbptr_eq, h.frames_eq.1]
    exact hlb

/-- The engines and the environment keep the invariant: a frame is loaded in the present format, and frames are received only with
RXEN = 1, so once CONFIGURED. -/
theorem EngineMove.inv (h : EngineMove s t) (hi : Inv s) : Inv t := by
  obtain ⟨hwf, hm, hlegal, hfifo, hlife, hlatch, hdiv, hrec, hok, hframes, hlb⟩ := id hi
  obtain ⟨htx, hrx, hset, hfresh⟩ := id hlife
  have hcfg_of_rxen (hr : s.rxen = true) : s.configured ≠ false := by simp [hset (hrx hr)]
  cases h with
  | idle => exact hi
  | @load v f hx hb ht hf =>
    have hcfg : s.configured ≠ false := by simp [hset (htx hx)]
    refine ⟨hwf, hm, hlegal, hfifo, ⟨htx, hrx, hset, fun h => absurd h hcfg⟩, hlatch, hdiv, hrec, hok, fun g hg fr hfr => ?_, hlb⟩
    obtain rfl : f = g := Option.some.inj (hf.symm.trans hg)
    rcases List.mem_cons.mp hfr with rfl | hfr
    · exact ⟨encodeFrame_length f v, fun _ => ⟨v, rfl⟩⟩
    · exact hframes f hg fr (List.mem_append_right _ hfr)
  | @shift fr ht =>
    have hcfg : s.configured ≠ false := fun h => by
      obtain ⟨hnone, -⟩ := hfresh h
      exact absurd (ht.symm.trans hnone) (by simp)
    refine ⟨hwf, hm, hlegal, hfifo, ⟨htx, hrx, hset, fun h => absurd h hcfg⟩, hlatch, hdiv, hrec, hok, fun g hg fr' hfr => ?_, ?_⟩
    · have hfr : fr' ∈ s.txwire ++ [fr] := by simpa using hfr
      exact hframes g hg fr' (by simp [ht]; simp at hfr; tauto)
    · simp only [LoopbackOk, List.length_append]
      exact Nat.le_add_right_of_le hlb
  | @lost n hn hr =>
    refine ⟨hwf, hm, hlegal, hfifo, hlife, hlatch, hdiv, hrec, hok, hframes, hn.le hlb⟩
  | @push n e hn hr hd =>
    refine ⟨hwf, hm, hlegal, ?_, ⟨htx, hrx, hset, fun h => absurd h (hcfg_of_rxen hr)⟩, hlatch, hdiv, hrec, hok, hframes, hn.le hlb⟩
    simpa [FifoBounded] using hd
  | @overrun n hn hr hd =>
    exact ⟨hwf, hm, hlegal, hfifo, hlife, hlatch, hdiv, hrec, hok, hframes, hn.le hlb⟩

/-- A launch meets the invariant. -/
theorem inv_launch {ps : Params} {mem : Memory} (hwf : ps.wf = true) (hm : Memory.wf mem = true) (prog : List CmdWord) :
    Inv (State.launch ps prog mem) := by
  refine ⟨hwf, hm, ?_, Nat.zero_le _, ?_, ?_, ?_, ?_, ?_, ?_, Nat.le_refl _⟩
  · simp [FormatLegal, formatOf_launch]
  · simp [Lifecycle, State.launch]
  · simp [LatchesAgree, SameFraming, State.launch]
  · simp [DivisorCommitted, baudPair, State.launch]
  · simp [RecordOk, State.launch]
  · exact seqOk_of_idle rfl (Nat.zero_le _) rfl rfl
  · intro f hf fr hfr
    simp [State.launch] at hfr

/-- Settles O49: every launch, and State.reset as one. -/
theorem invariantAtLaunch : Obligations.InvariantAtLaunch := by
  unfold Obligations.InvariantAtLaunch
  exact ⟨fun p program mem hwf hm => inv_launch hwf hm program, inv_launch (by decide) reset_memory_wf []⟩

/-- Taking the event reads and writes nothing the invariant speaks of. -/
theorem inv_afterEvent (h : Inv s) : Inv (afterEvent s) := by
  rw [afterEvent_eq]
  exact h

/-- Settles O50: the sequencer's moves, the engines' moves, and reset, which is a launch. -/
theorem stepKeepsInvariant : Obligations.StepKeepsInvariant := by
  unfold Obligations.StepKeepsInvariant
  intro s t hi h
  obtain ⟨hwf, hmem, -⟩ := id hi
  rcases step_cases h with ⟨-, hmove⟩ | ⟨-, -, hmove⟩ | ⟨-, rfl⟩
  · exact hmove.inv (step_memory_wf hmem h) (inv_afterEvent hi)
  · exact hmove.inv (inv_afterEvent hi)
  · rw [← afterEvent_params] at hwf
    exact inv_launch hwf (memZero_wf (by simpa using hmem) _ _) _

/-! ## No stop -/

/-- A step of INIT, SETBAUD or ENABLE has a next state. -/
theorem commandStep_exists (cause : Option Cause) (latch : State → State) (as : List Access) (fin : State → State)
    (s : State) : ∃ t, commandStep cause latch as fin s = .next t := by
  have left (u : State) : ∃ t, accessStep fin u = .next t := by
    unfold accessStep
    split <;> exact ⟨_, rfl⟩
  unfold commandStep
  split
  · split
    · split
      · exact ⟨_, rfl⟩
      · exact left _
    · exact left _
  · exact ⟨_, rfl⟩

/-- The line buffer lies in host memory, so RXLINE's stores have a next state. -/
theorem rxlStep_exists (hwf : s.params.wf = true) {j : Nat} (hj : j ≤ lineCap) : ∃ t, rxlStep j s = .next t := by
  have store (u : State) (hu : u.params = s.params) {j' : Nat} (hj' : j' ≤ lineCap) (v : Byte) (k : State → State) :
      ∃ t, storeLine j' v u k = .next t := ⟨_, storeLine_eq (lineAddr_lt (hu ▸ hwf) hj') v k⟩
  unfold rxlStep
  split
  · rename_i c hc
    unfold rxlStoreStep
    split
    · exact store { s with lineChar := none } rfl hj _ _
    · exact store { s with lineChar := none } rfl hj _ _
  · split
    · exact store s rfl le_rfl _ _
    · unfold rxlReadStep
      split <;> exact ⟨_, rfl⟩

/-- A command's step has a next state, with the bound of RXL(i). -/
theorem exec_exists (i : Instr) (hwf : s.params.wf = true) (hj : ∀ j, s.seq = .rxl j → j ≤ lineCap) :
    ∃ t, exec i s = .next t := by
  cases i with
  | init m d f p b => exact commandStep_exists _ _ _ _ s
  | setbaud bps => exact commandStep_exists _ _ _ _ s
  | enable => exact commandStep_exists _ _ _ _ s
  | txbyte v =>
    simp only [exec, execTxbyte, txbWaitStep]
    split
    · exact ⟨_, rfl⟩
    · split <;> exact ⟨_, rfl⟩
    · exact ⟨_, rfl⟩
  | txline x =>
    simp only [exec, execTxline, txlFetchStep, txlWaitStep]
    split
    · exact ⟨_, rfl⟩
    · split
      · exact ⟨_, rfl⟩
      · split <;> exact ⟨_, rfl⟩
    · split <;> exact ⟨_, rfl⟩
    · exact ⟨_, rfl⟩
  | rxbyte =>
    simp only [exec, execRxbyte, rxbWaitStep]
    split
    · exact ⟨_, rfl⟩
    · split <;> exact ⟨_, rfl⟩
    · exact ⟨_, rfl⟩
  | rxline =>
    simp only [exec, execRxline]
    split
    · exact ⟨_, rfl⟩
    · exact rxlStep_exists hwf (hj _ ‹_›)
    · exact ⟨_, rfl⟩

theorem sequencerTurn_exists (hwf : s.params.wf = true) (hj : ∀ j, s.seq = .rxl j → j ≤ lineCap) :
    ∃ t, sequencerTurn s = .next t := by
  unfold sequencerTurn
  split
  · unfold fetchStep
    split
    · split
      · exact exec_exists _ hwf hj
      · exact ⟨_, rfl⟩
    · exact ⟨_, rfl⟩
  · exact exec_exists _ hwf hj
  · exact exec_exists _ hwf hj
  · exact exec_exists _ hwf hj
  · exact exec_exists _ hwf hj
  · exact exec_exists _ hwf hj
  · exact ⟨_, rfl⟩

theorem txLoad_exists (hl : FormatLegal s) : ∃ t, txLoad s = .next t := by
  obtain ⟨f, hf⟩ := Option.ne_none_iff_exists'.mp hl
  unfold txLoad
  split
  · simp only [hf]
    exact ⟨_, rfl⟩
  · exact ⟨_, rfl⟩

theorem receive_exists {free : BitVec 11} {source : Option Frame} (hl : FormatLegal s) :
    ∃ t, receive free source s = .next t := by
  obtain ⟨f, hf⟩ := Option.ne_none_iff_exists'.mp hl
  simp only [receive, hf]
  split
  · split <;> exact ⟨_, rfl⟩
  · exact ⟨_, rfl⟩

theorem offerFrame_exists {free : BitVec 11} (hl : FormatLegal s) : ∃ t, offerFrame free s = .next t := by
  unfold offerFrame
  split
  · split
    · rename_i f hf
      exact receive_exists (s := { s with lbptr := s.lbptr + 1 }) hl
    · exact ⟨_, rfl⟩
  · exact receive_exists hl

/-- Settles O51: the engines stop only without a format, the sequencer only past host memory; the invariant excludes both. -/
theorem invariantStateNeverStops : Obligations.InvariantStateNeverStops := by
  unfold Obligations.InvariantStateNeverStops
  intro s hi
  obtain ⟨hwf, -, hlegal, -, -, -, -, -, hok, -⟩ := inv_afterEvent hi
  rw [step_eq]
  cases nextEvent s with
  | sequencer => exact sequencerTurn_exists hwf fun j hj => (hok.rxl hj).2
  | txLoad => exact txLoad_exists hlegal
  | txShift =>
    rcases ht : (afterEvent s).tsr with _ | fr
    · exact ⟨_, txShift_of_none ht⟩
    · exact ⟨_, txShift_of_some ht⟩
  | offer free => exact offerFrame_exists hlegal
  | reset => exact ⟨_, rfl⟩

end Sys2Proof.Machine
end

section
/-! PROOF. The safety family: what enters FAULTED, who writes the latches, the divisor, RES and host memory, in which order
characters leave, and what a final state keeps (spec/60_exceptions.md R116, R119; spec/10_state.md R16, R28, R36;
spec/20_memory.md R42; spec/43_frame_codec.md R98, R100; spec/40_sequencer.md R78). -/

namespace Sys2Proof.Machine

variable {s t : State}

/-! ## Fault entry -/

/-- The rows of the fault table (R116). -/
def InFaultTable (code sub : Byte) : Prop :=
  (code = 1 ∧ (sub = 0 ∨ (8 ≤ sub.toNat ∧ sub.toNat ≤ 15))) ∨
  (code = 2 ∧ (sub = 1 ∨ (3 ≤ sub.toNat ∧ sub.toNat ≤ 7))) ∨
  (code = 3 ∧ 1 ≤ sub.toNat ∧ sub.toNat ≤ 3) ∨
  (code = 4 ∧ sub = 0) ∨
  (code = 5 ∧ 1 ≤ sub.toNat ∧ sub.toNat ≤ 2) ∨
  (code = 6 ∧ 1 ≤ sub.toNat ∧ sub.toNat ≤ 3) ∨
  (code = 7 ∧ sub = 0)

/-- A cause that the decoder does not give stands in the table. -/
theorem inFaultTable_of_not_decoder {c : Cause} (ho : ∀ op, c ≠ .reservedOpcode op) (hf : ∀ op, c ≠ .reservedField op) :
    InFaultTable (causeCode c) (causeSub c) := by
  cases c with
  | reservedOpcode op => exact absurd rfl (ho op)
  | reservedField op => exact absurd rfl (hf op)
  | _ => simp [InFaultTable, causeCode, causeSub]

theorem inFaultTable_of_reservedOpcode {op : BitVec 4} (h : op = 0 ∨ 8 ≤ op.toNat) :
    InFaultTable (causeCode (.reservedOpcode op)) (causeSub (.reservedOpcode op)) := by
  have hlt := op.isLt
  refine Or.inl ⟨rfl, ?_⟩
  rcases h with rfl | h
  · exact Or.inl rfl
  · refine Or.inr ?_
    simp only [causeSub, BitVec.toNat_setWidth]
    omega

theorem inFaultTable_of_reservedField {op : BitVec 4} (h : op = 1 ∨ (3 ≤ op.toNat ∧ op.toNat ≤ 7)) :
    InFaultTable (causeCode (.reservedField op)) (causeSub (.reservedField op)) := by
  refine Or.inr (Or.inl ⟨rfl, ?_⟩)
  rcases h with rfl | h
  · exact Or.inl rfl
  · refine Or.inr ?_
    simp only [causeSub, BitVec.toNat_setWidth]
    omega

/-- The decoder's causes stand in the table (R63). -/
theorem inFaultTable_of_decode {w : CmdWord} {c : Cause} (h : decode w = .error c) :
    InFaultTable (causeCode c) (causeSub c) := by
  have hlt : slice w 31 28 < 16 := by simp only [slice]; omega
  have hop : (BitVec.ofNat 4 (slice w 31 28)).toNat = slice w 31 28 := by
    rw [BitVec.toNat_ofNat, Nat.mod_eq_of_lt hlt]
  rcases decode_eq_error_iff.mp h with ⟨h', rfl⟩ | ⟨-, -, rfl⟩ | ⟨h', -, rfl⟩ | ⟨h', -, rfl⟩
  · exact inFaultTable_of_reservedOpcode (h'.imp (fun h0 => by rw [h0]; rfl) fun h8 => hop.symm ▸ h8)
  · exact inFaultTable_of_reservedField (Or.inl rfl)
  · exact inFaultTable_of_reservedField (Or.inr (by omega))
  · exact inFaultTable_of_reservedField (Or.inr (by omega))

/-- INIT's causes are its own four. -/
theorem inFaultTable_of_initCause {f b : Nat} {p : BitVec 2} {c : Cause} (h : initCause f p b s = some c) :
    InFaultTable (causeCode c) (causeSub c) := by
  unfold initCause at h
  split_ifs at h <;> cases h <;> exact inFaultTable_of_not_decoder (by simp) (by simp)

theorem inFaultTable_of_setbaudCause {bps : Nat} {c : Cause} (h : setbaudCause bps s = some c) :
    InFaultTable (causeCode c) (causeSub c) := by
  unfold setbaudCause at h
  split_ifs at h <;> cases h <;> exact inFaultTable_of_not_decoder (by simp) (by simp)

/-- A move of the sequencer that ends in FAULTED is a fault entry with a row of the table. -/
theorem SeqMove.fault_entry (h : SeqMove s t) (hs : s.seq ≠ .faulted) (ht : t.seq = .faulted) :
    ∃ c, t = raise c s ∧ InFaultTable (causeCode c) (causeSub c) := by
  cases h with
  | hold => exact absurd ht hs
  | decodeFault hq hw hd => exact ⟨_, rfl, inFaultTable_of_decode hd⟩
  | initFault hq hp hf hc => exact ⟨_, rfl, inFaultTable_of_initCause hc⟩
  | setbaudFault hq hp hf hc => exact ⟨_, rfl, inFaultTable_of_setbaudCause hc⟩
  | enableFault hq hp hf hd => exact ⟨_, rfl, inFaultTable_of_not_decoder (by simp) (by simp)⟩
  | txlineFault hq ha => exact ⟨_, rfl, inFaultTable_of_not_decoder (by simp) (by simp)⟩
  | _ => simp_all [initEnd, setbaudEnd]

/-- Settles O11: only the sequencer's fault entries lead to FAULTED. -/
theorem faultEntryWritesRecordOnly : Obligations.FaultEntryWritesRecordOnly := by
  unfold Obligations.FaultEntryWritesRecordOnly
  intro s t hs h ht
  rcases step_cases h with ⟨he, hm⟩ | ⟨-, -, hm⟩ | ⟨-, rfl⟩
  · obtain ⟨c, rfl, htable⟩ := hm.fault_entry (by simpa using hs) ht
    exact ⟨he, rfl, htable⟩
  · exact absurd ((afterEvent_seq s).symm.trans (hm.seq_eq.symm.trans ht)) hs
  · exact absurd ht (by simp [resetBlock, State.launch])

/-! ## Who writes the latches, the divisor and RES -/

/-- Taking the event keeps SEQ and the accesses left in order. -/
theorem seqOk_afterEvent (h : SeqOk s) : SeqOk (afterEvent s) := by
  rw [afterEvent_eq]
  exact h

/-- The sequencer never clears CONFIGURED or DIV_SET. -/
theorem SeqMove.flags_mono (h : SeqMove s t) :
    (s.configured = true → t.configured = true) ∧ (s.divSet = true → t.divSet = true) := by
  cases h <;> simp +contextual [sendChar_eq, initEnd, setbaudEnd]

/-- No engine and no offer writes the latches, the flags, the framing fields, the divisor or RES. -/
theorem EngineMove.config_eq (h : EngineMove s t) :
    SameLatches s t ∧ SameFraming s t ∧ SameDivisor s t ∧ t.res = s.res := by
  cases h <;> exact ⟨⟨rfl, rfl, rfl, rfl, rfl⟩, ⟨rfl, rfl, rfl, rfl, rfl, rfl⟩, ⟨rfl, rfl, rfl⟩, rfl⟩

/-- The code of a frame size reads the framing fields only. -/
@[simp] theorem fsz_afterEvent (s : State) : fsz (afterEvent s) = fsz s := by
  rw [afterEvent_eq]
  rfl

/-- Settles O53: a step of INIT has CONFIGURED = 0, and its write of EXT follows those of the width. -/
theorem formatFixedOnceConfigured : Obligations.FormatFixedOnceConfigured := by
  unfold Obligations.FormatFixedOnceConfigured
  intro s t hok h hr
  rcases step_cases h with ⟨he, hm⟩ | ⟨-, -, hm⟩ | ⟨he, -⟩
  · have hmono := hm.flags_mono
    rcases hm.latches_or_init (seqOk_afterEvent hok) with ⟨h1, h2, h3, h4⟩ | ⟨hq, m, d, f, p, b, hf, hc, hregs, hx⟩
    · have hform := formatOf_of_sameFraming h4
      simp only [afterEvent_modef, afterEvent_u2xf, afterEvent_ext, afterEvent_configured, afterEvent_divSet,
        formatOf_afterEvent] at h1 h2 h3 hform hmono
      exact ⟨fun hne => by tauto, fun _ _ _ _ _ hne => absurd h3 hne, hmono⟩
    · rw [fetches_afterEvent] at hf
      have hcfg : s.configured = false := by simpa using configured_of_initCause hc
      simp only [afterEvent_seq, afterEvent_ext, afterEvent_configured, afterEvent_divSet, fsz_afterEvent,
        formatOf_afterEvent] at hq hregs hx hmono
      refine ⟨fun _ => ⟨hcfg, hq, he, m, d, f, p, b, hf⟩, fun m' d' f' p' b' hne hf' => ?_, hmono⟩
      cases fetches_unique hf hf'
      obtain ⟨hval, hfsz⟩ := hx hne
      rcases hregs with ⟨hsame, -⟩ | ⟨made, rest, hm, hregs⟩
      · exact absurd hsame hne
      · exact ⟨hval, fun htrue => hfsz.symm.trans ((hregs.framingOk hm hc).2 htrue)⟩
  · obtain ⟨⟨h1, h2, h3, h4, h5⟩, hframing, -⟩ := hm.config_eq
    have hform := formatOf_of_sameFraming hframing
    simp only [afterEvent_modef, afterEvent_u2xf, afterEvent_ext, afterEvent_configured, afterEvent_divSet,
      formatOf_afterEvent] at h1 h2 h3 h4 h5 hform
    exact ⟨fun hne => by tauto, fun _ _ _ _ _ hne => absurd h3 hne, fun hs => h4.trans hs, fun hs => h5.trans hs⟩
  · exact absurd he hr

/-- The divisor registers change in SETBAUD's own steps only. -/
theorem SeqMove.sameDivisor_or_setbaud (h : SeqMove s t) (hok : SeqOk s) :
    SameDivisor s t ∨ (s.seq = .idle ∧ ∃ bps, Fetches s (.setbaud bps) ∧ UnderWay (.setbaud bps) s) := by
  cases h with
  | @nextAccess i a rest hq hp hr hf =>
    rcases nextAccess_cases hok hp hr hf with ⟨m, d, f, p, b, rfl, hu, ha⟩ | ⟨bps, hi, lo, rfl, hu, -⟩
    · obtain ⟨-, -, hdiv, -⟩ := access_of_isInitAccess ha { s with pending := rest }
      exact Or.inl hdiv
    · exact Or.inr ⟨hq, bps, hf, hu⟩
  | @initLast m d f p b a hq hp hf =>
    have ha := isInitAccess_of_underWay (hok.underWay (by simp [hp]) hf) hp
    obtain ⟨-, -, hdiv, -⟩ := access_of_isInitAccess ha { s with pending := [] }
    exact Or.inl hdiv
  | @setbaudLast bps a hq hp hf => exact Or.inr ⟨hq, bps, hf, hok.underWay (by simp [hp]) hf⟩
  | enableLast hq hp hf =>
    obtain ⟨rfl, -⟩ := enable_left (hok.underWay (by simp [hp]) hf) hp
    exact Or.inl ⟨rfl, rfl, rfl⟩
  | txbyteSend | txlineSend => rw [sendChar_eq]; exact Or.inl ⟨rfl, rfl, rfl⟩
  | _ => exact Or.inl ⟨rfl, rfl, rfl⟩

/-- RES changes at the end of RXBYTE and of RXLINE only. -/
theorem SeqMove.res_cases (h : SeqMove s t) (hok : SeqOk s) :
    t.res = s.res ∨ (s.seq = .rxbWait ∧ Fetches s .rxbyte) ∨
      (∃ i, s.seq = .rxl i ∧ Fetches s .rxline ∧ t.res = s.params.linebufBase) := by
  cases h with
  | rxbyteTake hq hr => exact Or.inr (Or.inl ⟨hq, hok.rxbWait hq⟩)
  | rxlineEnd hq hl he ha => exact Or.inr (Or.inr ⟨_, hq, (hok.rxl hq).1, rfl⟩)
  | rxlineCap hq hl hx ha => exact Or.inr (Or.inr ⟨_, hq, (hok.rxl hq).1, rfl⟩)
  | _ => exact Or.inl (by simp [sendChar_eq, initEnd, setbaudEnd])

/-- Taking the event leaves the command under way. -/
theorem underWay_afterEvent {i : Instr} : UnderWay i (afterEvent s) ↔ UnderWay i s := by
  rw [afterEvent_eq]
  cases i <;> rfl

/-- Settles O54: the divisor registers and RES, each by the moves that write it. -/
theorem divisorAndResultWriters : Obligations.DivisorAndResultWriters := by
  unfold Obligations.DivisorAndResultWriters
  intro s t hok h hr
  rcases step_cases h with ⟨he, hm⟩ | ⟨-, -, hm⟩ | ⟨he, -⟩
  · have hok' := seqOk_afterEvent hok
    refine ⟨fun hne => ?_, fun hne => ⟨he, ?_⟩⟩
    · rcases hm.sameDivisor_or_setbaud hok' with ⟨hbh, hbl, hda⟩ | ⟨hq, bps, hf, hu⟩
      · simp [hbh, hbl, hda, baudPair] at hne
      · exact ⟨he, by simpa using hq, bps, (fetches_afterEvent s _).mp hf, underWay_afterEvent.mp hu⟩
    · rcases hm.res_cases hok' with hres | hwait | hline
      · exact absurd (by simpa using hres) hne
      · exact Or.inl (by simpa [fetches_afterEvent] using hwait)
      · exact Or.inr (by simpa [fetches_afterEvent] using hline)
  · obtain ⟨-, -, ⟨hbh, hbl, hda⟩, hres⟩ := hm.config_eq
    exact ⟨fun hne => by simp [hbh, hbl, hda, baudPair] at hne, fun hne => absurd (by simpa using hres) hne⟩
  · exact absurd he hr

/-! ## Who writes host memory -/

/-- Settles O45: the written byte by the canonical form, every other one without it. -/
theorem memoryReadsLastWrite : Obligations.MemoryReadsLastWrite := by
  unfold Obligations.MemoryReadsLastWrite
  intro m a x v hm
  split_ifs with hx
  · exact hx ▸ memRead_memWrite_same hm a v
  · exact memRead_memWrite_ne hx m v

/-- No engine and no offer writes host memory. -/
theorem EngineMove.mem_eq (h : EngineMove s t) : t.mem = s.mem := by
  cases h <;> rfl

/-- The sequencer leaves host memory alone, but for RXLINE's write of LINEBUF[i]. -/
theorem SeqMove.mem_cases (h : SeqMove s t) :
    t.mem = s.mem ∨ ∃ i v, s.seq = .rxl i ∧ t.mem = memWrite s.mem (lineAddr s i) v := by
  cases h with
  | rxlineStore hq hl hi hne ha => exact Or.inr ⟨_, _, hq, rfl⟩
  | rxlineEnd hq hl he ha => exact Or.inr ⟨_, _, hq, rfl⟩
  | rxlineCap hq hl hx ha => exact Or.inr ⟨_, _, hq, rfl⟩
  | _ => exact Or.inl (by simp [sendChar_eq, initEnd, setbaudEnd])

/-- Settles O46: RXLINE writes at LINEBUF[i], with i at most 9 as SEQ is in order, and reset zeroes the line buffer. -/
theorem memoryWrittenOnlyByRxline : Obligations.MemoryWrittenOnlyByRxline := by
  unfold Obligations.MemoryWrittenOnlyByRxline
  intro s t a hok h hne
  rcases step_cases h with ⟨he, hm⟩ | ⟨-, -, hm⟩ | ⟨he, rfl⟩
  · rcases hm.mem_cases with hmem | ⟨i, v, hq, hmem⟩
    · exact absurd (by rw [hmem, afterEvent_mem]) hne
    · rw [afterEvent_seq] at hq
      rw [lineAddr_afterEvent, afterEvent_mem] at hmem
      obtain ⟨hf, hi⟩ := hok.rxl hq
      have ha : a = lineAddr s i := by
        by_contra hx
        exact hne (by rw [hmem, memRead_memWrite_ne hx])
      simp only [lineCap, lineAddr] at hi ha ⊢
      exact ⟨by omega, by omega, Or.inr ⟨he, hf, i, hq, ha⟩⟩
  · exact absurd (by rw [hm.mem_eq, afterEvent_mem]) hne
  · have hin : ¬ (a < lineAddr s 0 ∨ lineAddr s 9 < a) := fun hout =>
      hne ((memRead_resetBlock_outside (by simpa using hout)).trans (by rw [afterEvent_mem]))
    push Not at hin
    exact ⟨hin.1, hin.2, Or.inl he⟩

/-! ## The order of characters -/

/-- The frames of the transmit path read the format and four fields. -/
theorem outgoing_congr (hw : t.txwire = s.txwire) (ht : t.tsr = s.tsr) (hb : t.txbuf = s.txbuf)
    (hf : formatOf t = formatOf s) : outgoing t = outgoing s := by
  simp only [outgoing, hw, ht, hb, hf]

@[simp] theorem outgoing_afterEvent (s : State) : outgoing (afterEvent s) = outgoing s :=
  outgoing_congr (afterEvent_txwire s) (afterEvent_tsr s) (afterEvent_txbuf s) (formatOf_afterEvent s)

/-- A character buffered in an empty TXBUF adds its frame at the end. -/
theorem outgoing_buffered {v : Char9} (hw : t.txwire = s.txwire) (ht : t.tsr = s.tsr) (hs : s.txbuf = none)
    (hb : t.txbuf = some v) (hf : formatOf t = formatOf s) :
    outgoing t = outgoing s ∨
      ∃ f, formatOf s = some f ∧ outgoing t = outgoing s ++ [some (encodeFrame f v)] := by
  cases hform : formatOf s with
  | none => exact Or.inl (by simp [outgoing, hw, ht, hf, hform])
  | some f => exact Or.inr ⟨f, rfl, by simp [outgoing, hw, ht, hs, hb, hf, hform]⟩

/-- A frame in TSR marked corrupt keeps its place. -/
theorem outgoing_corrupt {fr : Frame} {n : Nat} (hw : t.txwire = s.txwire)
    (ht : t.tsr = some (corruptFrame n fr)) (hb : t.txbuf = s.txbuf) (hf : formatOf t = formatOf s) :
    outgoing t = outgoing { s with tsr := some { fr with corrupt := true } } := by
  have hform : formatOf { s with tsr := some { fr with corrupt := true } } = formatOf s := rfl
  simp only [outgoing, hw, ht, hb, hf, hform, Option.toList_some, List.map_cons, List.map_nil, fixedBits, corruptFrame,
    if_true]

/-- Only the access of BAUDL touches a frame in TSR. -/
theorem access_tsr {a : Access} (h : ∀ v, a ≠ .baudl v) (s : State) : (access a s).tsr = s.tsr := by
  cases a with
  | baudl v => exact absurd rfl (h v)
  | _ => rfl

/-- What the sequencer does to the frames of the transmit path. -/
def OutgoingMove (s t : State) : Prop :=
  outgoing t = outgoing s ∨
  (s.txbuf = none ∧ ∃ f v, formatOf s = some f ∧ t.txbuf = some v ∧
    outgoing t = outgoing s ++ [some (encodeFrame f v)]) ∨
  ((∃ lo rest, s.pending = .baudl lo :: rest) ∧ ∃ fr, s.tsr = some fr ∧
    outgoing t = outgoing { s with tsr := some { fr with corrupt := true } })

/-- An access keeps the frames as they are, or is the write of BAUDL with a frame in TSR. -/
theorem outgoingMove_access {a : Access} {rest : List Access} (hp : s.pending = a :: rest)
    (hw : t.txwire = s.txwire) (ht : t.tsr = (access a { s with pending := rest }).tsr) (hb : t.txbuf = s.txbuf)
    (hf : formatOf t = formatOf s) : OutgoingMove s t := by
  by_cases ha : ∃ lo, a = .baudl lo
  · obtain ⟨lo, rfl⟩ := ha
    cases hs : s.tsr with
    | none => exact Or.inl (outgoing_congr hw (ht.trans (by simp [access, hs])) hb hf)
    | some fr =>
      exact Or.inr (Or.inr ⟨⟨lo, rest, hp⟩, fr, hs,
        outgoing_corrupt hw (ht.trans (by simp [access, hs]; rfl)) hb hf⟩)
  · push Not at ha
    exact Or.inl (outgoing_congr hw (ht.trans (access_tsr ha _)) hb hf)

theorem outgoingMove_buffered {v : Char9} (hw : t.txwire = s.txwire) (ht : t.tsr = s.tsr) (hs : s.txbuf = none)
    (hb : t.txbuf = some v) (hf : formatOf t = formatOf s) : OutgoingMove s t :=
  (outgoing_buffered hw ht hs hb hf).imp_right fun ⟨f, hform, hout⟩ => Or.inl ⟨hs, f, v, hform, hb, hout⟩

theorem outgoingMove_afterEvent : OutgoingMove (afterEvent s) t ↔ OutgoingMove s t := by
  rw [afterEvent_eq]
  rfl

theorem SeqMove.outgoingMove (h : SeqMove s t) (hf : formatOf t = formatOf s) : OutgoingMove s t := by
  cases h with
  | nextAccess hq hp hr hfe => exact outgoingMove_access hp (by simp) rfl (by simp) hf
  | initLast hq hp hfe => exact outgoingMove_access hp (by simp) rfl (by simp [initEnd]) hf
  | setbaudLast hq hp hfe => exact outgoingMove_access hp (by simp) rfl (by simp [setbaudEnd]) hf
  | enableLast hq hp hfe => exact outgoingMove_access hp (by simp) rfl (by simp) hf
  | txbyteSend hq hb => exact outgoingMove_buffered (by simp) (by simp [sendChar_eq]) hb (by rw [sendChar_eq]; rfl) hf
  | txlineSend hq hb => exact outgoingMove_buffered (by simp) (by simp [sendChar_eq]) hb (by rw [sendChar_eq]; rfl) hf
  | _ => exact Or.inl (outgoing_congr rfl rfl rfl hf)

/-- LOAD and SHIFT move a frame one place on, and an offer touches none. -/
theorem EngineMove.outgoing_eq (h : EngineMove s t) : outgoing t = outgoing s := by
  cases h with
  | @load v f hx hb ht hf =>
    have hform : formatOf { s with tsr := some { bits := encodeFrame f v, corrupt := false }, txbuf := none } = some f := hf
    simp [outgoing, hb, ht, hf, hform, fixedBits]
  | @shift fr ht =>
    have hform : formatOf { s with txwire := s.txwire ++ [fr], tsr := none, txc := s.txc || udre s } = formatOf s := rfl
    simp [outgoing, ht, hform]
  | _ => rfl

/-- Settles O55: the sequencer's moves and the engines' on the frames of the transmit path. -/
theorem charactersLeaveInOrder : Obligations.CharactersLeaveInOrder := by
  unfold Obligations.CharactersLeaveInOrder
  intro s t h hr hf
  rcases step_cases h with ⟨he, hm⟩ | ⟨-, -, hm⟩ | ⟨he, -⟩
  · rcases outgoingMove_afterEvent.mp (hm.outgoingMove (hf.trans (formatOf_afterEvent s).symm)) with
      hsame | ⟨hb, hbuffered⟩ | hcorrupt
    · exact Or.inl hsame
    · exact Or.inr (Or.inl ⟨hb, he, hbuffered⟩)
    · exact Or.inr (Or.inr ⟨he, hcorrupt⟩)
  · exact Or.inl (hm.outgoing_eq.trans (outgoing_afterEvent s))
  · exact absurd he hr

/-! ## The end of a run, and reset -/

/-- At the end of the program the sequencer has no step (R70). -/
theorem sequencerTurn_of_end (hq : s.seq = .idle) (hci : s.program.length ≤ s.ci) : sequencerTurn s = .next s := by
  have hnone : s.program[s.ci]? = none := List.getElem?_eq_none hci
  rw [sequencerTurn_idle hq]
  simp only [fetchStep, hnone, hold]

theorem sequencerTurn_of_final (h : Final s) : sequencerTurn s = .next s := by
  obtain ⟨hq, hci, -, -⟩ := h
  exact sequencerTurn_of_end hq hci.ge

/-- An offer changes RXFIFO, DOR and LBPTR only, LBPTR only in loopback. -/
theorem offerFrame_next_eq {free : BitVec 11} (h : offerFrame free s = .next t) :
    t = { s with rxfifo := t.rxfifo, dor := t.dor, lbptr := t.lbptr } ∧
      (s.params.loopback = false → t.lbptr = s.lbptr) := by
  have recv {src : Option Frame} {u : State} (h : receive free src u = .next t) :
      t = { u with rxfifo := t.rxfifo, dor := t.dor } := by
    rcases receive_next h with ⟨-, rfl⟩ | ⟨_, -, -, -, rfl⟩ | ⟨-, -, rfl⟩ <;> rfl
  rcases offerFrame_next h with ⟨-, -, rfl⟩ | ⟨f, hl, -, hrecv⟩ | ⟨-, hrecv⟩
  · exact ⟨rfl, fun _ => rfl⟩
  · have heq := recv hrecv
    rw [heq]
    exact ⟨rfl, fun hl' => absurd (hl.symm.trans hl') (by simp)⟩
  · have heq := recv hrecv
    rw [heq]
    exact ⟨rfl, fun _ => rfl⟩

/-- Taking the event leaves a state final. -/
theorem final_afterEvent (h : Final s) : Final (afterEvent s) := by
  rw [afterEvent_eq]
  exact h

/-- Settles O59: in a final state only an offer has a step. -/
theorem finalStateStaysFinal : Obligations.FinalStateStaysFinal := by
  unfold Obligations.FinalStateStaysFinal
  intro s t hfinal h hr
  have hfinal' := final_afterEvent hfinal
  obtain ⟨-, -, htsr, hbuf⟩ := id hfinal'
  rw [step_eq] at h
  have stays (ht : t = afterEvent s) : Final t ∧
      t = { afterEvent s with rxfifo := t.rxfifo, dor := t.dor, lbptr := t.lbptr } ∧
      (s.params.loopback = false → t.lbptr = s.lbptr) ∧
      (nextEvent s = .sequencer ∨ nextEvent s = .txLoad ∨ nextEvent s = .txShift → t = afterEvent s) := by
    subst ht
    exact ⟨hfinal', rfl, fun _ => afterEvent_lbptr s, fun _ => rfl⟩
  cases he : nextEvent s with
  | sequencer =>
    rw [he] at h stays
    exact stays (Host.Outcome.next.inj (h.symm.trans (sequencerTurn_of_final hfinal')))
  | txLoad =>
    rw [he] at h stays
    have hoff : ¬ LoadEnabled (afterEvent s) := fun ⟨_, hfull, _⟩ => hfull hbuf
    exact stays (Host.Outcome.next.inj (h.symm.trans (txLoad_of_not_loadEnabled hoff)))
  | txShift =>
    rw [he] at h stays
    exact stays (Host.Outcome.next.inj (h.symm.trans (txShift_of_none htsr)))
  | offer free =>
    rw [he] at h
    obtain ⟨heq, hlb⟩ := offerFrame_next_eq h
    refine ⟨?_, heq, by simpa using hlb, by simp⟩
    rw [heq]
    exact hfinal'
  | reset => exact absurd he hr

/-- Settles O48: reset is a launch with the inputs as they were. -/
theorem resetKeepsInputs : Obligations.ResetKeepsInputs := by
  unfold Obligations.ResetKeepsInputs
  intro s he
  exact ⟨resetBlock (afterEvent s), step_of_reset he, ⟨rfl, rfl, rfl, rfl⟩, rfl, rfl⟩

end Sys2Proof.Machine
end

section
/-! PROOF. The sequencer's turn: the fetched command at IDLE, faults of the decoder, the waiting command, and the turn without an
enabled step (spec/40_sequencer.md R70, R73, R76; spec/30_encoding.md R64). -/

namespace Sys2Proof.Machine

variable {s : State}

/-- The sequencer's step. -/
theorem step_of_sequencer (he : nextEvent s = .sequencer) : step s = sequencerTurn (afterEvent s) := by
  rw [step_eq, he]
  rfl

/-- Settles O6: at IDLE the turn is the fetch, and taking the event is by cases of the agenda. -/
theorem stepRunsDecoded : Obligations.StepRunsDecoded := by
  unfold Obligations.StepRunsDecoded
  refine ⟨fun s w i he hq hw hd => ?_, fun s e rest ha => ?_, fun s ha => ?_⟩
  · have hf : Fetches (afterEvent s) i := (fetches_afterEvent s i).mpr ⟨w, hw, hd⟩
    rw [step_of_sequencer he, sequencerTurn_idle (by simpa using hq), fetchStep_eq hf]
  · rw [nextEvent, afterEvent, takeEvent_cons ha]
    exact ⟨rfl, rfl⟩
  · rw [nextEvent, afterEvent, takeEvent_nil ha]
    exact ⟨rfl, rfl⟩

/-- A word that does not decode raises its fault. -/
theorem sequencerTurn_of_error {w : CmdWord} {c : Cause} (hq : s.seq = .idle) (hw : s.program[s.ci]? = some w)
    (hd : decode w = .error c) : sequencerTurn s = .next (raise c s) := by
  rw [sequencerTurn_idle hq]
  simp only [fetchStep, hw, hd]

/-- Settles O7: the decoder's two faults, the end of the program, and FAULTED. -/
theorem sequencerTurnWithoutCommand : Obligations.SequencerTurnWithoutCommand := by
  unfold Obligations.SequencerTurnWithoutCommand
  intro s he
  rw [step_of_sequencer he]
  refine ⟨fun w hq hw => ?_, fun hq hci => ?_, fun hq => sequencerTurn_of_faulted (by simpa using hq)⟩
  · have fault {c : Cause} (hd : decode w = .error c) : sequencerTurn (afterEvent s) = .next (raise c (afterEvent s)) :=
      sequencerTurn_of_error (by simpa using hq) (by simpa using hw) hd
    exact ⟨fun hop => fault ((decodeRejectsReserved w _).mpr (Or.inl ⟨hop, rfl⟩)), fun op hd => fault hd⟩
  · exact sequencerTurn_of_end (by simpa using hq) (by simpa using hci)

/-! ## The waiting command -/

/-- TXLINE goes on from what SEQ holds; its operand is not read again (log 13). -/
theorem exec_txline_of_not_idle (x y : Word16) (hq : s.seq ≠ .idle) : exec (.txline x) s = exec (.txline y) s := by
  simp only [exec, execTxline]
  split
  · contradiction
  all_goals rfl

/-- In a waiting state the turn is the step of the command at CI. -/
theorem sequencerTurn_of_waiting (hok : SeqOk s) (hidle : s.seq ≠ .idle) (hfault : s.seq ≠ .faulted) :
    ∃ i, Fetches s i ∧ sequencerTurn s = exec i s := by
  have hne := hidle
  unfold sequencerTurn
  split
  case h_1 hq => exact absurd hq hidle
  case h_2 v hq => exact ⟨_, hok.txbWait hq, rfl⟩
  case h_3 a hq =>
    obtain ⟨addr, hf, -⟩ := hok.txlFetch hq
    exact ⟨_, hf, exec_txline_of_not_idle _ _ hne⟩
  case h_4 a c hq =>
    obtain ⟨⟨addr, hf, -⟩, -⟩ := hok.txlWait hq
    exact ⟨_, hf, exec_txline_of_not_idle _ _ hne⟩
  case h_5 hq => exact ⟨_, hok.rxbWait hq, rfl⟩
  case h_6 j hq => exact ⟨_, (hok.rxl hq).1, rfl⟩
  case h_7 hq => exact absurd hq hfault

/-- Settles O8: each waiting state belongs to the command at CI. -/
theorem waitingCommandResumes : Obligations.WaitingCommandResumes := by
  unfold Obligations.WaitingCommandResumes
  intro s hok hidle hfault he
  obtain ⟨i, hf, hturn⟩ := sequencerTurn_of_waiting (seqOk_afterEvent hok) (by simpa using hidle) (by simpa using hfault)
  exact ⟨i, (fetches_afterEvent s i).mp hf, by rw [step_of_sequencer he, hturn]⟩

/-! ## The turn without an enabled step -/

/-- RXLINE awaiting a character holds while RXFIFO is empty. -/
theorem rxlStep_of_nil {i : Nat} (hl : s.lineChar = none) (hi : ¬ (i = lineCap ∧ s.params.capExtraRead = false))
    (hr : s.rxfifo = []) : rxlStep i s = .next s := by
  simp only [rxlStep, hl, if_neg hi, rxlReadStep, rxc_eq_false_iff.mpr hr, hold, Bool.false_eq_true, if_false]

/-- TXLINE awaiting UDRE holds while TXBUF is full. -/
theorem txlWaitStep_of_full (a : Nat) (c : Byte) (h : s.txbuf ≠ none) : txlWaitStep a c s = .next s :=
  if_neg (mt udre_iff.mp h)

/-- Without an enabled step the sequencer's turn changes nothing (R70, R73, log 4). -/
theorem sequencerTurn_of_not_enabled (h : ¬ SeqEnabled s) : sequencerTurn s = .next s := by
  unfold SeqEnabled at h
  cases hq : s.seq with
  | idle =>
    simp only [hq, not_lt] at h
    exact sequencerTurn_of_end hq h
  | txbWait v =>
    simp only [hq] at h
    simp only [sequencerTurn, hq, exec_txbyte_of_txbWait v hq, txbWaitStep_of_full v h]
  | txlFetch a => simp [hq] at h
  | txlWait a c =>
    simp only [hq] at h
    simp only [sequencerTurn, hq, exec, execTxline, txlWaitStep_of_full a c h]
  | rxbWait =>
    simp only [hq, ne_eq, not_not] at h
    simp only [sequencerTurn, hq, exec_rxbyte_of_rxbWait hq, rxbWaitStep_of_nil h]
  | rxl i =>
    simp only [hq, ne_eq, not_or, not_not] at h
    obtain ⟨hl, hi, hr⟩ := h
    simp only [sequencerTurn, hq, exec, execRxline, rxlStep_of_nil hl hi hr]
  | faulted => exact sequencerTurn_of_faulted hq

/-- A wait for UDRE with TXBUF full, or for RXC with RXFIFO empty, has no step. -/
theorem not_seqEnabled_of_waitsTx (h : WaitsTx s) (hb : s.txbuf ≠ none) : ¬ SeqEnabled s := by
  unfold WaitsTx at h
  unfold SeqEnabled
  cases hq : s.seq <;> simp_all

theorem not_seqEnabled_of_waitsRx (h : WaitsRx s) (hr : s.rxfifo = []) : ¬ SeqEnabled s := by
  unfold WaitsRx at h
  unfold SeqEnabled
  cases hq : s.seq with
  | rxl i =>
    simp only [hq] at h
    obtain ⟨hl, hi⟩ := h
    have hcap : ¬ (i = lineCap ∧ s.params.capExtraRead = false) := by
      rintro ⟨rfl, hx⟩
      simp [hx] at hi
    simp [hl, hcap, hr]
  | _ => simp_all

theorem seqEnabled_afterEvent (s : State) : SeqEnabled (afterEvent s) ↔ SeqEnabled s := by
  rw [afterEvent_eq]
  rfl

/-- Settles O9: both waits are states without an enabled step. -/
theorem unmetWaitHolds : Obligations.UnmetWaitHolds := by
  unfold Obligations.UnmetWaitHolds
  intro s he
  have stays (h : ¬ SeqEnabled s) : step s = .next (afterEvent s) := by
    rw [step_of_sequencer he]
    exact sequencerTurn_of_not_enabled (mt (seqEnabled_afterEvent s).mp h)
  exact ⟨fun h => stays (h.elim (fun ⟨hw, hb⟩ => not_seqEnabled_of_waitsTx hw hb)
    fun ⟨hw, hr⟩ => not_seqEnabled_of_waitsRx hw hr), stays⟩

end Sys2Proof.Machine
end

section
/-! PROOF. The register file: its bytes bit by bit, field writes as read-modify-writes, the side effects of accesses, and why a
character's two accesses are one step (spec/10_state.md R18 to R32; spec/20_memory.md R41, R51). -/

namespace Sys2Proof.Machine

variable {s t : State}

/-! ## Bytes by their bits -/

@[simp] theorem getLsbD_byteOf (b7 b6 b5 b4 b3 b2 b1 b0 : Bool) (i : Nat) :
    (byteOf b7 b6 b5 b4 b3 b2 b1 b0).getLsbD i = [b0, b1, b2, b3, b4, b5, b6, b7].getD i false := by
  rw [byteOf, BitVec.getLsbD_ofBoolListLE]

/-- Two bits of a byte, low one first. -/
theorem extractLsb'_two {v : Byte} {lo : Nat} {c : BitVec 2} (h0 : v.getLsbD lo = c.getLsbD 0)
    (h1 : v.getLsbD (lo + 1) = c.getLsbD 1) : v.extractLsb' lo 2 = c := by
  apply BitVec.eq_of_getLsbD_eq
  intro i hi
  rw [BitVec.getLsbD_extractLsb', decide_eq_true hi, Bool.true_and]
  obtain rfl | rfl : i = 0 ∨ i = 1 := by omega
  · exact h0
  · exact h1

/-- STATA bit by bit, from bit 7 (R19). -/
theorem stataByte_bits (s : State) :
    (stataByte s).getLsbD 7 = rxc s ∧ (stataByte s).getLsbD 6 = s.txc ∧ (stataByte s).getLsbD 5 = udre s ∧
    (stataByte s).getLsbD 4 = feFlag s ∧ (stataByte s).getLsbD 3 = s.dor ∧ (stataByte s).getLsbD 2 = peFlag s ∧
    (stataByte s).getLsbD 1 = s.u2x ∧ (stataByte s).getLsbD 0 = false := by
  simp only [stataByte, getLsbD_byteOf]
  exact ⟨rfl, rfl, rfl, rfl, rfl, rfl, rfl, rfl⟩

/-- CTRLB bit by bit, from bit 7 (R24). -/
theorem ctrlbByte_bits (s : State) :
    (ctrlbByte s).getLsbD 7 = false ∧ (ctrlbByte s).getLsbD 6 = false ∧ (ctrlbByte s).getLsbD 5 = false ∧
    (ctrlbByte s).getLsbD 4 = s.rxen ∧ (ctrlbByte s).getLsbD 3 = s.txen ∧ (ctrlbByte s).getLsbD 2 = s.fsz2 ∧
    (ctrlbByte s).getLsbD 1 = rxb8 s ∧ (ctrlbByte s).getLsbD 0 = s.txb8 := by
  simp only [ctrlbByte, getLsbD_byteOf]
  exact ⟨rfl, rfl, rfl, rfl, rfl, rfl, rfl, rfl⟩

/-- CTRLC bit by bit, from bit 7 (R25). -/
theorem ctrlcByte_bits (s : State) :
    (ctrlcByte s).getLsbD 7 = false ∧ (ctrlcByte s).getLsbD 6 = s.mode ∧ (ctrlcByte s).getLsbD 5 = s.par.getLsbD 1 ∧
    (ctrlcByte s).getLsbD 4 = s.par.getLsbD 0 ∧ (ctrlcByte s).getLsbD 3 = s.stop ∧
    (ctrlcByte s).getLsbD 2 = s.fsz10.getLsbD 1 ∧ (ctrlcByte s).getLsbD 1 = s.fsz10.getLsbD 0 ∧
    (ctrlcByte s).getLsbD 0 = false := by
  simp only [ctrlcByte, getLsbD_byteOf]
  exact ⟨rfl, rfl, rfl, rfl, rfl, rfl, rfl, rfl⟩

/-- Bits 7:5 of CTRLB are hardwired 0. -/
theorem ctrlbByte_high (s : State) : (ctrlbByte s).extractLsb' 5 3 = 0 := by
  obtain ⟨h7, h6, h5, -⟩ := ctrlbByte_bits s
  apply BitVec.eq_of_getLsbD_eq
  intro i hi
  rw [BitVec.getLsbD_extractLsb', decide_eq_true hi, Bool.true_and]
  obtain rfl | rfl | rfl : i = 0 ∨ i = 1 ∨ i = 2 := by omega
  · exact h5
  · exact h6
  · exact h7

theorem feFlag_iff : feFlag s = true ↔ ∃ e more, s.rxfifo = e :: more ∧ e.fe = true := by
  unfold feFlag
  cases s.rxfifo <;> simp

theorem peFlag_iff : peFlag s = true ↔ ∃ e more, s.rxfifo = e :: more ∧ e.pe = true := by
  unfold peFlag
  cases s.rxfifo <;> simp

/-- Settles O41: the three registers bit by bit, and the computed flags. -/
theorem registerBits : Obligations.RegisterBits := by
  unfold Obligations.RegisterBits
  intro s
  obtain ⟨a7, a6, a5, a4, a3, a2, a1, a0⟩ := stataByte_bits s
  obtain ⟨-, -, -, b4, b3, b2, b1, b0⟩ := ctrlbByte_bits s
  obtain ⟨c7, c6, c5, c4, c3, c2, c1, c0⟩ := ctrlcByte_bits s
  have hrxc : rxc s = true ↔ s.rxfifo ≠ [] := by rw [ne_eq, ← rxc_eq_false_iff, Bool.not_eq_false]
  refine ⟨a7 ▸ hrxc, a6, a5 ▸ udre_iff, a4 ▸ feFlag_iff, a3, a2 ▸ peFlag_iff, a1, a0, ctrlbByte_high s, b4, b3, b2,
    fun e more hr => b1.trans ?_, b0, c7, c6, extractLsb'_two c4 c5, c3, extractLsb'_two c1 c2, c0⟩
  simp only [rxb8, hr]

/-! ## Field writes -/

/-- The replaced bit of a byte. -/
theorem getLsbD_withBit_same (v : Byte) {i : Nat} (hi : i < 8) (b : Bool) : (withBit v i b).getLsbD i = b := by
  simp [withBit, hi]

/-- The other bits of a byte with one bit replaced. -/
theorem getLsbD_withBit_ne (v : Byte) {i j : Nat} (hj : j < 8) (hne : j ≠ i) (b : Bool) :
    (withBit v i b).getLsbD j = v.getLsbD j := by
  have hbit : (1#8).getLsbD (j - i) = decide (j - i = 0) := by rw [BitVec.getLsbD_one]; simp
  rw [withBit, BitVec.getLsbD_or, BitVec.getLsbD_and, BitVec.getLsbD_not, BitVec.getLsbD_shiftLeft,
    BitVec.getLsbD_shiftLeft, hbit, BitVec.getLsbD_setWidth, BitVec.getLsbD_ofBool]
  by_cases hlt : j < i
  · simp [hlt, hj]
  · have hpos : j - i ≠ 0 := by omega
    simp [hlt, hpos, hj]

/-- The write of STATA with TXC's bit 0 sets U2X only. -/
theorem regWrite_stata_eq {v : Byte} (h6 : v.getLsbD 6 = false) : regWrite .stata v s = { s with u2x := v.getLsbD 1 } := by
  simp only [regWrite, h6, Bool.not_false, Bool.and_true]

/-- The write of CTRLB by its bits. -/
theorem regWrite_ctrlb_eq {v : Byte} {r x f b : Bool} (h4 : v.getLsbD 4 = r) (h3 : v.getLsbD 3 = x) (h2 : v.getLsbD 2 = f)
    (h0 : v.getLsbD 0 = b) : regWrite .ctrlb v s = { setRxen r s with txen := x, fsz2 := f, txb8 := b } := by
  simp only [regWrite, h4, h3, h2, h0]

/-- The write of CTRLC by its bits. -/
theorem regWrite_ctrlc_eq {v : Byte} {m st : Bool} {p c : BitVec 2} (h6 : v.getLsbD 6 = m) (h5 : v.getLsbD 5 = p.getLsbD 1)
    (h4 : v.getLsbD 4 = p.getLsbD 0) (h3 : v.getLsbD 3 = st) (h2 : v.getLsbD 2 = c.getLsbD 1)
    (h1 : v.getLsbD 1 = c.getLsbD 0) : regWrite .ctrlc v s = { s with mode := m, par := p, stop := st, fsz10 := c } := by
  simp only [regWrite, h6, extractLsb'_two h4 h5, h3, extractLsb'_two h1 h2]

/-- Writing RXEN as it is flushes nothing. -/
theorem setRxen_self (s : State) : setRxen s.rxen s = s := by
  simp [setRxen]

/-- Settles O42: each field write gives its register back bit by bit, with the field's bits replaced. -/
theorem fieldWriteIsReadModifyWrite : Obligations.FieldWriteIsReadModifyWrite := by
  unfold Obligations.FieldWriteIsReadModifyWrite
  intro s b c v
  obtain ⟨-, a6, -, -, -, -, a1, -⟩ := stataByte_bits s
  obtain ⟨-, -, -, b4, b3, b2, b1, b0⟩ := ctrlbByte_bits s
  obtain ⟨-, c6, c5, c4, c3, c2, c1, -⟩ := ctrlcByte_bits s
  have same (w : Byte) (i : Nat) (x : Bool) (hi : i < 8 := by omega) := getLsbD_withBit_same w hi x
  have keep (w : Byte) (i j : Nat) (x : Bool) (hj : j < 8 := by omega) (hne : j ≠ i := by omega) :=
    getLsbD_withBit_ne w hj hne x
  refine ⟨?_, ?_, ?_, ?_, ?_, ?_, ?_, ?_, ?_, rfl, rfl⟩
  · rw [regWrite_ctrlb_eq ((keep _ 3 4 b).trans b4) (same _ 3 b) ((keep _ 3 2 b).trans b2) ((keep _ 3 0 b).trans b0),
      setRxen_self]
    rfl
  · rw [regWrite_ctrlb_eq (same _ 4 b) ((keep _ 4 3 b).trans b3) ((keep _ 4 2 b).trans b2) ((keep _ 4 0 b).trans b0)]
    rfl
  · rw [regWrite_ctrlb_eq ((keep _ 2 4 b).trans b4) ((keep _ 2 3 b).trans b3) (same _ 2 b) ((keep _ 2 0 b).trans b0),
      setRxen_self]
    rfl
  · rw [regWrite_ctrlb_eq ((keep _ 0 4 b).trans b4) ((keep _ 0 3 b).trans b3) ((keep _ 0 2 b).trans b2) (same _ 0 b),
      setRxen_self]
    rfl
  · rw [regWrite_stata_eq ((keep _ 1 6 b).trans (same _ 6 false)), same _ 1 b]
    rfl
  · rw [regWrite_ctrlc_eq (same _ 6 b) ((keep _ 6 5 b).trans c5) ((keep _ 6 4 b).trans c4) ((keep _ 6 3 b).trans c3)
      ((keep _ 6 2 b).trans c2) ((keep _ 6 1 b).trans c1)]
    rfl
  · have put (j : Nat) (hj : j < 4 ∨ j = 6) := (keep (withBit (ctrlcByte s) 5 (c.getLsbD 1)) 4 j (c.getLsbD 0)).trans
      (keep (ctrlcByte s) 5 j (c.getLsbD 1))
    rw [regWrite_ctrlc_eq ((put 6 (by omega)).trans c6) ((keep _ 4 5 _).trans (same _ 5 _)) (same _ 4 _)
      ((put 3 (by omega)).trans c3) ((put 2 (by omega)).trans c2) ((put 1 (by omega)).trans c1)]
    rfl
  · rw [regWrite_ctrlc_eq ((keep _ 3 6 b).trans c6) ((keep _ 3 5 b).trans c5) ((keep _ 3 4 b).trans c4) (same _ 3 b)
      ((keep _ 3 2 b).trans c2) ((keep _ 3 1 b).trans c1)]
    rfl
  · have put (j : Nat) (hj : 3 ≤ j ∧ j < 8) := (keep (withBit (ctrlcByte s) 2 (c.getLsbD 1)) 1 j (c.getLsbD 0)).trans
      (keep (ctrlcByte s) 2 j (c.getLsbD 1))
    rw [regWrite_ctrlc_eq ((put 6 (by omega)).trans c6) ((put 5 (by omega)).trans c5) ((put 4 (by omega)).trans c4)
      ((put 3 (by omega)).trans c3) ((keep _ 1 2 _).trans (same _ 2 _)) (same _ 1 _)]
    rfl

/-! ## Side effects of accesses -/

/-- A write of BAUDL, with TSR empty or full as an equation. -/
theorem writeBaudl_eq (v : Byte) (s : State) : writeBaudl v s = { s with
    baudl := v, divActive := s.baudh ++ v,
    tsr := s.tsr.map fun f => { bits := drawBits s.draws f.bits.length, corrupt := true },
    draws := if s.tsr = none then s.draws else s.draws + 1 } := by
  cases h : s.tsr with
  | none => simp [writeBaudl, h]
  | some f => simp [writeBaudl, h, corruptFrame]

/-- Settles O43: each access's own equation; the flush by what RXEN was. -/
theorem registerAccessEffects : Obligations.RegisterAccessEffects := by
  unfold Obligations.RegisterAccessEffects
  intro s v
  refine ⟨rfl, rfl, rfl, rfl, ?_, fun e more hr => ⟨regRead_ctrlb_cons hr, regRead_data_cons hr⟩, fun hr => ?_, ?_, ?_,
    fun ⟨hr, h4⟩ => ?_, fun h => ?_, rfl, rfl, writeBaudl_eq v s⟩
  · cases hr : rxc s <;> simp [regRead, hr, drawn]
  · simp [regRead, hr, drawn]
  · simp only [regWrite, writeData, ofBool_append_byte]
  · cases h6 : v.getLsbD 6
    · exact regWrite_stata_eq h6
    · simp only [regWrite, h6, Bool.not_true, Bool.and_false, if_true]
  · rw [regWrite_ctrlb_eq h4 rfl rfl rfl, setRxen]
    simp only [hr, Bool.not_false, Bool.and_true, if_true, Bool.not_true, Bool.and_false]
  · have hkeep : (s.rxen && !v.getLsbD 4) = false := by
      rcases h with h | h <;> simp only [h, Bool.false_and, Bool.not_true, Bool.and_false]
    rw [regWrite_ctrlb_eq rfl rfl rfl rfl, setRxen]
    simp only [hkeep, Bool.false_eq_true, if_false, Bool.not_false, Bool.and_true]

/-! ## A character's two accesses as one step -/

/-- LOAD does not read TXB8. -/
theorem txLoad_setTxb8 (b : Bool) (s : State) : txLoad (setTxb8 b s) = mapNext (setTxb8 b) (txLoad s) := by
  have hf : formatOf (setTxb8 b s) = formatOf s := rfl
  simp only [txLoad, setTxb8_txen, setTxb8_txbuf, setTxb8_tsr, hf]
  split
  · cases formatOf s <;> rfl
  · rfl

theorem txShift_setTxb8 (b : Bool) (s : State) : txShift (setTxb8 b s) = mapNext (setTxb8 b) (txShift s) := by
  simp only [txShift, setTxb8_tsr]
  split <;> rfl

theorem receive_setTxb8 (b : Bool) (free : BitVec 11) (source : Option Frame) (s : State) :
    receive free source (setTxb8 b s) = mapNext (setTxb8 b) (receive free source s) := by
  have hf : formatOf (setTxb8 b s) = formatOf s := rfl
  simp only [receive, setTxb8_rxen, setTxb8_rxfifo, hf]
  cases s.rxen with
  | false => rfl
  | true =>
    cases formatOf s with
    | none => rfl
    | some f => by_cases hlen : s.rxfifo.length < rxFifoDepth <;> simp only [hlen, if_true, if_false] <;> rfl

theorem offerFrame_setTxb8 (b : Bool) (free : BitVec 11) (s : State) :
    offerFrame free (setTxb8 b s) = mapNext (setTxb8 b) (offerFrame free s) := by
  cases hl : s.params.loopback with
  | false =>
    rw [offerFrame_of_peer hl, offerFrame_of_peer (s := setTxb8 b s) hl]
    exact receive_setTxb8 b free none s
  | true =>
    cases hw : s.txwire[s.lbptr]? with
    | none =>
      rw [offerFrame_of_usedUp hl hw, offerFrame_of_usedUp (s := setTxb8 b s) hl hw]
      rfl
    | some fr =>
      rw [offerFrame_of_replay hl hw, offerFrame_of_replay (s := setTxb8 b s) hl hw]
      exact receive_setTxb8 b free (some fr) { s with lbptr := s.lbptr + 1 }

/-- No step of an engine or of the environment reads or writes TXB8 (R96, R97, R102). -/
theorem runEvent_setTxb8 {e : Event} (he : e = .txLoad ∨ e = .txShift ∨ ∃ free, e = .offer free) (b : Bool) (s : State) :
    runEvent e (setTxb8 b s) = mapNext (setTxb8 b) (runEvent e s) := by
  rcases he with rfl | rfl | ⟨free, rfl⟩
  · exact txLoad_setTxb8 b s
  · exact txShift_setTxb8 b s
  · exact offerFrame_setTxb8 b free s

theorem engineMove_of_runEvent {e : Event} (he : e = .txLoad ∨ e = .txShift ∨ ∃ free, e = .offer free)
    (h : runEvent e s = .next t) : EngineMove s t := by
  rcases he with rfl | rfl | ⟨free, rfl⟩
  · exact txLoad_move h
  · exact txShift_move h
  · exact offerFrame_move h

/-- What the second access of a character finds after a step of an engine in between. -/
theorem EngineMove.between_accesses (h : EngineMove s t) :
    (s.txbuf = none → t.txbuf = none) ∧ t.txb8 = s.txb8 ∧ t.ext = s.ext ∧
      (s.rxfifo ≠ [] → t.rxfifo.head? = s.rxfifo.head?) := by
  cases h with
  | load hx hb ht hf => exact ⟨fun _ => rfl, rfl, rfl, fun _ => rfl⟩
  | push hn hr hd => exact ⟨id, rfl, rfl, fun hne => List.head?_append_of_ne_nil _ hne⟩
  | _ => exact ⟨id, rfl, rfl, fun _ => rfl⟩

/-- RXB8 is the head's. -/
theorem rxb8_of_head?_eq (hne : s.rxfifo ≠ []) (h : t.rxfifo.head? = s.rxfifo.head?) : rxb8 t = rxb8 s := by
  obtain ⟨e, more, hs⟩ := List.exists_cons_of_ne_nil hne
  rw [hs, List.head?_cons] at h
  obtain ⟨more', ht⟩ := List.head?_eq_some_iff.mp h
  simp only [rxb8, hs, ht]

/-- Settles O44: the engines commute with the write of TXB8, and only append to RXFIFO. -/
theorem atomicAccessLosesNothing : Obligations.AtomicAccessLosesNothing := by
  unfold Obligations.AtomicAccessLosesNothing
  intro s t e b he h
  obtain ⟨hbuf, hb8, hext, hhead⟩ := (engineMove_of_runEvent he h).between_accesses
  refine ⟨fun hs => ⟨?_, hbuf hs, hb8, hext⟩, fun hs => ⟨hhead hs, rxb8_of_head?_eq hs (hhead hs), hext⟩⟩
  rw [runEvent_setTxb8 he, h, mapNext]

end Sys2Proof.Machine
end

section
/-! PROOF. The configuration commands INIT, ENABLE and SETBAUD: their checks, their accesses one by one and in a row, and what a
step leaves unchanged (spec/41_config.md R79 to R83; spec/42_divisor.md R84 to R88). -/

namespace Sys2Proof.Machine

variable {s t : State}

/-! ## A command's accesses in a row -/

/-- The sequencer's turn at IDLE is a step of the command at CI. -/
theorem step_of_command {i : Instr} {more : List Event} (ha : s.agenda = .sequencer :: more) (hq : s.seq = .idle)
    (hf : Fetches s i) : step s = exec i { s with agenda := more } := by
  rw [step_cons ha]
  exact (sequencerTurn_idle (s := { s with agenda := more }) hq).trans (fetchStep_eq (s := { s with agenda := more }) hf)

/-- Runs from states with the same step are the same. -/
theorem run_congr_step {k : Nat} (h : step s = step t) :
    Host.Core.run Sys2Proof.core (k + 1) s = Host.Core.run Sys2Proof.core (k + 1) t := by
  have hs : Sys2Proof.core.step s = Sys2Proof.core.step t := h
  simp only [Host.Core.run, hs]

/-- A command whose first step from `s` is the next access from `u`, where all of its accesses are left, makes them all in as many
turns, and ends. -/
theorem run_command_accesses {i : Instr} {fin : State → State} {as : List Access} {rest : List Event} {u : State}
    (hex : ∀ v : State, v.seq = .idle → v.pending ≠ [] → exec i v = accessStep fin v) (hne : as ≠ [])
    (hq : s.seq = .idle) (hf : Fetches s i) (ha : s.agenda = seqTurns as.length rest)
    (hu : u.pending = as) (huq : u.seq = .idle) (huf : Fetches u i) (hua : u.agenda = s.agenda)
    (hstep : ∀ more, exec i { s with agenda := more } = accessStep fin { u with agenda := more }) :
    Host.Core.run Sys2Proof.core as.length s = .next (fin (allAccesses as { u with pending := [], agenda := rest })) := by
  obtain ⟨a, l, rfl⟩ := List.exists_cons_of_ne_nil hne
  have hua' : u.agenda = .sequencer :: seqTurns l.length rest := hua.trans ha
  have hsame : step s = step u := by
    rw [step_of_command (more := seqTurns l.length rest) ha hq hf, step_of_command hua' huq huf, hstep,
      hex { u with agenda := seqTurns l.length rest } huq (by simp [hu])]
  rw [List.length_cons, run_congr_step hsame]
  exact run_accesses hex (a :: l) hne u hu huq huf hua'

/-! ## INIT -/

section
variable {m d : Bool} {f b : Nat} {p : BitVec 2}

/-- INIT at IDLE with accesses left: the next of them. -/
theorem exec_init_left (hq : s.seq = .idle) (hp : s.pending ≠ []) :
    exec (.init m d f p b) s = accessStep initEnd s := commandStep_left hq hp

/-- INIT at IDLE with none left and its checks passed. -/
theorem exec_init_first (hq : s.seq = .idle) (hp : s.pending = []) (hc : initCause f p b s = none) :
    exec (.init m d f p b) s = accessStep initEnd { initLatch m d s with pending := initAccesses m d f p b } := by
  rw [exec, execInit, hc, commandStep_first hq hp]

/-- INIT at IDLE with none left and a check that fails. -/
theorem exec_init_fault {c : Cause} (hq : s.seq = .idle) (hp : s.pending = []) (hc : initCause f p b s = some c) :
    exec (.init m d f p b) s = .next (recorded (causeCode c) (causeSub c) s) := by
  rw [exec, execInit, hc, commandStep_fault hq hp, raise_eq]

/-- The operands that INIT's checks let pass (R79). -/
theorem initCause_eq_none (hcfg : s.configured = false) (hw : s.params.strictConfig = true → 5 ≤ f ∧ f ≤ 9)
    (hps : p = 0 ∨ b = 0 ∨ ((p = 2 ∨ p = 3) ∧ b ≤ 2)) : initCause f p b s = none := by
  have hwidth : ¬ (s.params.strictConfig && !(decide (5 ≤ f) && decide (f ≤ 9))) = true := by
    intro h
    simp only [Bool.and_eq_true, Bool.not_eq_true', Bool.and_eq_false_iff, decide_eq_false_iff_not] at h
    have := hw h.1
    omega
  rw [initCause, if_neg (by simp [hcfg]), if_neg hwidth]
  simp only [toNat_pos_iff]
  split_ifs with hboth h1 h2
  · subst h1
    simp at hps
    omega
  · rcases hps with h | h | ⟨-, h⟩
    · exact absurd h hboth.1
    · omega
    · omega
  · rfl
  · rfl

/-- Settles O13: each check fails with the ones before it passed. -/
theorem initFaultsInOrder : Obligations.InitFaultsInOrder := by
  unfold Obligations.InitFaultsInOrder
  intro s m d f p b hq hp
  have width_ok (h : s.params.strictConfig = false ∨ (5 ≤ f ∧ f ≤ 9)) :
      ¬ (s.params.strictConfig && !(decide (5 ≤ f) && decide (f ≤ 9))) = true := by
    rcases h with h | h <;> simp [h]
  refine ⟨fun hcfg => exec_init_fault (c := .secondInit) hq hp (by simp [initCause, hcfg]),
    fun hcfg hs hw => exec_init_fault (c := .widthOutOfRange) hq hp ?_,
    fun hcfg hw hpar hb => exec_init_fault (c := .parityReserved) hq hp ?_,
    fun hcfg hw hpar hb => exec_init_fault (c := .stopBitsTooMany) hq hp ?_⟩
  · have hout : (s.params.strictConfig && !(decide (5 ≤ f) && decide (f ≤ 9))) = true := by
      simp [hs]
      omega
    rw [initCause, if_neg (by simp [hcfg]), if_pos hout]
  · rw [initCause, if_neg (by simp [hcfg]), if_neg (width_ok hw), if_pos (by simp [hpar, hb]), if_pos hpar]
  · have hboth : 0 < p.toNat ∧ 0 < b := ⟨by rcases hpar with rfl | rfl <;> decide, by omega⟩
    have hne : p ≠ 1 := by rcases hpar with rfl | rfl <;> decide
    rw [initCause, if_neg (by simp [hcfg]), if_neg (width_ok hw), if_pos hboth, if_neg hne, if_pos hb]

/-- INIT's list of accesses, written out. -/
theorem initAccesses_eq (m d : Bool) (f b : Nat) (p : BitVec 2) : initAccesses m d f p b =
    [.mode m, .u2x d] ++
    (if 5 ≤ f ∧ f ≤ 9 then
      [.fsz2 (decide (f = 9)), .fsz10 (if f = 9 then 3 else BitVec.ofNat 2 (f - 5))] else []) ++
    [.ext (decide (f = 9))] ++
    (if p ≠ 0 ∧ 0 < b then [.par p, .stop (decide (b = 2))] else []) := by
  simp only [initAccesses, fszAccesses_eq, psAccesses_eq, List.cons_append, List.nil_append, List.append_assoc]

/-- Settles O12: the next access, the last one, the first one, and all of them in a row. -/
theorem initCompletes : Obligations.InitCompletes := by
  unfold Obligations.InitCompletes
  intro s m d f p b hq
  refine ⟨fun a a' more hp => ?_, fun a hp => ?_, fun hp hcfg hw hps => ?_⟩
  · rw [exec_init_left hq (by simp [hp]), accessStep_more hp]
  · rw [exec_init_left hq (by simp [hp]), accessStep_last hp]
    cases a <;> rfl
  · have hc : initCause f p b s = none := initCause_eq_none hcfg hw hps
    refine ⟨?_, initAccesses_eq m d f b p, fun rest hf ha => ?_⟩
    · rw [exec_init_first hq hp hc]
      exact accessStep_more (s := { initLatch m d s with pending := initAccesses m d f p b }) rfl
    · rw [run_command_accesses (u := { initLatch m d s with pending := initAccesses m d f p b }) (fun v => exec_init_left)
        (by simp [initAccesses]) hq hf ha rfl hq hf rfl (fun more => exec_init_first hq hp hc), allAccesses_initAccesses]
      simp only [initEnd, complete, initLatch, hp]

end

/-! ## ENABLE -/

theorem exec_enable_left (hq : s.seq = .idle) (hp : s.pending ≠ []) : exec .enable s = accessStep complete s :=
  commandStep_left hq hp

theorem exec_enable_first (hq : s.seq = .idle) (hp : s.pending = []) (hd : s.divSet = true) :
    exec .enable s = accessStep complete { s with pending := [.txen true, .rxen true] } := by
  rw [exec, execEnable, enableCause, if_pos hd, commandStep_first hq hp]
  rfl

/-- Setting RXEN flushes nothing. -/
theorem setRxen_true (s : State) : setRxen true s = { s with rxen := true } := by
  simp [setRxen]

/-- Settles O21: the first access, the last one, the check, and both in a row. -/
theorem enableCompletes : Obligations.EnableCompletes := by
  unfold Obligations.EnableCompletes
  intro s hq
  refine ⟨fun hp hd => ?_, fun hp => ?_, fun hp hd => ?_, fun rest hp hd hf ha => ?_⟩
  · rw [exec_enable_first hq hp hd]
    exact accessStep_more (s := { s with pending := [.txen true, .rxen true] }) rfl
  · rw [exec_enable_left hq (by simp [hp]), accessStep_last hp, access, setRxen_true]
    rfl
  · rw [exec, execEnable, enableCause, if_neg (by simp [hd]), commandStep_fault hq hp]
    rfl
  · rw [show 2 = [Access.txen true, .rxen true].length from rfl] at ha ⊢
    rw [run_command_accesses (u := { s with pending := [.txen true, .rxen true] }) (fun _ => exec_enable_left) (by simp) hq hf
      ha rfl hq hf rfl (fun more => exec_enable_first hq hp hd)]
    simp only [allAccesses, List.foldl_cons, List.foldl_nil, access, setRxen_true, setTxen, complete, hp]

/-! ## SETBAUD -/

section
variable {bps q : Nat}

theorem exec_setbaud_left (hq : s.seq = .idle) (hp : s.pending ≠ []) :
    exec (.setbaud bps) s = accessStep setbaudEnd s := commandStep_left hq hp

theorem exec_setbaud_first (hq : s.seq = .idle) (hp : s.pending = []) (hc : setbaudCause bps s = none) :
    exec (.setbaud bps) s = accessStep setbaudEnd { s with pending := setbaudAccesses (baudDivisor bps s) } := by
  rw [exec, execSetbaud, hc, commandStep_first hq hp]
  rfl

theorem exec_setbaud_fault {c : Cause} (hq : s.seq = .idle) (hp : s.pending = []) (hc : setbaudCause bps s = some c) :
    exec (.setbaud bps) s = .next (recorded (causeCode c) (causeSub c) s) := by
  rw [exec, execSetbaud, hc, commandStep_fault hq hp, raise_eq]

/-- The rates that SETBAUD's checks let pass (R88). -/
theorem setbaudCause_eq_none (hcfg : s.configured = true) (hb : 0 < bps) (hlo : 1 ≤ baudQuotient bps s)
    (hhi : baudQuotient bps s ≤ 65536) : setbaudCause bps s = none := by
  rw [setbaudCause, if_neg (by simp [hcfg]), if_neg (by omega), if_neg (by omega), if_neg (by omega)]

/-- SETBAUD's range checks on the quotient (R85, R88). -/
theorem setbaudCause_eq_some (hcfg : s.configured = true) (hb : 0 < bps) :
    (baudQuotient bps s = 0 → setbaudCause bps s = some .divisorNegative) ∧
    (65536 < baudQuotient bps s → setbaudCause bps s = some .divisorTooWide) := by
  constructor <;> intro h
  · rw [setbaudCause, if_neg (by simp [hcfg]), if_neg (by omega), if_pos h]
  · rw [setbaudCause, if_neg (by simp [hcfg]), if_neg (by omega), if_neg (by omega), if_pos (by omega)]

/-- Settles O16: each check fails with the ones before it passed. -/
theorem setbaudFaultsInOrder : Obligations.SetbaudFaultsInOrder := by
  unfold Obligations.SetbaudFaultsInOrder
  rintro s bps k q hq hp rfl rfl
  refine ⟨fun hcfg => exec_setbaud_fault (c := .baudBeforeInit) hq hp ?_,
    fun hcfg hb => exec_setbaud_fault (c := .baudZero) hq hp ?_,
    fun hcfg hb h => exec_setbaud_fault hq hp ((setbaudCause_eq_some hcfg hb).1 h),
    fun hcfg hb h => exec_setbaud_fault hq hp ((setbaudCause_eq_some hcfg hb).2 h)⟩
  · rw [setbaudCause, if_pos (by simp [hcfg])]
  · rw [setbaudCause, if_neg (by simp [hcfg]), if_pos hb]

/-- Clearing RXEN flushes RXFIFO and DOR if it was set. -/
theorem setRxen_false (s : State) : setRxen false s = { s with
    rxen := false, rxfifo := if s.rxen then [] else s.rxfifo, dor := if s.rxen then false else s.dor } := by
  cases h : s.rxen <;> simp [setRxen, h]

/-- The divisor's two bytes (R88). -/
theorem setbaudAccesses_eq (n : Nat) (hn : n < 65536) : setbaudAccesses (BitVec.ofNat 16 n) =
    [.txen false, .rxen false, .baudh (BitVec.ofNat 8 (n / 256)), .baudl (BitVec.ofNat 8 (n % 256))] := by
  have hhi : (BitVec.ofNat 16 n).extractLsb' 8 8 = BitVec.ofNat 8 (n / 256) := by
    apply BitVec.eq_of_toNat_eq
    rw [BitVec.extractLsb'_toNat, BitVec.toNat_ofNat, BitVec.toNat_ofNat, Nat.shiftRight_eq_div_pow, Nat.mod_eq_of_lt hn]
  have hlo : (BitVec.ofNat 16 n).setWidth 8 = BitVec.ofNat 8 (n % 256) := by
    apply BitVec.eq_of_toNat_eq
    simp only [BitVec.toNat_setWidth, BitVec.toNat_ofNat]
    omega
  rw [setbaudAccesses, hhi, hlo]

/-- The two bytes make the divisor again. -/
theorem baud_bytes (n : Nat) (hn : n < 65536) :
    (BitVec.ofNat 8 (n / 256) ++ BitVec.ofNat 8 (n % 256) : BitVec (8 + 8)) = BitVec.ofNat 16 n := by
  have hsplit := setbaudAccesses_eq n hn
  simp only [setbaudAccesses, List.cons.injEq, Access.baudh.injEq, Access.baudl.injEq, true_and, and_true] at hsplit
  rw [← hsplit.1, ← hsplit.2]
  exact divisor_split _

/-- A SETBAUD that passes its checks, in four turns in a row. -/
theorem run_setbaud {rest : List Event} (hq : s.seq = .idle) (hp : s.pending = []) (hc : setbaudCause bps s = none)
    (hlo : 1 ≤ baudQuotient bps s) (hhi : baudQuotient bps s ≤ 65536) (hf : Fetches s (.setbaud bps))
    (ha : s.agenda = seqTurns 4 rest) :
    Host.Core.run Sys2Proof.core 4 s = .next { s with
      txen := false, rxen := false,
      rxfifo := if s.rxen then [] else s.rxfifo,
      dor := if s.rxen then false else s.dor,
      baudh := BitVec.ofNat 8 ((baudQuotient bps s - 1) / 256),
      baudl := BitVec.ofNat 8 ((baudQuotient bps s - 1) % 256),
      divActive := BitVec.ofNat 16 (baudQuotient bps s - 1),
      tsr := s.tsr.map fun f => { bits := drawBits s.draws f.bits.length, corrupt := true },
      draws := if s.tsr = none then s.draws else s.draws + 1,
      divSet := true, seq := .idle, ci := s.ci + 1, agenda := rest } := by
  have hlen : (setbaudAccesses (baudDivisor bps s)).length = 4 := rfl
  rw [← hlen] at ha ⊢
  rw [run_command_accesses (u := { s with pending := setbaudAccesses (baudDivisor bps s) }) (fun _ => exec_setbaud_left)
    (by simp [setbaudAccesses]) hq hf ha rfl hq hf rfl (fun more => exec_setbaud_first hq hp hc), baudDivisor,
    setbaudAccesses_eq _ (by omega)]
  simp only [allAccesses, List.foldl_cons, List.foldl_nil, access, setTxen, setRxen_false, writeBaudh, writeBaudl_eq,
    setbaudEnd, complete, hp, baud_bytes (baudQuotient bps s - 1) (by omega)]

/-- Settles O15: the second, third and last access, the first one, and all four in a row. -/
theorem setbaudCompletes : Obligations.SetbaudCompletes := by
  unfold Obligations.SetbaudCompletes
  intro s bps k q hi lo hq
  refine ⟨fun hp => ?_, fun hp => ?_, fun hp => ?_, fun hp hcfg hk hquot hb hlo hhi => ?_⟩
  · rw [exec_setbaud_left hq (by simp [hp]), accessStep_more hp, access, setRxen_false]
  · rw [exec_setbaud_left hq (by simp [hp]), accessStep_more hp, access, writeBaudh]
  · rw [exec_setbaud_left hq (by simp [hp]), accessStep_last hp, access, writeBaudl_eq]
    rfl
  · subst hk hquot
    have hc : setbaudCause bps s = none := setbaudCause_eq_none hcfg hb hlo hhi
    refine ⟨?_, fun rest hf ha => run_setbaud hq hp hc hlo hhi hf ha⟩
    have hlt : baudQuotient bps s - 1 < 65536 := by
      have : baudQuotient bps s ≤ 65536 := hhi
      omega
    rw [exec_setbaud_first hq hp hc, baudDivisor, setbaudAccesses_eq _ hlt]
    exact accessStep_more (s := { s with pending := _ }) rfl

end

/-! ## What a step leaves unchanged -/

/-- All a step of INIT, SETBAUD or ENABLE can do, in any sequencer state: nothing, a fault entry, or one access of the command's
list or of those left, after the latches when it is the first and with the command's end when it is the last. -/
theorem commandStep_cases {cause : Option Cause} {latch fin : State → State} {as : List Access} (hne : as ≠ [])
    (h : commandStep cause latch as fin s = .next t) :
    (t = s ∨ ∃ c, t = raise c s) ∨
      (s.seq = .idle ∧ ∃ u a rest, ((u = latch s ∧ as = a :: rest) ∨ (u = s ∧ s.pending = a :: rest)) ∧
        (t = access a { u with pending := rest } ∨ t = fin (access a { u with pending := [] }))) := by
  have next {u : State} (h : accessStep fin u = .next t) (hu : u.pending ≠ []) : ∃ a rest, u.pending = a :: rest ∧
      (t = access a { u with pending := rest } ∨ t = fin (access a { u with pending := [] })) := by
    rcases accessStep_next h with ⟨hp, -⟩ | ⟨a, hp, ht⟩ | ⟨a, rest, hp, -, ht⟩
    · exact absurd hp hu
    · exact ⟨a, [], hp, Or.inr ht⟩
    · exact ⟨a, rest, hp, Or.inl ht⟩
  by_cases hq : s.seq = .idle
  · rcases commandStep_next hq h with ⟨-, c, -, rfl⟩ | ⟨-, -, h⟩ | ⟨hp, h⟩
    · exact Or.inl (Or.inr ⟨c, rfl⟩)
    · obtain ⟨a, rest, hp, ht⟩ := next h hne
      exact Or.inr ⟨hq, latch s, a, rest, Or.inl ⟨rfl, hp⟩, ht⟩
    · obtain ⟨a, rest, hp, ht⟩ := next h hp
      exact Or.inr ⟨hq, s, a, rest, Or.inr ⟨rfl, hp⟩, ht⟩
  · rw [commandStep_hold hq] at h
    cases h
    exact Or.inl (Or.inl rfl)

theorem sameMemory_of_eq (h : t.mem = s.mem) : SameMemory s t := fun a => by rw [h]

/-- A step that changes nothing, or enters a fault, leaves everything alone but SEQ and the record (R119). -/
theorem frame_of_no_access (h : t = s ∨ ∃ c, t = raise c s) :
    SameInputs s t ∧ SameLatches s t ∧ SameFraming s t ∧ SameDivisor s t ∧ SameEnables s t ∧ SameRx s t ∧ SameWire s t ∧
    SameTxbuf s t ∧ t.res = s.res ∧ SameProgress s t ∧ SameMemory s t ∧ t.ci = s.ci ∧ (t.seq ≠ .faulted → SameRecord s t) := by
  rcases h with rfl | ⟨c, rfl⟩
  · exact ⟨⟨rfl, rfl, rfl, rfl⟩, ⟨rfl, rfl, rfl, rfl, rfl⟩, ⟨rfl, rfl, rfl, rfl, rfl, rfl⟩, ⟨rfl, rfl, rfl⟩, ⟨rfl, rfl⟩,
      ⟨rfl, rfl⟩, ⟨rfl, rfl, rfl, rfl⟩, ⟨rfl, rfl⟩, rfl, ⟨rfl, rfl⟩, fun _ => rfl, rfl, fun _ => ⟨rfl, rfl, rfl⟩⟩
  · exact ⟨⟨rfl, rfl, rfl, rfl⟩, ⟨rfl, rfl, rfl, rfl, rfl⟩, ⟨rfl, rfl, rfl, rfl, rfl, rfl⟩, ⟨rfl, rfl, rfl⟩, ⟨rfl, rfl⟩,
      ⟨rfl, rfl⟩, ⟨rfl, rfl, rfl, rfl⟩, ⟨rfl, rfl⟩, rfl, ⟨rfl, rfl⟩, fun _ => rfl, rfl, fun h => absurd rfl h⟩

/-- What one of INIT's accesses leaves unchanged. -/
theorem access_init_frame {a : Access} (ha : IsInitAccess a) (u : State) :
    SameInputs u (access a u) ∧ SameDivisor u (access a u) ∧ SameEnables u (access a u) ∧ SameRx u (access a u) ∧
    SameWire u (access a u) ∧ SameTxbuf u (access a u) ∧ (access a u).res = u.res ∧ (access a u).divSet = u.divSet ∧
    (access a u).lineChar = u.lineChar ∧ SameMemory u (access a u) := by
  obtain ⟨hen, hrx, hdiv, htsr, hdraws⟩ := access_of_isInitAccess ha u
  exact ⟨⟨by simp, by simp, by simp, hdraws⟩, hdiv, hen, hrx, ⟨htsr, by simp, by simp, by simp⟩, ⟨by simp, by simp⟩,
    by simp, by simp, by simp, sameMemory_of_eq (by simp)⟩

/-- The frame of INIT (R79, R119). -/
theorem init_frame {m d : Bool} {f b : Nat} {p : BitVec 2} (hleft : s.pending = [] ∨ UnderWay (.init m d f p b) s)
    (h : exec (.init m d f p b) s = .next t) :
    SameInputs s t ∧ SameDivisor s t ∧ SameEnables s t ∧ SameRx s t ∧ SameWire s t ∧ SameTxbuf s t ∧
    t.res = s.res ∧ t.divSet = s.divSet ∧ t.lineChar = s.lineChar ∧ SameMemory s t ∧
    (t.seq = .faulted → SameLatches s t ∧ SameFraming s t ∧ SameProgress s t ∧ t.ci = s.ci) ∧
    (t.seq ≠ .faulted → SameRecord s t) := by
  rcases commandStep_cases (by simp [initAccesses]) h with hnone | ⟨hq, u, a, rest, hu, ht⟩
  · obtain ⟨hin, hlatch, hfr, hdiv, hen, hrx, hw, hbuf, hres, hprog, hmem, hci, hrec⟩ := frame_of_no_access hnone
    exact ⟨hin, hdiv, hen, hrx, hw, hbuf, hres, hlatch.2.2.2.2, hprog.2, hmem, fun _ => ⟨hlatch, hfr, hprog, hci⟩, hrec⟩
  · have ha : IsInitAccess a := by
      rcases hu with ⟨-, has⟩ | ⟨-, hp⟩
      · exact isInitAccess_of_mem (has ▸ List.mem_cons_self)
      · exact isInitAccess_of_underWay (hleft.resolve_left (by simp [hp])) hp
    have hu' : u = s ∨ u = initLatch m d s := hu.elim (fun hu => Or.inr hu.1) fun hu => Or.inl hu.1
    have frame (v : State) := access_init_frame ha v
    rcases hu' with rfl | rfl <;> rcases ht with rfl | rfl <;>
    · obtain ⟨hin, hdiv, hen, hrx, hw, hbuf, hres, hset, hline, hmem⟩ := frame _
      exact ⟨hin, hdiv, hen, hrx, hw, hbuf, hres, hset, hline, hmem, fun hf => by simp [hq, initLatch, initEnd] at hf,
        fun _ => ⟨by simp [initLatch, initEnd], by simp [initLatch, initEnd], by simp [initLatch, initEnd]⟩⟩

/-- The frame of ENABLE (R83, R119). -/
theorem enable_frame (hleft : s.pending = [] ∨ UnderWay .enable s) (h : exec .enable s = .next t) :
    SameInputs s t ∧ SameLatches s t ∧ SameFraming s t ∧ SameDivisor s t ∧ SameRx s t ∧ SameWire s t ∧ SameTxbuf s t ∧
    t.res = s.res ∧ t.lineChar = s.lineChar ∧ SameMemory s t ∧
    (t.seq = .faulted → SameEnables s t ∧ SameProgress s t ∧ t.ci = s.ci) ∧ (t.seq ≠ .faulted → SameRecord s t) := by
  rcases commandStep_cases (by simp) h with hnone | ⟨hq, u, a, rest, hu, ht⟩
  · obtain ⟨hin, hlatch, hfr, hdiv, hen, hrx, hw, hbuf, hres, hprog, hmem, hci, hrec⟩ := frame_of_no_access hnone
    exact ⟨hin, hlatch, hfr, hdiv, hrx, hw, hbuf, hres, hprog.2, hmem, fun _ => ⟨hen, hprog, hci⟩, hrec⟩
  · obtain rfl : u = s := hu.elim (fun hu => hu.1) fun hu => hu.1
    have ha : a = .txen true ∨ a = .rxen true := by
      rcases hu with ⟨-, has⟩ | ⟨-, hp⟩
      · exact Or.inl (List.cons.inj has).1.symm
      · exact Or.inr (enable_left (hleft.resolve_left (by simp [hp])) hp).1
    have hq' : t.seq ≠ .faulted := by rcases ht with rfl | rfl <;> simp [hq]
    have hrx : SameRx u t := by
      rcases ha with rfl | rfl <;> rcases ht with rfl | rfl <;> simp [SameRx, access]
    rcases ha with rfl | rfl <;> rcases ht with rfl | rfl <;>
      exact ⟨⟨rfl, rfl, rfl, rfl⟩, ⟨rfl, rfl, rfl, rfl, rfl⟩, ⟨rfl, rfl, rfl, rfl, rfl, rfl⟩, ⟨rfl, rfl, rfl⟩, hrx,
        ⟨rfl, rfl, rfl, rfl⟩, ⟨rfl, rfl⟩, rfl, rfl, fun _ => rfl, fun hf => absurd hf hq', fun _ => ⟨rfl, rfl, rfl⟩⟩

/-- Settles O14: the two frames. -/
theorem initAndEnableFrame : Obligations.InitAndEnableFrame := by
  unfold Obligations.InitAndEnableFrame
  exact ⟨fun s t m d f p b hleft h => init_frame hleft h, fun s t hleft h => enable_frame hleft h⟩

/-- TSR and the draws after one of SETBAUD's accesses: as before, or the frame marked corrupt with the next draw. -/
theorem access_tsr_draws (a : Access) (u : State) :
    ((access a u).tsr = u.tsr ∧ (access a u).draws = u.draws) ∨
      ∃ fr, u.tsr = some fr ∧ (access a u).tsr = some { bits := drawBits u.draws fr.bits.length, corrupt := true } ∧
        (access a u).draws = u.draws + 1 := by
  cases a with
  | baudl v =>
    cases hs : u.tsr with
    | none => exact Or.inl ⟨by simp [access, hs], by simp [access, hs]⟩
    | some fr => exact Or.inr ⟨fr, rfl, by simp [access, hs, corruptFrame], by simp [access, hs]⟩
  | _ => exact Or.inl ⟨rfl, rfl⟩

/-- Settles O17: no access, or one that writes neither EXT nor a framing field. -/
theorem setbaudFrame : Obligations.SetbaudFrame := by
  unfold Obligations.SetbaudFrame
  intro s t bps hleft h
  rcases commandStep_cases (by simp [setbaudAccesses]) h with hnone | ⟨hq, u, a, rest, hu, ht⟩
  · obtain ⟨⟨hpar, hprog, hag, hdraws⟩, ⟨h1, h2, h3, h4, h5⟩, hfr, hdiv, hen, hrx, ⟨htsr, htxc, hwire, hlb⟩, hbuf, hres, hleft',
      hmem, hci, hrec⟩ := frame_of_no_access hnone
    exact ⟨hpar, hprog, hag, hfr, hbuf, hres, h1, h2, h3, h4, htxc, hwire, hlb, hleft'.2, Or.inl ⟨htsr, hdraws⟩, hmem,
      fun _ => ⟨h5, hdiv, hen, hrx, htsr, hdraws, hleft', hci⟩, hrec⟩
  · obtain rfl : u = s := hu.elim (fun hu => hu.1) fun hu => hu.1
    have ha : ¬ IsInitAccess a := by
      rcases hu with ⟨-, has⟩ | ⟨-, hp⟩
      · exact (List.cons.inj has).1 ▸ id
      · obtain ⟨hi, lo, ⟨rfl, -⟩ | ⟨rfl, -⟩ | ⟨rfl, -⟩⟩ := setbaud_left (hleft.resolve_left (by simp [hp])) hp <;> exact id
    have hq' : t.seq ≠ .faulted := by rcases ht with rfl | rfl <;> simp [hq, setbaudEnd]
    have frame (v : State) := access_of_not_isInitAccess ha v
    have corrupt (v : State) := access_tsr_draws a v
    rcases ht with rfl | rfl <;>
    · obtain ⟨hext, hfr⟩ := frame _
      exact ⟨by simp [setbaudEnd], by simp [setbaudEnd], by simp [setbaudEnd], hfr,
        ⟨by simp [setbaudEnd], by simp [setbaudEnd]⟩, by simp [setbaudEnd], by simp [setbaudEnd], by simp [setbaudEnd], hext,
        by simp [setbaudEnd], by simp [setbaudEnd], by simp [setbaudEnd], by simp [setbaudEnd], by simp [setbaudEnd],
        corrupt _, sameMemory_of_eq (by simp [setbaudEnd]), fun hf => absurd hf hq',
        fun _ => ⟨by simp [setbaudEnd], by simp [setbaudEnd], by simp [setbaudEnd]⟩⟩

end Sys2Proof.Machine
end

section
/-! PROOF. The divisor: with exact arithmetic the greatest that fits, the sign of the rate error, and where floating-point division
gives the exact quotient (spec/42_divisor.md R85, R86, R90). -/

namespace Sys2Proof.Machine

variable {s t : State}

/-! ## The exact quotient -/

/-- Turns of the sequencer in FAULTED only take their events (R120). -/
theorem run_of_faulted (k : Nat) {rest : List Event} (hq : s.seq = .faulted) (ha : s.agenda = seqTurns k rest) :
    Host.Core.run Sys2Proof.core k s = .next { s with agenda := rest } := by
  induction k generalizing s with
  | zero =>
    obtain rfl : s.agenda = rest := ha
    rfl
  | succ k ih =>
    have ha' : s.agenda = .sequencer :: seqTurns k rest := ha
    rw [run_event (t := { s with agenda := seqTurns k rest }) ha' (sequencerTurn_of_faulted hq)]
    exact ih (s := { s with agenda := seqTurns k rest }) hq rfl

/-- A SETBAUD whose check fails records its fault in the first of its turns and then stays. -/
theorem run_setbaud_fault {bps k : Nat} {rest : List Event} {c : Cause} (hq : s.seq = .idle) (hp : s.pending = [])
    (hc : setbaudCause bps s = some c) (hf : Fetches s (.setbaud bps)) (ha : s.agenda = seqTurns (k + 1) rest) :
    Host.Core.run Sys2Proof.core (k + 1) s =
      .next { recorded (causeCode c) (causeSub c) s with agenda := rest } := by
  have ha' : s.agenda = .sequencer :: seqTurns k rest := ha
  have hstep : step s = .next (recorded (causeCode c) (causeSub c) { s with agenda := seqTurns k rest }) :=
    (step_of_command ha' hq hf).trans (exec_setbaud_fault (s := { s with agenda := seqTurns k rest }) hq hp hc)
  rw [run_succ hstep, run_of_faulted k rfl rfl]
  rfl

/-- The quotient that makes a divisor of 16 bits, by inequalities (R85). -/
theorem quotient_in_range_iff {F n : Nat} (hn : 0 < n) :
    (1 ≤ F / n ∧ F / n ≤ 65536) ↔ (n ≤ F ∧ F < 65537 * n) := by
  have hlo : 1 ≤ F / n ↔ n ≤ F := by rw [Nat.le_div_iff_mul_le hn, Nat.one_mul]
  have hhi : F / n < 65537 ↔ F < 65537 * n := Nat.div_lt_iff_lt_mul hn
  rw [hlo, ← hhi, Nat.lt_succ_iff]

theorem kfactor_pos (m d : Bool) : 0 < kfactor m d := by
  cases m <;> cases d <;> decide

/-- Settles O18: the quotient is in range and SETBAUD completes with it less one, or it is not and SETBAUD faults. -/
theorem divisorIsFloorMinusOne : Obligations.DivisorIsFloorMinusOne := by
  unfold Obligations.DivisorIsFloorMinusOne
  intro s bps k rest hq hp hcfg hexact hb hk hf ha
  obtain rfl : k = kfactor s.modef s.u2xf := hk
  have hn : 0 < kfactor s.modef s.u2xf * bps := Nat.mul_pos (kfactor_pos _ _) hb
  have hquot : s.params.fClk / (kfactor s.modef s.u2xf * bps) = baudQuotient bps s := by
    rw [baudQuotient, hexact, quotient]
  have hrange := quotient_in_range_iff (F := s.params.fClk) hn
  rw [← hrange, hquot]
  by_cases hin : 1 ≤ baudQuotient bps s ∧ baudQuotient bps s ≤ 65536
  · have hlower : baudQuotient bps s * _ ≤ s.params.fClk := hquot ▸ Nat.div_mul_le_self _ _
    have hupper : s.params.fClk < _ * (baudQuotient bps s + 1) := hquot ▸ Nat.lt_mul_div_succ _ hn
    have hd : (BitVec.ofNat 16 (baudQuotient bps s - 1)).toNat + 1 = baudQuotient bps s := by
      rw [BitVec.toNat_ofNat, Nat.mod_eq_of_lt (by omega)]
      omega
    refine ⟨_, run_setbaud hq hp (setbaudCause_eq_none hcfg hb hin.1 hin.2) hin.1 hin.2 hf ha, iff_of_true rfl hin,
      fun _ => ⟨?_, ?_, baud_bytes _ (by omega)⟩, fun h => absurd rfl h⟩
    · rwa [hd]
    · have hd' : (BitVec.ofNat 16 (baudQuotient bps s - 1)).toNat + 2 = baudQuotient bps s + 1 := by omega
      rwa [hd', Nat.mul_comm]
  · obtain ⟨c, hc⟩ : ∃ c, setbaudCause bps s = some c := by
      obtain ⟨hzero, hwide⟩ := setbaudCause_eq_some hcfg hb
      rcases Nat.eq_zero_or_pos (baudQuotient bps s) with h | h
      · exact ⟨_, hzero h⟩
      · exact ⟨_, hwide (by omega)⟩
    exact ⟨_, run_setbaud_fault hq hp hc hf ha, iff_of_false (by simp [recorded]) hin, fun h => by simp [recorded] at h,
      fun _ => ⟨rfl, rfl, rfl⟩⟩

/-! ## The rate error -/

/-- Settles O19: with `n = k * bps` the error is `F / (q * n) - 1`, and `q * n` is the greatest multiple of `n` up to `F`. -/
theorem achievedRateNotBelowTarget : Obligations.AchievedRateNotBelowTarget := by
  unfold Obligations.AchievedRateNotBelowTarget
  intro F k d bps hk hb hd
  have hn : 0 < k * bps := Nat.mul_pos hk hb
  have hm : k * (d + 1) * bps = F / (k * bps) * (k * bps) := by
    rw [hd, Nat.mul_right_comm, Nat.mul_comm]
  have hpos : (0 : Rat) < ((k * (d + 1) * bps : Nat) : Rat) := Nat.cast_pos.mpr (by positivity)
  have hle : ((k * (d + 1) * bps : Nat) : Rat) ≤ F := Nat.cast_le.mpr (hm ▸ Nat.div_mul_le_self _ _)
  unfold rateError
  constructor
  · rw [sub_nonneg, one_le_div hpos]
    exact hle
  · rw [sub_eq_zero, div_eq_one_iff_eq hpos.ne', Nat.cast_inj, hm, eq_comm]
    exact ⟨fun h => h ▸ Nat.dvd_mul_left _ _, Nat.div_mul_cancel⟩

/-! ## Floating-point division -/

/-- A number of more than `p` bits between the powers of two that make its unit in the last place. -/
theorem ulp_bounds {p t : Nat} (hp : 0 < p) (ht : 2 ^ p ≤ t) :
    2 ^ (p - 1) * 2 ^ (Nat.log2 t + 1 - p) ≤ t := by
  have hne : t ≠ 0 := by
    have := Nat.two_pow_pos p
    omega
  have hlog : p ≤ Nat.log2 t := (Nat.le_log2 hne).mpr ht
  rw [← pow_add, show p - 1 + (Nat.log2 t + 1 - p) = Nat.log2 t by omega]
  exact Nat.log2_self_le hne

/-- Rounding leaves a number of up to `p` bits alone. -/
theorem roundNat_of_lt {p n : Nat} (h : n < 2 ^ p) : roundNat p n = n := if_pos h

/-- Rounding leaves a number of more than `p` bits above `2 ^ p`. -/
theorem le_roundNat {p n : Nat} (hp : 0 < p) (h : 2 ^ p ≤ n) : 2 ^ p ≤ roundNat p n := by
  have hne : n ≠ 0 := by
    have := Nat.two_pow_pos p
    omega
  have hlog : p ≤ Nat.log2 n := (Nat.le_log2 hne).mpr h
  have hm : 2 ^ (p - 1) ≤ n / 2 ^ (Nat.log2 n + 1 - p) :=
    (Nat.le_div_iff_mul_le (Nat.two_pow_pos _)).mpr (ulp_bounds hp h)
  have htrunc : 2 ^ p ≤ n / 2 ^ (Nat.log2 n + 1 - p) * 2 ^ (Nat.log2 n + 1 - p) :=
    calc 2 ^ p ≤ 2 ^ Nat.log2 n := Nat.pow_le_pow_right (by omega) hlog
      _ = 2 ^ (p - 1) * 2 ^ (Nat.log2 n + 1 - p) := by
        rw [← pow_add, show p - 1 + (Nat.log2 n + 1 - p) = Nat.log2 n by omega]
      _ ≤ _ := Nat.mul_le_mul_right _ hm
  rw [roundNat, if_neg (by omega)]
  simp only
  split_ifs
  · exact htrunc.trans (Nat.mul_le_mul_right _ (Nat.le_succ _))
  · exact htrunc

/-- Rounding `t` to a multiple of `u` leaves its quotient by `sc` alone when `t` is more than half of `u` below the next multiple of
`sc`. -/
theorem rounded_div_eq {Q sc u t R : Nat} (hu : u ∣ sc) (hlo : Q * sc ≤ t) (hhi : 2 * t + u < 2 * ((Q + 1) * sc))
    (hR : R = t / u * u ∨ (R = (t / u + 1) * u ∧ u ≤ 2 * (t % u))) : R / sc = Q := by
  have hsplit : t / u * u + t % u = t := Nat.div_add_mod' t u
  have htrunc : Q * sc ≤ t / u * u := by
    obtain ⟨j, rfl⟩ := hu
    rcases Nat.eq_zero_or_pos u with rfl | hupos
    · simp
    · rw [Nat.mul_left_comm, Nat.mul_comm u]
      exact Nat.mul_le_mul_right u ((Nat.le_div_iff_mul_le hupos).mpr (by rwa [Nat.mul_assoc, Nat.mul_comm j]))
  apply Nat.div_eq_of_lt_le
  · rcases hR with rfl | ⟨rfl, -⟩
    · exact htrunc
    · exact htrunc.trans (Nat.mul_le_mul_right u (Nat.le_succ _))
  · rcases hR with rfl | ⟨rfl, hr⟩
    · omega
    · rw [Nat.add_one_mul] at *
      omega

/-- The quotient of two numbers, the first of up to `p` bits: rounding it to `p` bits never carries into its whole part, because the
next whole number is more than half a unit in the last place away. -/
theorem floorQuotient_eq_div {p a b : Nat} (hp : 0 < p) (ha : a < 2 ^ p) (hb : 0 < b) : floorQuotient p a b = a / b := by
  unfold floorQuotient
  simp only
  generalize p + Nat.log2 b + 1 = S
  generalize ht : a * 2 ^ S / b = t
  have hscpos : 0 < 2 ^ S := Nat.two_pow_pos S
  by_cases hsmall : t < 2 ^ p
  · rw [if_pos hsmall, ← ht, Nat.div_div_eq_div_mul, Nat.mul_div_mul_right _ _ hscpos]
  · have hta : t * b ≤ a * 2 ^ S := ht ▸ Nat.div_mul_le_self _ _
    have hulp := ulp_bounds hp (Nat.not_lt.mp hsmall)
    generalize hu : 2 ^ (Nat.log2 t + 1 - p) = u at hulp
    have hub : u * b < 2 * 2 ^ S := by
      refine lt_of_mul_lt_mul_left (a := 2 ^ (p - 1)) ?_ (Nat.zero_le _)
      calc 2 ^ (p - 1) * (u * b) = 2 ^ (p - 1) * u * b := (Nat.mul_assoc ..).symm
        _ ≤ a * 2 ^ S := (Nat.mul_le_mul_right b hulp).trans hta
        _ < 2 ^ p * 2 ^ S := Nat.mul_lt_mul_of_pos_right ha hscpos
        _ = 2 ^ (p - 1) * (2 * 2 ^ S) := by rw [← Nat.mul_assoc, ← pow_succ, Nat.sub_add_cancel hp]
    have hdvd : u ∣ 2 ^ S := by
      rw [← hu]
      refine pow_dvd_pow 2 ((Nat.pow_lt_pow_iff_right (a := 2) (by omega)).mp ?_ |> Nat.lt_succ_iff.mp)
      calc 2 ^ (Nat.log2 t + 1 - p) = u := hu
        _ ≤ u * b := Nat.le_mul_of_pos_right u hb
        _ < 2 ^ (S + 1) := by rw [pow_succ]; omega
    have hlo : a / b * 2 ^ S ≤ t := by
      rw [← ht, Nat.le_div_iff_mul_le hb, Nat.mul_right_comm]
      exact Nat.mul_le_mul_right _ (Nat.div_mul_le_self a b)
    have hhi : 2 * t + u < 2 * ((a / b + 1) * 2 ^ S) := by
      have hnext : a + 1 ≤ (a / b + 1) * b := by
        rw [Nat.mul_comm]
        exact Nat.lt_mul_div_succ a hb
      refine lt_of_mul_lt_mul_right (a := b) ?_ (Nat.zero_le _)
      calc (2 * t + u) * b = 2 * (t * b) + u * b := by ring
        _ < 2 * (a * 2 ^ S) + 2 * 2 ^ S := by omega
        _ = 2 * ((a + 1) * 2 ^ S) := by ring
        _ ≤ 2 * ((a / b + 1) * b * 2 ^ S) := Nat.mul_le_mul_left 2 (Nat.mul_le_mul_right _ hnext)
        _ = 2 * ((a / b + 1) * 2 ^ S) * b := by ring
    rw [if_neg hsmall]
    refine rounded_div_eq hdvd hlo hhi ?_
    split_ifs with hround
    · exact Or.inr ⟨rfl, by omega⟩
    · exact Or.inl rfl

/-- The quotient in a format of `p` bits is exact for a dividend below `2 ^ p`: a divisor beyond it gives 0 either way. -/
theorem quotientFloat_eq_div {p F n : Nat} (hp : 0 < p) (hF : F < 2 ^ p) (hn : 0 < n) : quotientFloat p F n = F / n := by
  rw [quotientFloat, roundNat_of_lt hF]
  by_cases h : n < 2 ^ p
  · rw [roundNat_of_lt h, floorQuotient_eq_div hp hF hn]
  · have hbig := le_roundNat hp (Nat.not_lt.mp h)
    rw [floorQuotient_eq_div hp hF (by omega), Nat.div_eq_of_lt (by omega), Nat.div_eq_of_lt (by omega)]

/-- Settles O20: the two formats have 24 and 53 bits. -/
theorem floatQuotientAgrees : Obligations.FloatQuotientAgrees := by
  unfold Obligations.FloatQuotientAgrees
  intro F k bps hk hb
  exact ⟨fun h => quotientFloat_eq_div (by decide) h (Nat.mul_pos hk hb),
    fun h => quotientFloat_eq_div (by decide) h (Nat.mul_pos hk hb)⟩

end Sys2Proof.Machine
end

section
/-! PROOF. The line commands TXLINE and RXLINE, step by step, and what the transmit and the receive commands leave unchanged
(spec/44_char_io.md R106 to R109; spec/45_line_io.md R110 to R113). -/

namespace Sys2Proof.Machine

variable {s t : State}

/-! ## TXLINE -/

theorem exec_txline_of_idle (addr : Word16) (hq : s.seq = .idle) :
    exec (.txline addr) s = .next (setSeq (.txlFetch addr.toNat) s) := by
  simp only [exec, execTxline, hq]

theorem exec_txline_of_txlFetch {a : Nat} (addr : Word16) (hq : s.seq = .txlFetch a) :
    exec (.txline addr) s = txlFetchStep a s := by
  simp only [exec, execTxline, hq]

theorem exec_txline_of_txlWait {a : Nat} {c : Byte} (addr : Word16) (hq : s.seq = .txlWait a c) :
    exec (.txline addr) s = txlWaitStep a c s := by
  simp only [exec, execTxline, hq]

/-- TXL_FETCH at a 0x00 byte: TXLINE completes. -/
theorem txlFetchStep_of_zero {a : Nat} (ha : a ≤ 0xFFFF) (hz : memRead s.mem a = 0) :
    txlFetchStep a s = .next (complete s) := by
  rw [txlFetchStep, if_neg (by omega), if_pos hz]

/-- TXL_FETCH at another byte: TXLINE waits with it. -/
theorem txlFetchStep_of_ne_zero {a : Nat} (ha : a ≤ 0xFFFF) (hz : memRead s.mem a ≠ 0) :
    txlFetchStep a s = .next (setSeq (.txlWait a (memRead s.mem a)) s) := by
  rw [txlFetchStep, if_neg (by omega), if_neg hz]

/-- A byte goes out with ninth bit 0 when EXT = 1, with TXB8 as it stands otherwise. -/
theorem sendChar_byte {c : Byte} {ninth : Bool} (hn : ninth = if s.ext then false else s.txb8) :
    sendChar (c.setWidth 16) s =
      { s with txb8 := ninth, txbuf := some (BitVec.ofNat 9 (ninth.toNat * 256 + c.toNat)) } := by
  have hbit : (c.setWidth 16).getLsbD 8 = false := by
    rw [BitVec.getLsbD_setWidth, BitVec.getLsbD_of_ge c 8 le_rfl, Bool.and_false]
  have hlow : (c.setWidth 16).toNat % 256 = c.toNat := by
    rw [BitVec.toNat_setWidth]
    omega
  rw [sendChar_eq_ofNat (ninth := ninth) (by rw [hn, hbit]), hlow]

/-- TXL_WAIT with UDRE = 1: the byte is buffered and TXLINE goes on to the next address. -/
theorem txlWaitStep_of_empty {a : Nat} {c : Byte} {ninth : Bool} (hb : s.txbuf = none)
    (hn : ninth = if s.ext then false else s.txb8) :
    txlWaitStep a c s = .next { s with
      txb8 := ninth, txbuf := some (BitVec.ofNat 9 (ninth.toNat * 256 + c.toNat)), seq := .txlFetch (a + 1) } := by
  rw [txlWaitStep, if_pos (udre_iff.mpr hb), sendChar_byte hn]
  rfl

/-- Settles O23: the fetch of a 0x00 byte, of another, past the end; the wait met and not; the start. -/
theorem txlineCompletes : Obligations.TxlineCompletes := by
  unfold Obligations.TxlineCompletes
  intro s a c ninth addr
  refine ⟨fun hq ha hz => ?_, fun hq ha hz => ?_, fun hq ha => ?_, fun hq hb hn => ?_, fun hq hb => ?_,
    fun hq => exec_txline_of_idle addr hq⟩
  · rw [exec_txline_of_txlFetch addr hq, txlFetchStep_of_zero ha hz, complete]
  · rw [exec_txline_of_txlFetch addr hq, txlFetchStep_of_ne_zero ha hz, setSeq]
  · rw [exec_txline_of_txlFetch addr hq, txlFetchStep, if_pos ha]
    rfl
  · rw [exec_txline_of_txlWait addr hq, txlWaitStep_of_empty hb hn]
  · rw [exec_txline_of_txlWait addr hq, txlWaitStep_of_full a c hb]

/-! ## The frame of the transmit commands -/

/-- `t` is `s` with TXBUF, TXB8 (with EXT = 1 only), SEQ and CI changed at most, the first two not on the way to FAULTED. -/
def SentAtMost (s t : State) : Prop :=
  ∃ buf ninth q ci, t = { s with txbuf := buf, txb8 := ninth, seq := q, ci := ci } ∧ (s.ext = false → ninth = s.txb8) ∧
    (q = .faulted → buf = s.txbuf ∧ ninth = s.txb8)

theorem SentAtMost.refl (s : State) : SentAtMost s s := ⟨_, _, _, _, rfl, fun _ => rfl, fun _ => ⟨rfl, rfl⟩⟩

theorem SentAtMost.setSeq (q : Seq) (s : State) : SentAtMost s (setSeq q s) :=
  ⟨_, _, _, _, rfl, fun _ => rfl, fun _ => ⟨rfl, rfl⟩⟩

theorem SentAtMost.complete (s : State) : SentAtMost s (complete s) := ⟨_, _, _, _, rfl, fun _ => rfl, fun _ => ⟨rfl, rfl⟩⟩

/-- `send_char` and a sequencer state that is not FAULTED. -/
theorem SentAtMost.sendChar (v : Word16) (s : State) {q : Seq} (hq : q ≠ .faulted) (c : Nat) :
    SentAtMost s { sendChar v s with seq := q, ci := c } := by
  rw [sendChar_eq]
  exact ⟨_, _, q, c, rfl, fun hx => by simp [hx], fun h => absurd h hq⟩

/-- All a step of TXBYTE can do. -/
theorem exec_txbyte_next {v : Word16} (h : exec (.txbyte v) s = .next t) : SentAtMost s t := by
  simp only [exec, execTxbyte] at h
  split at h
  · cases h
    exact .setSeq _ s
  · rw [txbWaitStep] at h
    split_ifs at h <;> cases h
    · exact .sendChar _ s (by simp) _
    · exact .refl s
  · cases h
    exact .refl s

/-- All a step of TXLINE can do. -/
theorem exec_txline_next {v : Word16} (h : exec (.txline v) s = .next t) : t = raise .memRange s ∨ SentAtMost s t := by
  simp only [exec, execTxline] at h
  split at h
  · cases h
    exact Or.inr (.setSeq _ s)
  · rw [txlFetchStep] at h
    split_ifs at h <;> cases h
    · exact Or.inl rfl
    · exact Or.inr (.complete s)
    · exact Or.inr (.setSeq _ s)
  · rw [txlWaitStep] at h
    split_ifs at h <;> cases h
    · exact Or.inr (.sendChar _ s (by simp) _)
    · exact Or.inr (.refl s)
  · cases h
    exact Or.inr (.refl s)

/-- Settles O24: the fault of TXLINE, or what both write. -/
theorem transmitFrame : Obligations.TransmitFrame := by
  unfold Obligations.TransmitFrame
  intro s t v h
  have hmoves : t = raise .memRange s ∨ SentAtMost s t := h.elim (fun h => Or.inr (exec_txbyte_next h)) exec_txline_next
  have hbyte (hb : exec (.txbyte v) s = .next t) : SameRecord s t := by
    obtain ⟨_, _, _, _, rfl, -⟩ := exec_txbyte_next hb
    exact ⟨rfl, rfl, rfl⟩
  rcases hmoves with rfl | ⟨buf, ninth, q, c, rfl, hninth, hfault⟩
  · exact ⟨⟨rfl, rfl, rfl, rfl⟩, ⟨rfl, rfl, rfl, rfl, rfl⟩, ⟨rfl, rfl, rfl, rfl, rfl, rfl⟩, ⟨rfl, rfl, rfl⟩, ⟨rfl, rfl⟩,
      ⟨rfl, rfl⟩, ⟨rfl, rfl, rfl, rfl⟩, rfl, fun _ => rfl, ⟨rfl, rfl⟩, fun _ => rfl, fun _ => ⟨rfl, rfl⟩,
      fun hne => absurd rfl hne, hbyte⟩
  · exact ⟨⟨rfl, rfl, rfl, rfl⟩, ⟨rfl, rfl, rfl, rfl, rfl⟩, ⟨rfl, rfl, rfl, rfl, rfl, rfl⟩, ⟨rfl, rfl, rfl⟩, ⟨rfl, rfl⟩,
      ⟨rfl, rfl⟩, ⟨rfl, rfl, rfl, rfl⟩, rfl, hninth, ⟨rfl, rfl⟩, fun _ => rfl, hfault, fun _ => ⟨rfl, rfl, rfl⟩, hbyte⟩

/-! ## RXLINE -/

theorem exec_rxline_of_idle (hq : s.seq = .idle) : exec .rxline s = .next (setSeq (.rxl 0) s) := by
  simp only [exec, execRxline, hq]

theorem exec_rxline_of_rxl {i : Nat} (hq : s.seq = .rxl i) : exec .rxline s = rxlStep i s := by
  simp only [exec, execRxline, hq]

/-- The end of a line inside the line buffer. -/
theorem finishLine_eq {i : Nat} (hwf : s.params.wf = true) (hi : i ≤ 9) : finishLine i s = .next { s with
    mem := memWrite s.mem (lineAddr s i) 0, res := s.params.linebufBase, seq := .idle, ci := s.ci + 1 } :=
  storeLine_eq (lineAddr_lt hwf hi) _ _

/-- RXL(i) with no character held, not at the end by the cap: the oldest character is read. -/
theorem rxlStep_of_cons {i : Nat} {e : RxEntry} {more : List RxEntry} (hl : s.lineChar = none)
    (hi : ¬ (i = lineCap ∧ s.params.capExtraRead = false)) (hr : s.rxfifo = e :: more) :
    rxlStep i s = .next { s with rxfifo := more, dor := false, lineChar := some (e.data.setWidth 8) } := by
  simp only [rxlStep, hl, if_neg hi, rxlReadStep, rxc_iff.mpr ⟨e, more, hr⟩, if_true, readChar_low hr]
  rw [readChar_cons hr]

/-- RXL(i) with a character held that ends the line: `#`, or any at the cap. -/
theorem rxlStep_of_end {i : Nat} {c : Byte} (hwf : s.params.wf = true) (hi : i ≤ 9) (hl : s.lineChar = some c)
    (hend : i = lineCap ∨ c = sentinel) : rxlStep i s = .next { s with
      mem := memWrite s.mem (lineAddr s i) 0, res := s.params.linebufBase, lineChar := none, seq := .idle, ci := s.ci + 1 } := by
  simp only [rxlStep, hl, rxlStoreStep, if_pos hend]
  exact finishLine_eq (s := { s with lineChar := none }) hwf hi

/-- RXL(i) with another character held: it is stored. -/
theorem rxlStep_of_store {i : Nat} {c : Byte} (hwf : s.params.wf = true) (hi : i < 9) (hl : s.lineChar = some c)
    (hne : c ≠ sentinel) : rxlStep i s = .next { s with
      mem := memWrite s.mem (lineAddr s i) c, lineChar := none, seq := .rxl (i + 1) } := by
  have hgo : ¬ (i = lineCap ∨ c = sentinel) := not_or.mpr ⟨Nat.ne_of_lt hi, hne⟩
  simp only [rxlStep, hl, rxlStoreStep, if_neg hgo]
  exact storeLine_eq (s := { s with lineChar := none }) (lineAddr_lt hwf hi.le) _ _

/-- RXL(9) with no character held and no further read: the line ends. -/
theorem rxlStep_of_cap (hwf : s.params.wf = true) (hl : s.lineChar = none) (hx : s.params.capExtraRead = false) :
    rxlStep 9 s = .next { s with
      mem := memWrite s.mem (lineAddr s 9) 0, res := s.params.linebufBase, seq := .idle, ci := s.ci + 1 } := by
  have hcap : (9 : Nat) = lineCap ∧ s.params.capExtraRead = false := ⟨rfl, hx⟩
  have hfin : rxlStep 9 s = finishLine lineCap s := by simp only [rxlStep, hl, if_pos hcap]
  exact hfin.trans (finishLine_eq hwf le_rfl)

/-- Settles O27: the read, the hold, `#`, the store, the cap without and with a character, and the start. -/
theorem rxlineCompletes : Obligations.RxlineCompletes := by
  unfold Obligations.RxlineCompletes
  intro s i c e more hwf
  have reads (hi : i < 9 ∨ (i = 9 ∧ s.params.capExtraRead = true)) : ¬ (i = lineCap ∧ s.params.capExtraRead = false) := by
    rintro ⟨rfl, hx⟩
    rcases hi with hi | ⟨-, hx'⟩
    · exact Nat.lt_irrefl _ hi
    · simp [hx] at hx'
  refine ⟨fun hq hl hi hr => ?_, fun hq hl hi hr => ?_, fun hq hi hl hc => ?_, fun hq hi hl hc => ?_, fun hq hl hx => ?_,
    fun hq hl => ?_, fun hq => exec_rxline_of_idle hq⟩
  · rw [exec_rxline_of_rxl hq, rxlStep_of_cons hl (reads hi) hr]
  · rw [exec_rxline_of_rxl hq, rxlStep_of_nil hl (reads hi) hr]
  · rw [exec_rxline_of_rxl hq, rxlStep_of_end hwf hi.le hl (Or.inr hc)]
  · rw [exec_rxline_of_rxl hq, rxlStep_of_store hwf hi hl hc]
  · rw [exec_rxline_of_rxl hq, rxlStep_of_cap hwf hl hx]
  · rw [exec_rxline_of_rxl hq, rxlStep_of_end hwf le_rfl hl (Or.inl rfl)]

/-! ## The frame of the receive commands -/

/-- `t` is `s` with RES, RXFIFO, DOR, SEQ, CI, the character held and host memory changed at most. -/
def ReceivedAtMost (s t : State) : Prop :=
  ∃ res fifo dor q ci c mem,
    t = { s with res := res, rxfifo := fifo, dor := dor, seq := q, ci := ci, lineChar := c, mem := mem }

/-- All a step of RXBYTE can do: memory and the character held stay. -/
theorem exec_rxbyte_next (h : exec .rxbyte s = .next t) : ReceivedAtMost s t ∧ t.mem = s.mem ∧ t.lineChar = s.lineChar := by
  simp only [exec, execRxbyte] at h
  split at h
  · cases h
    exact ⟨⟨_, _, _, _, _, _, _, rfl⟩, rfl, rfl⟩
  · cases hr : s.rxfifo with
    | nil =>
      rw [rxbWaitStep_of_nil hr] at h
      cases h
      exact ⟨⟨_, _, _, _, _, _, _, rfl⟩, rfl, rfl⟩
    | cons e more =>
      rw [rxbWaitStep_of_cons hr] at h
      cases h
      exact ⟨⟨_, _, _, _, _, _, _, rfl⟩, rfl, rfl⟩
  · cases h
    exact ⟨⟨_, _, _, _, _, _, _, rfl⟩, rfl, rfl⟩

/-- All RXLINE can do from RXL(i): memory stays, or it stores a character it holds, or ends at the cap. -/
theorem rxlStep_next {i : Nat} (h : rxlStep i s = .next t) : ReceivedAtMost s t ∧
    (t.mem = s.mem ∨ ((∃ v, t.mem = memWrite s.mem (lineAddr s i) v) ∧
      (s.lineChar ≠ none ∨ (i = 9 ∧ s.params.capExtraRead = false)))) := by
  cases hl : s.lineChar with
  | some c =>
    simp only [rxlStep, hl, rxlStoreStep] at h
    split_ifs at h
    · obtain ⟨-, rfl⟩ := finishLine_next h
      exact ⟨⟨_, _, _, _, _, _, _, rfl⟩, Or.inr ⟨⟨_, rfl⟩, Or.inl (by simp)⟩⟩
    · obtain ⟨-, rfl⟩ := storeLine_next h
      exact ⟨⟨_, _, _, _, _, _, _, rfl⟩, Or.inr ⟨⟨_, rfl⟩, Or.inl (by simp)⟩⟩
  | none =>
    by_cases hcap : i = lineCap ∧ s.params.capExtraRead = false
    · simp only [rxlStep, hl, if_pos hcap] at h
      obtain ⟨-, rfl⟩ := finishLine_next h
      exact ⟨⟨_, _, _, _, _, _, _, rfl⟩, Or.inr ⟨⟨_, by rw [hcap.1]⟩, Or.inr hcap⟩⟩
    · cases hr : s.rxfifo with
      | nil =>
        rw [rxlStep_of_nil hl hcap hr] at h
        cases h
        exact ⟨⟨_, _, _, _, _, _, _, rfl⟩, Or.inl rfl⟩
      | cons e more =>
        rw [rxlStep_of_cons hl hcap hr] at h
        cases h
        exact ⟨⟨_, _, _, _, _, _, _, rfl⟩, Or.inl rfl⟩

/-- All a step of RXLINE can do. -/
theorem exec_rxline_next (h : exec .rxline s = .next t) : ReceivedAtMost s t ∧
    (t.mem = s.mem ∨ ∃ i, s.seq = .rxl i ∧ (∃ v, t.mem = memWrite s.mem (lineAddr s i) v) ∧
      (s.lineChar ≠ none ∨ (i = 9 ∧ s.params.capExtraRead = false))) := by
  simp only [exec, execRxline] at h
  split at h
  · cases h
    exact ⟨⟨_, _, _, _, _, _, _, rfl⟩, Or.inl rfl⟩
  · rename_i i hq
    obtain ⟨hfields, hmem⟩ := rxlStep_next h
    exact ⟨hfields, hmem.imp_right fun hmem => ⟨i, hq, hmem⟩⟩
  · cases h
    exact ⟨⟨_, _, _, _, _, _, _, rfl⟩, Or.inl rfl⟩

/-- Settles O28: what both write, and where RXLINE stores. -/
theorem receiveFrame : Obligations.ReceiveFrame := by
  unfold Obligations.ReceiveFrame
  intro s t h
  have hfields : ReceivedAtMost s t := h.elim (fun h => (exec_rxbyte_next h).1) fun h => (exec_rxline_next h).1
  have hmem : t.mem = s.mem ∨ ∃ i, s.seq = .rxl i ∧ (∃ v, t.mem = memWrite s.mem (lineAddr s i) v) ∧
      (s.lineChar ≠ none ∨ (i = 9 ∧ s.params.capExtraRead = false)) :=
    h.elim (fun h => Or.inl (exec_rxbyte_next h).2.1) fun h => (exec_rxline_next h).2
  have hbyte (hb : exec .rxbyte s = .next t) : SameMemory s t ∧ t.lineChar = s.lineChar :=
    ⟨sameMemory_of_eq (exec_rxbyte_next hb).2.1, (exec_rxbyte_next hb).2.2⟩
  have hwhere : (∀ i, s.seq = .rxl i → ∀ a, a ≠ lineAddr s i → memRead t.mem a = memRead s.mem a) ∧
      (∀ i, s.seq = .rxl i → s.lineChar = none → (i ≠ 9 ∨ s.params.capExtraRead = true) → SameMemory s t) ∧
      ((∀ i, s.seq ≠ .rxl i) → SameMemory s t) := by
    rcases hmem with hmem | ⟨i, hq, ⟨v, hmem⟩, hheld⟩
    · have hsame := sameMemory_of_eq hmem
      exact ⟨fun _ _ a _ => hsame a, fun _ _ _ _ => hsame, fun _ => hsame⟩
    · refine ⟨fun j hj a ha => ?_, fun j hj hl hx => ?_, fun hno => absurd hq (hno i)⟩
      · obtain rfl : i = j := Seq.rxl.inj (hq.symm.trans hj)
        rw [hmem, memRead_memWrite_ne ha]
      · obtain rfl : i = j := Seq.rxl.inj (hq.symm.trans hj)
        rcases hheld with hheld | ⟨rfl, hcap⟩
        · exact absurd hl hheld
        · simp [hcap] at hx
  obtain ⟨res, fifo, dor, q, c, held, mem, rfl⟩ := hfields
  exact ⟨⟨rfl, rfl, rfl, rfl⟩, ⟨rfl, rfl, rfl, rfl, rfl⟩, ⟨rfl, rfl, rfl, rfl, rfl, rfl⟩, ⟨rfl, rfl, rfl⟩, ⟨rfl, rfl⟩,
    ⟨rfl, rfl, rfl, rfl⟩, ⟨rfl, rfl⟩, ⟨rfl, rfl, rfl⟩, rfl, hbyte, hwhere⟩

end Sys2Proof.Machine
end

section
/-! PROOF. Whole lines: a TXLINE sends its string, and RXLINE stores the line it is fed, or nine characters (spec/45_line_io.md R110
to R114). -/

namespace Sys2Proof.Machine

variable {s t : State} {f : Format} {k : Nat} {more : List Event}

/-! ## TXLINE sends a string -/

theorem sequencerTurn_of_txlFetch {a : Nat} (hq : s.seq = .txlFetch a) : sequencerTurn s = txlFetchStep a s := by
  simp only [sequencerTurn, hq, exec_txline_of_txlFetch _ hq]

theorem sequencerTurn_of_txlWait {a : Nat} {c : Byte} (hq : s.seq = .txlWait a c) :
    sequencerTurn s = txlWaitStep a c s := by
  simp only [sequencerTurn, hq, exec_txline_of_txlWait _ hq]

/-- A run that begins with TXLINE's fetch of a byte that is not 0x00. -/
theorem run_txlFetch {a : Nat} (hag : s.agenda = .sequencer :: more) (hq : s.seq = .txlFetch a) (ha : a ≤ 0xFFFF)
    (hz : memRead s.mem a ≠ 0) : Host.Core.run Sys2Proof.core (k + 1) s = Host.Core.run Sys2Proof.core k { s with
      agenda := more, seq := .txlWait a (memRead s.mem a) } :=
  run_event hag ((sequencerTurn_of_txlFetch (s := { s with agenda := more }) hq).trans
    (txlFetchStep_of_ne_zero (s := { s with agenda := more }) ha hz))

/-- A run that begins with TXLINE's character going to TXBUF with ninth bit 0. -/
theorem run_txlWait {a : Nat} {c : Byte} (hag : s.agenda = .sequencer :: more) (hq : s.seq = .txlWait a c)
    (hb : s.txbuf = none) (hn : s.ext = false → s.txb8 = false) :
    Host.Core.run Sys2Proof.core (k + 1) s = Host.Core.run Sys2Proof.core k { s with
      agenda := more, txb8 := false, txbuf := some (c.setWidth 9), seq := .txlFetch (a + 1) } := by
  have hninth : false = if s.ext then false else s.txb8 := by
    cases hext : s.ext
    · simp [hn hext]
    · rfl
  have hchar : BitVec.ofNat 9 (false.toNat * 256 + c.toNat) = c.setWidth 9 := by
    apply BitVec.eq_of_toNat_eq
    simp
  rw [← hchar]
  exact run_event hag ((sequencerTurn_of_txlWait (s := { s with agenda := more }) hq).trans
    (txlWaitStep_of_empty (s := { s with agenda := more }) hb hninth))

/-- One character of a TXLINE: read, buffered with ninth bit 0, loaded and shifted out. -/
theorem run_txline_char {a : Nat} (hq : s.seq = .txlFetch a) (hf : formatOf s = some f) (hx : s.txen = true)
    (hb : s.txbuf = none) (ht : s.tsr = none) (hn : s.ext = false → s.txb8 = false) (ha : a ≤ 0xFFFF)
    (hz : memRead s.mem a ≠ 0) (hag : s.agenda = .sequencer :: .sequencer :: .txLoad :: .txShift :: more) :
    Host.Core.run Sys2Proof.core (k + 4) s = Host.Core.run Sys2Proof.core k { s with
      agenda := more, seq := .txlFetch (a + 1), txb8 := false, txbuf := none, tsr := none, txc := s.txc || true,
      txwire := s.txwire ++ [{ bits := encodeFrame f ((memRead s.mem a).setWidth 9), corrupt := false }] } := by
  refine (run_txlFetch hag hq ha hz).trans ((run_txlWait rfl rfl ?_ ?_).trans ((run_load rfl ?_ rfl ?_ ?_).trans
    (run_shift rfl rfl)))
  exacts [hb, hn, hx, ht, hf]

/-- A TXLINE from TXL_FETCH(a) to its end, four turns a character and one for the 0x00 byte. -/
theorem run_txline {a : Nat} {cs : List Byte} (hq : s.seq = .txlFetch a) (hf : formatOf s = some f) (hx : s.txen = true)
    (hb : s.txbuf = none) (ht : s.tsr = none) (hn : s.ext = false → s.txb8 = false)
    (hcs : ∀ j c, cs[j]? = some c → memRead s.mem (a + j) = c ∧ c ≠ 0) (hend : memRead s.mem (a + cs.length) = 0)
    (ha : a + cs.length ≤ 0xFFFF) (hag : s.agenda = sendTurns cs.length ++ .sequencer :: more) :
    ∃ ninth txc, Host.Core.run Sys2Proof.core (4 * cs.length + 1) s = .next { s with
      agenda := more, seq := .idle, ci := s.ci + 1, txb8 := ninth, txbuf := none, tsr := none, txc := txc,
      txwire := s.txwire ++ cs.map fun c => { bits := encodeFrame f (c.setWidth 9), corrupt := false } } := by
  induction cs generalizing s a with
  | nil =>
    have hag' : s.agenda = .sequencer :: more := hag
    refine ⟨s.txb8, s.txc, (run_event (k := 0) hag' ((sequencerTurn_of_txlFetch (s := { s with agenda := more }) hq).trans
      (txlFetchStep_of_zero (s := { s with agenda := more }) ha hend))).trans ?_⟩
    simp [Host.Core.run, complete, ← hb, ← ht]
  | cons c cs ih =>
    obtain ⟨hc, hne⟩ := hcs 0 c rfl
    rw [Nat.add_zero] at hc
    rw [List.length_cons] at hend ha hag ⊢
    have hchar := run_txline_char (k := 4 * cs.length + 1) (more := sendTurns cs.length ++ .sequencer :: more) hq hf hx hb ht hn
      (by omega) (hc ▸ hne) (by rw [hag]; simp [sendTurns, List.replicate_succ])
    obtain ⟨ninth, txc, hrest⟩ := ih (a := a + 1) (s := { s with
        agenda := _, seq := .txlFetch (a + 1), txb8 := false, txbuf := none, tsr := none, txc := s.txc || true, txwire := _ })
      rfl hf hx rfl rfl (fun _ => rfl) (fun j c hj => by
        have := hcs (j + 1) c hj
        rwa [show a + 1 + j = a + (j + 1) by omega])
      (by rwa [show a + 1 + cs.length = a + (cs.length + 1) by omega]) (by omega) rfl
    refine ⟨ninth, txc, (hchar.trans hrest).trans ?_⟩
    simp [hc]

/-- Settles O25: the run to the end. -/
theorem txlineSendsString : Obligations.TxlineSendsString := by
  unfold Obligations.TxlineSendsString
  intro s a cs f rest hq hf hx hb ht hn hcs hend ha hag
  obtain ⟨ninth, txc, hrun⟩ := run_txline hq hf hx hb ht hn hcs hend ha hag
  exact ⟨_, hrun, rfl, rfl, rfl, rfl, rfl, rfl, fun _ => rfl⟩

/-! ## The line buffer filled -/

/-- Host memory with the low 8 bits of the characters written one after the other from an address on. -/
def storeChars : Memory → Nat → List Char9 → Memory
  | m, _, [] => m
  | m, a, v :: vs => storeChars (memWrite m a (v.setWidth 8)) (a + 1) vs

theorem storeChars_wf {m : Memory} {a : Nat} {vs : List Char9} (hm : Memory.wf m = true) (ha : a + vs.length ≤ hostBytes) :
    Memory.wf (storeChars m a vs) = true := by
  induction vs generalizing m a with
  | nil => exact hm
  | cons v vs ih =>
    rw [List.length_cons] at ha
    exact ih (memWrite_wf hm (by omega)) (by omega)

/-- Every byte outside is as before. -/
theorem memRead_storeChars_outside {m : Memory} {a x : Nat} {vs : List Char9} (hx : x < a ∨ a + vs.length ≤ x) :
    memRead (storeChars m a vs) x = memRead m x := by
  induction vs generalizing m a with
  | nil => rfl
  | cons v vs ih =>
    rw [List.length_cons] at hx
    rw [storeChars, ih (by omega), memRead_memWrite_ne (by omega)]

/-- The characters' bytes are read back. -/
theorem memRead_storeChars_inside {m : Memory} {a j : Nat} {v : Char9} {vs : List Char9} (hm : Memory.wf m = true)
    (ha : a + vs.length ≤ hostBytes) (hj : vs[j]? = some v) : memRead (storeChars m a vs) (a + j) = v.setWidth 8 := by
  induction vs generalizing m a j with
  | nil => simp at hj
  | cons w vs ih =>
    rw [List.length_cons] at ha
    rw [storeChars]
    cases j with
    | zero =>
      obtain rfl : w = v := by simpa using hj
      rw [memRead_storeChars_outside (Or.inl (by omega)), Nat.add_zero, memRead_memWrite_same hm]
    | succ j =>
      rw [show a + (j + 1) = a + 1 + j by omega]
      exact ih (memWrite_wf hm (by omega)) (by omega) hj

/-- The line buffer with the characters and the terminator in it. -/
theorem memRead_line {vs : List Char9} (hwf : s.params.wf = true) (hm : Memory.wf s.mem = true) (hlen : vs.length ≤ 9) :
    (∀ j v, vs[j]? = some v →
      memRead (memWrite (storeChars s.mem (lineAddr s 0) vs) (lineAddr s vs.length) 0) (lineAddr s j) = v.setWidth 8) ∧
    memRead (memWrite (storeChars s.mem (lineAddr s 0) vs) (lineAddr s vs.length) 0) (lineAddr s vs.length) = 0 ∧
    (∀ a, (a < lineAddr s 0 ∨ lineAddr s vs.length < a) →
      memRead (memWrite (storeChars s.mem (lineAddr s 0) vs) (lineAddr s vs.length) 0) a = memRead s.mem a) := by
  have hend := lineAddr_lt hwf hlen
  have haddr (j : Nat) : lineAddr s j = lineAddr s 0 + j := rfl
  rw [haddr] at hend
  refine ⟨fun j v hj => ?_, memRead_memWrite_same (storeChars_wf hm hend.le) _ _, fun a ha => ?_⟩
  · have hjlt := (List.getElem?_eq_some_iff.mp hj).1
    rw [haddr j, haddr vs.length, memRead_memWrite_ne (by omega), memRead_storeChars_inside hm hend.le hj]
  · rw [haddr vs.length] at ha ⊢
    rw [memRead_memWrite_ne (by omega), memRead_storeChars_outside (by omega)]

/-! ## RXLINE receives a line -/

theorem sequencerTurn_of_rxl {i : Nat} (hq : s.seq = .rxl i) : sequencerTurn s = rxlStep i s := by
  simp only [sequencerTurn, hq, exec_rxline_of_rxl hq]

/-- The free bits of the offer of a character make its frame, as far as it is sampled. -/
theorem wireBits_offerOf (hf : formatOf s = some f) (v : Char9) :
    wireBits (BitVec.ofNat 11 (bitsToNat (encodeFrame f v).tail)) (sampledLen f) none =
      (encodeFrame f v).take (sampledLen f) := by
  have hlen : sampledLen f ≤ (encodeFrame f v).length := by
    simpa using sampledLen_le_frameLen hf
  refine List.ext_getElem (by simpa [wireBits] using hlen) fun i hi _ => ?_
  have hi : i < sampledLen f := by simpa [wireBits] using hi
  have hi12 := hi.trans_le (sampledLen_le hf)
  have hil := hi.trans_le hlen
  rw [List.getElem_take]
  simp only [wireBits_peer, List.getElem_map, List.getElem_range]
  cases i with
  | zero => rfl
  | succ i =>
    rw [peerBit, BitVec.getLsbD_ofNat, testBit_bitsToNat, decide_eq_true (by omega), Bool.true_and]
    rw [List.getD_eq_getElem _ _ (by rw [List.length_tail]; omega), List.getElem_tail]

/-- The low 8 bits of a character survive a format of at least 8 data bits. -/
theorem low_byte_of_data {n : Nat} (hn : 8 ≤ n) (v : Char9) : (BitVec.ofNat 9 (v.toNat % 2 ^ n)).setWidth 8 = v.setWidth 8 := by
  apply BitVec.eq_of_toNat_eq
  simp only [BitVec.toNat_setWidth, BitVec.toNat_ofNat]
  rw [Nat.mod_mod_of_dvd _ (pow_dvd_pow 2 (by omega)), Nat.mod_mod_of_dvd _ (pow_dvd_pow 2 hn)]

/-- A run that begins with the offer of a character, RXFIFO empty. -/
theorem run_offerOf {v : Char9} (hag : s.agenda = offerOf f v :: more) (hlb : s.params.loopback = false) (hr : s.rxen = true)
    (hfifo : s.rxfifo = []) (hf : formatOf s = some f) :
    Host.Core.run Sys2Proof.core (k + 1) s = Host.Core.run Sys2Proof.core k { s with
      agenda := more, rxfifo := [{ data := BitVec.ofNat 9 (v.toNat % 2 ^ f.n), fe := false, pe := false }] } := by
  have hrun := run_event (k := k) hag ((offerFrame_of_peer (s := { s with agenda := more }) hlb).trans
    (receive_of_room (s := { s with agenda := more }) none hr hf (by simp [hfifo])))
  rwa [wireBits_offerOf hf, frameRoundTrip s f v hf, hfifo] at hrun

/-- A run that begins with RXLINE's read of the character received. -/
theorem run_rxl_read {i : Nat} {e : RxEntry} {c : Byte} (hag : s.agenda = .sequencer :: more) (hfifo : s.rxfifo = [e])
    (hc : e.data.setWidth 8 = c) (hq : s.seq = .rxl i) (hi : i < 9) (hl : s.lineChar = none) :
    Host.Core.run Sys2Proof.core (k + 1) s = Host.Core.run Sys2Proof.core k { s with
      agenda := more, rxfifo := [], dor := false, lineChar := some c } := by
  rw [← hc]
  exact run_event hag ((sequencerTurn_of_rxl (s := { s with agenda := more }) hq).trans
    (rxlStep_of_cons (s := { s with agenda := more }) hl (fun h => Nat.ne_of_lt hi h.1) hfifo))

/-- A run that begins with the end of RXLINE at `#`. -/
theorem run_rxl_end {i : Nat} {c : Byte} (hag : s.agenda = .sequencer :: more) (hq : s.seq = .rxl i) (hi : i ≤ 9)
    (hl : s.lineChar = some c) (hc : c = 0x23#8) (hwf : s.params.wf = true) :
    Host.Core.run Sys2Proof.core (k + 1) s = Host.Core.run Sys2Proof.core k { s with
      agenda := more, mem := memWrite s.mem (lineAddr s i) 0, res := s.params.linebufBase, lineChar := none,
      seq := .idle, ci := s.ci + 1 } :=
  run_event hag ((sequencerTurn_of_rxl (s := { s with agenda := more }) hq).trans
    (rxlStep_of_end (s := { s with agenda := more }) hwf hi hl (Or.inr hc)))

/-- A run that begins with the end of RXLINE by the cap. -/
theorem run_rxl_cap (hag : s.agenda = .sequencer :: more) (hq : s.seq = .rxl 9) (hl : s.lineChar = none)
    (hx : s.params.capExtraRead = false) (hwf : s.params.wf = true) :
    Host.Core.run Sys2Proof.core (k + 1) s = Host.Core.run Sys2Proof.core k { s with
      agenda := more, mem := memWrite s.mem (lineAddr s 9) 0, res := s.params.linebufBase, seq := .idle, ci := s.ci + 1 } :=
  run_event hag ((sequencerTurn_of_rxl (s := { s with agenda := more }) hq).trans
    (rxlStep_of_cap (s := { s with agenda := more }) hwf hl hx))

/-- A character offered to an RXLINE that awaits one, and read, in a format of at least 8 data bits. -/
theorem run_rxline_take {i : Nat} {v : Char9} (hag : s.agenda = offerOf f v :: .sequencer :: more)
    (hlb : s.params.loopback = false) (hr : s.rxen = true) (hfifo : s.rxfifo = []) (hf : formatOf s = some f) (hn : 8 ≤ f.n)
    (hq : s.seq = .rxl i) (hi : i < 9) (hl : s.lineChar = none) :
    Host.Core.run Sys2Proof.core (k + 2) s = Host.Core.run Sys2Proof.core k { s with
      agenda := more, rxfifo := [], dor := false, lineChar := some (v.setWidth 8) } := by
  refine (run_offerOf hag hlb hr hfifo hf).trans (run_rxl_read rfl rfl (low_byte_of_data hn v) ?_ hi ?_)
  exacts [hq, hl]

/-- One character of an RXLINE that does not end the line: offered, read and stored. -/
theorem run_rxline_char {i : Nat} {v : Char9} (hag : s.agenda = offerOf f v :: .sequencer :: .sequencer :: more)
    (hwf : s.params.wf = true) (hlb : s.params.loopback = false) (hr : s.rxen = true) (hfifo : s.rxfifo = [])
    (hf : formatOf s = some f) (hn : 8 ≤ f.n) (hq : s.seq = .rxl i) (hi : i < 9) (hl : s.lineChar = none)
    (hv : v.setWidth 8 ≠ 0x23#8) :
    Host.Core.run Sys2Proof.core (k + 3) s = Host.Core.run Sys2Proof.core k { s with
      agenda := more, rxfifo := [], dor := false, lineChar := none, seq := .rxl (i + 1),
      mem := memWrite s.mem (lineAddr s i) (v.setWidth 8) } := by
  refine (run_rxline_take hag hlb hr hfifo hf hn hq hi hl).trans
    (run_event rfl ((sequencerTurn_of_rxl ?_).trans (rxlStep_of_store ?_ hi rfl hv)))
  exacts [hq, hwf]

/-- Characters that do not end the line, one after the other. -/
theorem run_rxline_chars {i : Nat} {vs : List Char9} (hag : s.agenda = receiveTurns f vs ++ more)
    (hwf : s.params.wf = true) (hlb : s.params.loopback = false) (hr : s.rxen = true) (hfifo : s.rxfifo = [])
    (hf : formatOf s = some f) (hn : 8 ≤ f.n) (hq : s.seq = .rxl i) (hi : i + vs.length ≤ 9) (hl : s.lineChar = none)
    (hvs : ∀ v ∈ vs, v.setWidth 8 ≠ 0x23#8) :
    ∃ dor, Host.Core.run Sys2Proof.core (k + 3 * vs.length) s = Host.Core.run Sys2Proof.core k { s with
      agenda := more, rxfifo := [], dor := dor, lineChar := none, seq := .rxl (i + vs.length),
      mem := storeChars s.mem (lineAddr s i) vs } := by
  induction vs generalizing s i with
  | nil =>
    obtain rfl : s.agenda = more := hag
    refine ⟨s.dor, ?_⟩
    simp only [storeChars, List.length_nil, ← hfifo, ← hl, Nat.add_zero, ← hq]
    rfl
  | cons v vs ih =>
    rw [List.length_cons] at hi
    have hchar := run_rxline_char (k := k + 3 * vs.length) (more := receiveTurns f vs ++ more) hag hwf hlb hr hfifo hf hn hq
      (by omega) hl (hvs v List.mem_cons_self)
    obtain ⟨dor, hrest⟩ := ih (i := i + 1) (s := { s with
        agenda := receiveTurns f vs ++ more, rxfifo := [], dor := false, lineChar := none, seq := .rxl (i + 1),
        mem := memWrite s.mem (lineAddr s i) (v.setWidth 8) })
      rfl hwf hlb hr rfl hf rfl (by omega) rfl fun w hw => hvs w (List.mem_cons_of_mem v hw)
    refine ⟨dor, ?_⟩
    rw [List.length_cons, ← Nat.add_assoc i, Nat.add_right_comm i]
    exact hchar.trans hrest

/-- Settles O29: the characters, then the one that ends the line. -/
theorem rxlineReceivesLine : Obligations.RxlineReceivesLine := by
  unfold Obligations.RxlineReceivesLine
  intro s vs last f rest hwf hm hlb hr hfifo hq hl hf hn hlen hvs hlast hag
  have hag' : s.agenda = receiveTurns f vs ++ (offerOf f last :: .sequencer :: .sequencer :: rest) := by
    simpa [receiveTurns] using hag
  obtain ⟨dor, hchars⟩ := run_rxline_chars (k := 3) hag' hwf hlb hr hfifo hf hn hq (by omega) hl hvs
  have hend := (run_rxline_take (k := 1) (i := vs.length) (s := { s with
      agenda := offerOf f last :: .sequencer :: .sequencer :: rest, rxfifo := [], dor := dor, lineChar := none,
      seq := .rxl vs.length, mem := storeChars s.mem (lineAddr s 0) vs }) rfl hlb hr rfl hf hn rfl (by omega) rfl).trans
    (run_rxl_end (k := 0) rfl rfl (by omega) rfl hlast hwf)
  rw [Nat.zero_add] at hchars
  obtain ⟨hin, hterm, hout⟩ := memRead_line hwf hm (show vs.length ≤ 9 by omega)
  rw [Nat.add_comm]
  exact ⟨_, hchars.trans hend, rfl, rfl, rfl, rfl, rfl, hin, hterm, hout⟩

/-- Settles O30: nine characters, then the end by the cap. -/
theorem rxlineTruncatesAtNine : Obligations.RxlineTruncatesAtNine := by
  unfold Obligations.RxlineTruncatesAtNine
  intro s vs f rest hwf hm hlb hx hr hfifo hq hl hf hn hlen hvs hag
  obtain ⟨dor, hchars⟩ := run_rxline_chars (k := 1) hag hwf hlb hr hfifo hf hn hq (by omega) hl hvs
  rw [hlen] at hchars
  have hend := run_rxl_cap (k := 0) (s := { s with
      agenda := .sequencer :: rest, rxfifo := [], dor := dor, lineChar := none, seq := .rxl 9,
      mem := storeChars s.mem (lineAddr s 0) vs }) rfl rfl rfl hx hwf
  obtain ⟨hin, hterm, hout⟩ := memRead_line hwf hm hlen.le
  rw [hlen] at hin hterm hout
  exact ⟨_, hchars.trans hend, rfl, rfl, rfl, rfl, rfl, hin, hterm, hout⟩

end Sys2Proof.Machine
end

section
/-! PROOF. Runs: a stuck wait lasts, and in a fair run a wait that is not stuck ends (spec/40_sequencer.md R73 to R75). -/

namespace Sys2Proof.Machine

variable {s t : State} {ε : Nat → Event} {σ : Nat → State} {n m : Nat}

/-! ## Waits and the sequencer's turn -/

theorem sequencerTurn_of_txbWait {v : Word16} (hq : s.seq = .txbWait v) : sequencerTurn s = txbWaitStep v s := by
  simp only [sequencerTurn, hq, exec_txbyte_of_txbWait v hq]

theorem sequencerTurn_of_rxbWait (hq : s.seq = .rxbWait) : sequencerTurn s = rxbWaitStep s := by
  simp only [sequencerTurn, hq, exec_rxbyte_of_rxbWait hq]

/-- The sequencer's turn with an enabled step ends the wait. -/
theorem not_waits_of_sequencerTurn (hw : Waits s) (hen : SeqEnabled s) (h : sequencerTurn s = .next t) : ¬ Waits t := by
  unfold SeqEnabled at hen
  cases hq : s.seq with
  | txbWait v =>
    simp only [hq] at hen
    rw [sequencerTurn_of_txbWait hq, txbWaitStep_of_empty v hen] at h
    cases h
    simp [Waits, WaitsTx, WaitsRx]
  | txlWait a c =>
    simp only [hq] at hen
    rw [sequencerTurn_of_txlWait hq, txlWaitStep_of_empty hen rfl] at h
    cases h
    simp [Waits, WaitsTx, WaitsRx]
  | rxbWait =>
    simp only [hq] at hen
    obtain ⟨e, more, hr⟩ := List.exists_cons_of_ne_nil hen
    rw [sequencerTurn_of_rxbWait hq, rxbWaitStep_of_cons hr] at h
    cases h
    simp [Waits, WaitsTx, WaitsRx]
  | rxl i =>
    obtain ⟨hl, hi⟩ : s.lineChar = none ∧ (i < lineCap ∨ (i = lineCap ∧ s.params.capExtraRead = true)) := by
      simpa [Waits, WaitsTx, WaitsRx, hq] using hw
    have hcap : ¬ (i = lineCap ∧ s.params.capExtraRead = false) := by
      rintro ⟨rfl, hx⟩
      simp [hx] at hi
    simp only [hq, hl, ne_eq, not_true_eq_false, false_or] at hen
    obtain ⟨e, more, hr⟩ := List.exists_cons_of_ne_nil (hen.resolve_left hcap)
    rw [sequencerTurn_of_rxl hq, rxlStep_of_cons hl hcap hr] at h
    cases h
    simp [Waits, WaitsTx, WaitsRx, hq]
  | _ => simp [Waits, WaitsTx, WaitsRx, hq] at hw

/-- A wait for UDRE has its step exactly with TXBUF empty, one for RXC with a character in RXFIFO. -/
theorem seqEnabled_iff_of_waitsTx (hw : WaitsTx s) : SeqEnabled s ↔ s.txbuf = none := by
  refine ⟨fun h => not_not.mp fun hb => not_seqEnabled_of_waitsTx hw hb h, fun hb => ?_⟩
  unfold WaitsTx at hw
  unfold SeqEnabled
  cases hq : s.seq <;> simp_all

theorem seqEnabled_iff_of_waitsRx (hw : WaitsRx s) : SeqEnabled s ↔ s.rxfifo ≠ [] := by
  refine ⟨fun h hr => not_seqEnabled_of_waitsRx hw hr h, fun hr => ?_⟩
  unfold WaitsRx at hw
  unfold SeqEnabled
  cases hq : s.seq <;> simp_all

/-! ## Waits and the engines -/

theorem EngineMove.waitsTx_iff (h : EngineMove s t) : WaitsTx t ↔ WaitsTx s := by
  cases h <;> rfl

theorem EngineMove.waitsRx_iff (h : EngineMove s t) : WaitsRx t ↔ WaitsRx s := by
  cases h <;> rfl

/-- No engine empties RXFIFO. -/
theorem EngineMove.rxfifo_ne_nil (h : EngineMove s t) (hr : s.rxfifo ≠ []) : t.rxfifo ≠ [] := by
  cases h with
  | push => simp
  | _ => exact hr

/-- No engine takes the sequencer's step away. -/
theorem EngineMove.seqEnabled (h : EngineMove s t) (hen : SeqEnabled s) : SeqEnabled t := by
  have hfifo := h.rxfifo_ne_nil
  have hbuf := h.between_accesses.1
  unfold SeqEnabled at hen ⊢
  have hsame : t.program = s.program ∧ t.lineChar = s.lineChar ∧ t.params = s.params := by
    cases h <;> exact ⟨rfl, rfl, rfl⟩
  obtain ⟨hprog, hline, hpar⟩ := hsame
  rw [h.seq_eq, h.ci_eq, hprog, hline, hpar]
  cases hq : s.seq with
  | txbWait v => exact hbuf (by simpa [hq] using hen)
  | txlWait a c => exact hbuf (by simpa [hq] using hen)
  | rxbWait => exact hfifo (by simpa [hq] using hen)
  | rxl i =>
    simp only [hq] at hen
    exact hen.imp_right (Or.imp_right hfifo)
  | idle => simpa [hq] using hen
  | txlFetch a => trivial
  | faulted => simp [hq] at hen

/-- An event but reset and the sequencer's turn is an engine's. -/
theorem engineMove_of_ne {e : Event} (h : runEvent e s = .next t) (hseq : e ≠ .sequencer) (hr : e ≠ .reset) :
    EngineMove s t :=
  engineMove_of_runEvent (by cases e <;> simp_all) h

/-- Without an enabled step of the sequencer every event but reset is an engine's, or none. -/
theorem engineMove_of_not_seqEnabled {e : Event} (h : runEvent e s = .next t) (hen : ¬ SeqEnabled s) (hr : e ≠ .reset) :
    EngineMove s t := by
  by_cases he : e = .sequencer
  · subst he
    obtain rfl : s = t := by simpa [runEvent, sequencerTurn_of_not_enabled hen] using h
    exact .idle s
  · exact engineMove_of_ne h he hr

/-- RXFIFO grows by an offer only, with RXEN = 1. -/
theorem offer_of_rxfifo_ne {e : Event} (h : runEvent e s = .next t) (hen : ¬ SeqEnabled s) (hr : e ≠ .reset)
    (hne : t.rxfifo ≠ s.rxfifo) :
    (∃ free, e = .offer free) ∧ (s.params.loopback = true → s.txwire[s.lbptr]? ≠ none) ∧ s.rxen = true := by
  cases e with
  | sequencer =>
    obtain rfl : s = t := by simpa [runEvent, sequencerTurn_of_not_enabled hen] using h
    exact absurd rfl hne
  | txLoad =>
    rcases txLoad_next h with rfl | ⟨v, f, -, -, -, -, rfl⟩ <;> exact absurd rfl hne
  | txShift =>
    rcases txShift_next h with ⟨-, rfl⟩ | ⟨fr, -, rfl⟩ <;> exact absurd rfl hne
  | reset => exact absurd rfl hr
  | offer free =>
    have gain {src : Option Frame} {u : State} (hu : u.rxfifo = s.rxfifo) (hrx : u.rxen = s.rxen)
        (h : receive free src u = .next t) : s.rxen = true := by
      rcases receive_next h with ⟨-, rfl⟩ | ⟨-, hx, -⟩ | ⟨-, -, rfl⟩
      · exact absurd hu hne
      · exact hrx ▸ hx
      · exact absurd hu hne
    refine ⟨⟨free, rfl⟩, ?_⟩
    rcases offerFrame_next h with ⟨-, -, rfl⟩ | ⟨fr, -, hw, h⟩ | ⟨hl, h⟩
    · exact absurd rfl hne
    · exact ⟨fun _ => by simp [hw], gain (u := { s with lbptr := s.lbptr + 1 }) rfl rfl h⟩
    · exact ⟨fun hl' => by simp [hl] at hl', gain rfl rfl h⟩

/-! ## What lasts along a run -/

/-- A property that leaves the sequencer no step and that every engine keeps lasts, with SEQ and CI as they are. -/
theorem lasts_of_engineMove {P : State → Prop} (hrun : IsRun ε σ) (hreset : NoReset ε n) (h : P (σ n))
    (hdis : ∀ s, P s → ¬ SeqEnabled s)
    (hkeep : ∀ j, n ≤ j → P (σ j) → EngineMove (σ j) (σ (j + 1)) → P (σ (j + 1))) (hm : n ≤ m) :
    P (σ m) ∧ (σ m).seq = (σ n).seq ∧ (σ m).ci = (σ n).ci := by
  induction m, hm using Nat.le_induction with
  | base => exact ⟨h, rfl, rfl⟩
  | succ j hj ih =>
    obtain ⟨hP, hseq, hci⟩ := ih
    have hmove := engineMove_of_not_seqEnabled (hrun j) (hdis _ hP) (hreset j hj)
    exact ⟨hkeep j hj hP hmove, hmove.seq_eq.trans hseq, hmove.ci_eq.trans hci⟩

theorem NoReset.mono (h : NoReset ε n) (hm : n ≤ m) : NoReset ε m := fun j hj => h j (hm.trans hj)

/-! ## Stuck waits -/

/-- The first of R74's ways of being stuck. -/
def StuckTx (s : State) : Prop := WaitsTx s ∧ s.txbuf ≠ none ∧ s.txen = false

theorem Stuck.not_seqEnabled (h : Stuck s) : ¬ SeqEnabled s := by
  rcases h with ⟨hw, hb, -⟩ | ⟨hw, hr, -⟩
  · exact not_seqEnabled_of_waitsTx hw hb
  · exact not_seqEnabled_of_waitsRx hw hr

/-- A wait is not at the end of a run: that is at IDLE. -/
theorem not_final_of_waits (h : Waits s) : ¬ Final s := by
  rintro ⟨hq, -⟩
  simp [Waits, WaitsTx, WaitsRx, hq] at h

theorem Stuck.waits (h : Stuck s) : Waits s := h.imp And.left And.left

theorem EngineMove.stuckTx (h : EngineMove s t) (hs : StuckTx s) : StuckTx t := by
  obtain ⟨hw, hb, hx⟩ := hs
  refine ⟨h.waitsTx_iff.mpr hw, ?_⟩
  cases h with
  | load hx' => simp [hx] at hx'
  | _ => exact ⟨hb, hx⟩

/-- With RXEN = 0 no engine ends the wait. -/
theorem EngineMove.rxOff (h : EngineMove s t) (hs : s.rxfifo = [] ∧ s.rxen = false) : t.rxfifo = [] ∧ t.rxen = false := by
  cases h with
  | push _ hr => simp [hs.2] at hr
  | _ => exact hs

/-- With the loopback used up no engine ends the wait: there is no frame to replay and none can reach TXWIRE. -/
theorem EngineMove.loopbackEmpty (h : EngineMove s t) (hs : s.rxfifo = [] ∧ LoopbackEmpty s) :
    t.rxfifo = [] ∧ LoopbackEmpty t := by
  obtain ⟨hfifo, hl, hw, ht, hb⟩ := hs
  have no_offer {k : Nat} (hk : OfferAt s k) : False := by
    rcases hk with ⟨hl', -⟩ | ⟨-, rfl, hlt⟩
    · simp [hl] at hl'
    · rw [List.getElem?_eq_none_iff] at hw
      omega
  cases h with
  | load hx hb' =>
    rcases hb with hb | hb
    · simp [hb] at hb'
    · simp [hb] at hx
  | shift ht' => simp [ht] at ht'
  | lost hk | push hk | overrun hk => exact (no_offer hk).elim
  | idle => exact ⟨hfifo, hl, hw, ht, hb⟩

theorem EngineMove.stuck (h : EngineMove s t) (hs : Stuck s) : Stuck t := by
  rcases hs with hs | ⟨hw, hr, hx | hl⟩
  · exact Or.inl (h.stuckTx hs)
  · exact Or.inr ⟨h.waitsRx_iff.mpr hw, (h.rxOff ⟨hr, hx⟩).1, Or.inl (h.rxOff ⟨hr, hx⟩).2⟩
  · exact Or.inr ⟨h.waitsRx_iff.mpr hw, (h.loopbackEmpty ⟨hr, hl⟩).1, Or.inr (h.loopbackEmpty ⟨hr, hl⟩).2⟩

theorem stuck_afterEvent (s : State) : Stuck (afterEvent s) ↔ Stuck s := by
  rw [afterEvent_eq]
  rfl

/-- The first clause of R74 in a run: nothing reaches RXFIFO where no frame is offered. -/
theorem rxfifo_eq_nil_of_no_offer {e : Event} (h : runEvent e s = .next t) (hw : WaitsRx s) (hr : s.rxfifo = [])
    (hreset : e ≠ .reset)
    (hno : ¬ ((∃ free, e = .offer free) ∧ (s.params.loopback = true → s.txwire[s.lbptr]? ≠ none) ∧ s.rxen = true)) :
    WaitsRx t ∧ t.rxfifo = [] := by
  have hdis := not_seqEnabled_of_waitsRx hw hr
  refine ⟨(engineMove_of_not_seqEnabled h hdis hreset).waitsRx_iff.mpr hw, ?_⟩
  by_contra hne
  exact hno (offer_of_rxfifo_ne h hdis hreset (hr ▸ hne))

/-- Stuck by itself is stuck in every run without reset: in loopback no frame is offered from then on. -/
theorem stuckIn_of_stuck (hrun : IsRun ε σ) (hreset : NoReset ε n) (h : Stuck (σ n)) : StuckIn ε σ n := by
  rcases h with h | ⟨hw, hr, hx | hl⟩
  · exact Or.inl h
  · exact Or.inr ⟨hw, hr, Or.inl hx⟩
  · refine Or.inr ⟨hw, hr, Or.inr fun m hm hoff => ?_⟩
    obtain ⟨⟨-, -, hlb, husedUp, -⟩, -⟩ := lasts_of_engineMove (P := fun s => WaitsRx s ∧ s.rxfifo = [] ∧ LoopbackEmpty s) hrun
      hreset ⟨hw, hr, hl⟩ (fun s hs => not_seqEnabled_of_waitsRx hs.1 hs.2.1)
      (fun j _ hs hmove => ⟨hmove.waitsRx_iff.mpr hs.1, hmove.loopbackEmpty hs.2⟩) hm
    exact hoff.2 hlb husedUp

/-- A stuck sequencer stays so, with SEQ and CI as they are. -/
theorem StuckIn.lasts (hrun : IsRun ε σ) (hreset : NoReset ε n) (h : StuckIn ε σ n) (hm : n ≤ m) :
    StuckIn ε σ m ∧ (σ m).seq = (σ n).seq ∧ (σ m).ci = (σ n).ci := by
  rcases h with h | ⟨hw, hr, hx | hno⟩
  · obtain ⟨hs, hsame⟩ := lasts_of_engineMove (P := StuckTx) hrun hreset h (fun s hs => not_seqEnabled_of_waitsTx hs.1 hs.2.1)
      (fun j _ hs hmove => hmove.stuckTx hs) hm
    exact ⟨Or.inl hs, hsame⟩
  · obtain ⟨⟨hw', hr', hx'⟩, hsame⟩ := lasts_of_engineMove (P := fun s => WaitsRx s ∧ s.rxfifo = [] ∧ s.rxen = false) hrun hreset
      ⟨hw, hr, hx⟩ (fun s hs => not_seqEnabled_of_waitsRx hs.1 hs.2.1)
      (fun j _ hs hmove => ⟨hmove.waitsRx_iff.mpr hs.1, hmove.rxOff hs.2⟩) hm
    exact ⟨Or.inr ⟨hw', hr', Or.inl hx'⟩, hsame⟩
  · obtain ⟨⟨hw', hr'⟩, hsame⟩ := lasts_of_engineMove (P := fun s => WaitsRx s ∧ s.rxfifo = []) hrun hreset ⟨hw, hr⟩
      (fun s hs => not_seqEnabled_of_waitsRx hs.1 hs.2)
      (fun j hj hs _ => rxfifo_eq_nil_of_no_offer (hrun j) hs.1 hs.2 (hreset j hj)
        fun ⟨hfree, hlb, _⟩ => hno j hj ⟨hfree, hlb⟩) hm
    exact ⟨Or.inr ⟨hw', hr', Or.inr fun j hj => hno j (hm.trans hj)⟩, hsame⟩

theorem StuckIn.waits (h : StuckIn ε σ n) : Waits (σ n) := h.imp And.left And.left

/-! ## Fair runs -/

/-- In a fair run an enabled sequencer takes its turn, and until then only the engines do. -/
theorem sequencer_turn_comes (hfair : FairRun ε σ) (hreset : NoReset ε n) (hen : SeqEnabled (σ n)) :
    ∃ m, n ≤ m ∧ ε m = .sequencer ∧ ∀ j, n ≤ j → j < m → ε j ≠ .sequencer := by
  obtain ⟨hrun, -, -, hseq⟩ := hfair
  have hex : ∃ m, n ≤ m ∧ ε m = .sequencer := by
    by_contra hno
    have hall : ∀ m, n ≤ m → SeqEnabled (σ m) := fun m hm => by
      induction m, hm using Nat.le_induction with
      | base => exact hen
      | succ j hj ih => exact (engineMove_of_ne (hrun j) (fun he => hno ⟨j, hj, he⟩) (hreset j hj)).seqEnabled ih
    exact hno (hseq n hall)
  obtain ⟨hm, he⟩ := Nat.find_spec hex
  exact ⟨Nat.find hex, hm, he, fun j hj hlt hej => Nat.find_min hex hlt ⟨hj, hej⟩⟩

/-- What every engine keeps lasts as long as only the engines step. -/
theorem lasts_until_turn {P : State → Prop} (hrun : IsRun ε σ) (hreset : NoReset ε n) (h : P (σ n))
    (hkeep : ∀ {s t}, EngineMove s t → P s → P t) (hm : n ≤ m) (hno : ∀ j, n ≤ j → j < m → ε j ≠ .sequencer) : P (σ m) := by
  induction m, hm using Nat.le_induction with
  | base => exact h
  | succ j hj ih =>
    exact hkeep (engineMove_of_ne (hrun j) (hno j hj (Nat.lt_succ_self j)) (hreset j hj))
      (ih fun i hi hlt => hno i hi (hlt.trans (Nat.lt_succ_self j)))

/-- In a fair run a wait whose condition holds ends, by the sequencer's step. -/
theorem enabled_wait_ends (hfair : FairRun ε σ) (hreset : NoReset ε n) (hw : Waits (σ n)) (hen : SeqEnabled (σ n)) :
    ∃ m, n ≤ m ∧ ((σ m).seq = (σ n).seq ∧ (σ m).ci = (σ n).ci ∧ SeqEnabled (σ m)) ∧ ε m = .sequencer ∧
      ¬ Waits (σ (m + 1)) := by
  obtain ⟨m, hm, he, hno⟩ := sequencer_turn_comes hfair hreset hen
  obtain ⟨hwm, hkept⟩ := lasts_until_turn
    (P := fun s => Waits s ∧ s.seq = (σ n).seq ∧ s.ci = (σ n).ci ∧ SeqEnabled s) hfair.1 hreset ⟨hw, rfl, rfl, hen⟩
    (fun hmove hs => ⟨hs.1.imp hmove.waitsTx_iff.mpr hmove.waitsRx_iff.mpr, hmove.seq_eq.trans hs.2.1,
      hmove.ci_eq.trans hs.2.2.1, hmove.seqEnabled hs.2.2.2⟩) hm hno
  refine ⟨m, hm, hkept, he, not_waits_of_sequencerTurn hwm hkept.2.2 ?_⟩
  have hturn := hfair.1 m
  rwa [he] at hturn

/-- LOAD, enabled, empties TXBUF. -/
theorem txbuf_of_txLoad (hen : LoadEnabled s) (h : txLoad s = .next t) : t.txbuf = none := by
  obtain ⟨hx, hb, ht⟩ := hen
  obtain ⟨v, hv⟩ := Option.ne_none_iff_exists'.mp hb
  simp only [txLoad, hx, hv, ht] at h
  split at h
  · cases h
    rfl
  · cases h

/-- A wait for UDRE with TXEN = 1, with the sequencer where it was at the n-th state. -/
def AwaitsTxAt (q : Seq) (c : Nat) (s : State) : Prop := WaitsTx s ∧ s.txen = true ∧ s.seq = q ∧ s.ci = c

theorem EngineMove.awaitsTxAt {q : Seq} {c : Nat} (h : EngineMove s t) (hs : AwaitsTxAt q c s) : AwaitsTxAt q c t := by
  obtain ⟨hw, hx, hq, hc⟩ := hs
  refine ⟨h.waitsTx_iff.mpr hw, ?_, h.seq_eq.trans hq, h.ci_eq.trans hc⟩
  cases h <;> exact hx

/-- In a fair run with TXEN = 1 a wait for UDRE has its condition met: a full TSR is shifted out, and then TXBUF loaded. -/
theorem txbuf_empties (hfair : FairRun ε σ) (hreset : NoReset ε n) (hw : WaitsTx (σ n)) (hx : (σ n).txen = true) :
    ∃ m, n ≤ m ∧ AwaitsTxAt (σ n).seq (σ n).ci (σ m) ∧ (σ m).txbuf = none := by
  obtain ⟨hrun, hload, hshift, -⟩ := hfair
  by_contra hno
  have hkept : ∀ m, n ≤ m → AwaitsTxAt (σ n).seq (σ n).ci (σ m) ∧ (σ m).txbuf ≠ none := fun m hm => by
    have hfull (hs : AwaitsTxAt (σ n).seq (σ n).ci (σ m)) : (σ m).txbuf ≠ none := fun hb => hno ⟨m, hm, hs, hb⟩
    suffices hs : AwaitsTxAt (σ n).seq (σ n).ci (σ m) from ⟨hs, hfull hs⟩
    clear hfull
    induction m, hm using Nat.le_induction with
    | base => exact ⟨hw, hx, rfl, rfl⟩
    | succ j hj ih =>
      have hdis := not_seqEnabled_of_waitsTx ih.1 fun hb => hno ⟨j, hj, ih, hb⟩
      exact (engineMove_of_not_seqEnabled (hrun j) hdis (hreset j hj)).awaitsTxAt ih
  obtain ⟨m₁, hm₁, hempty⟩ : ∃ m, n ≤ m ∧ (σ m).tsr = none := by
    by_contra hfull
    obtain ⟨m, hm, he⟩ := hshift n fun m hm ht => hfull ⟨m, hm, ht⟩
    have hturn := hrun m
    rw [he] at hturn
    rcases txShift_next hturn with ⟨ht, -⟩ | ⟨fr, -, hnext⟩
    · exact hfull ⟨m, hm, ht⟩
    · exact hfull ⟨m + 1, hm.trans (Nat.le_succ m), by rw [hnext]⟩
  have hstays : ∀ m, m₁ ≤ m → (σ m).tsr = none := fun m hm => by
    induction m, hm using Nat.le_induction with
    | base => exact hempty
    | succ j hj ih =>
      have hjn := hm₁.trans hj
      obtain ⟨⟨hwj, -⟩, hbj⟩ := hkept j hjn
      have hmove := engineMove_of_not_seqEnabled (hrun j) (not_seqEnabled_of_waitsTx hwj hbj) (hreset j hjn)
      have hnext := (hkept (j + 1) (hjn.trans (Nat.le_succ j))).2
      generalize σ (j + 1) = u at hmove hnext
      cases hmove with
      | load => exact absurd rfl hnext
      | shift => rfl
      | _ => exact ih
  have hen : ∀ m, m₁ ≤ m → LoadEnabled (σ m) := fun m hm =>
    ⟨(hkept m (hm₁.trans hm)).1.2.1, (hkept m (hm₁.trans hm)).2, hstays m hm⟩
  obtain ⟨m, hm, he⟩ := hload m₁ hen
  have hturn := hrun m
  rw [he] at hturn
  exact (hkept (m + 1) (hm₁.trans (hm.trans (Nat.le_succ m)))).2 (txbuf_of_txLoad (hen m hm) hturn)

/-- In a fair run with TXEN = 1 a wait for UDRE ends, by the sequencer's step with TXBUF empty. -/
theorem tx_wait_ends (hfair : FairRun ε σ) (hreset : NoReset ε n) (hw : WaitsTx (σ n)) (hx : (σ n).txen = true) :
    ∃ m, n ≤ m ∧ (σ m).seq = (σ n).seq ∧ (σ m).ci = (σ n).ci ∧ (σ m).txbuf = none ∧ ε m = .sequencer ∧
      ¬ Waits (σ (m + 1)) := by
  obtain ⟨k, hk, ⟨hwk, -, hqk, hck⟩, hbk⟩ := txbuf_empties hfair hreset hw hx
  obtain ⟨m, hm, ⟨hq, hc, hen⟩, he, hend⟩ := enabled_wait_ends hfair (hreset.mono hk) (Or.inl hwk)
    ((seqEnabled_iff_of_waitsTx hwk).mpr hbk)
  have hwm : WaitsTx (σ m) := by
    unfold WaitsTx at hwk ⊢
    rwa [hq]
  exact ⟨m, hk.trans hm, hq.trans hqk, hc.trans hck, (seqEnabled_iff_of_waitsTx hwm).mp hen, he, hend⟩

theorem EngineMove.rxen_eq (h : EngineMove s t) : t.rxen = s.rxen := by
  cases h <;> rfl

/-- A frame offered with RXEN = 1 and RXFIFO empty is received. -/
theorem rxfifo_of_offerFrame {free : BitVec 11} (h : offerFrame free s = .next t)
    (hlb : s.params.loopback = true → s.txwire[s.lbptr]? ≠ none) (hx : s.rxen = true) (hr : s.rxfifo = []) :
    t.rxfifo ≠ [] := by
  have gain {src : Option Frame} {u : State} (hu : u.rxfifo = []) (hux : u.rxen = true) (h : receive free src u = .next t) :
      t.rxfifo ≠ [] := by
    rcases receive_next h with ⟨hoff, -⟩ | ⟨-, -, -, -, rfl⟩ | ⟨-, hfull, -⟩
    · simp [hux] at hoff
    · simp
    · simp [hu, rxFifoDepth] at hfull
  rcases offerFrame_next h with ⟨hl, hw, -⟩ | ⟨fr, -, -, h⟩ | ⟨-, h⟩
  · exact absurd hw (hlb hl)
  · exact gain (u := { s with lbptr := s.lbptr + 1 }) hr hx h
  · exact gain hr hx h

/-- A wait that never ends is stuck: its condition never holds, and nothing is left that could make it hold. -/
theorem stuckIn_of_always_waits (hfair : FairRun ε σ) (hreset : NoReset ε n) (hall : ∀ m, n ≤ m → Waits (σ m)) :
    StuckIn ε σ n := by
  have hdis : ∀ m, n ≤ m → ¬ SeqEnabled (σ m) := fun m hm hen => by
    obtain ⟨k, hk, -, -, hend⟩ := enabled_wait_ends hfair (hreset.mono hm) (hall m hm) hen
    exact hend (hall (k + 1) (hm.trans (hk.trans (Nat.le_succ k))))
  rcases hall n le_rfl with hw | hw
  · refine Or.inl ⟨hw, mt (seqEnabled_iff_of_waitsTx hw).mpr (hdis n le_rfl), ?_⟩
    by_contra hx
    obtain ⟨k, hk, -, -, -, -, hend⟩ := tx_wait_ends hfair hreset hw (by simpa using hx)
    exact hend (hall (k + 1) (hk.trans (Nat.le_succ k)))
  · have hempty : ∀ m, n ≤ m → WaitsRx (σ m) → (σ m).rxfifo = [] := fun m hm hwm =>
      not_not.mp (mt (seqEnabled_iff_of_waitsRx hwm).mpr (hdis m hm))
    refine Or.inr ⟨hw, hempty n le_rfl hw, ?_⟩
    rw [or_iff_not_imp_left, Bool.not_eq_false]
    rintro hx m hm ⟨⟨free, he⟩, hlb⟩
    have hkept {m : Nat} (hm : n ≤ m) : WaitsRx (σ m) ∧ (σ m).rxfifo = [] ∧ (σ m).rxen = true :=
      (lasts_of_engineMove (P := fun s => WaitsRx s ∧ s.rxfifo = [] ∧ s.rxen = true) hfair.1 hreset
        ⟨hw, hempty n le_rfl hw, hx⟩ (fun s hs => not_seqEnabled_of_waitsRx hs.1 hs.2.1)
        (fun j hj hs hmove =>
          have hwj := hmove.waitsRx_iff.mpr hs.1
          ⟨hwj, hempty (j + 1) (hj.trans (Nat.le_succ j)) hwj, hmove.rxen_eq.trans hs.2.2⟩) hm).1
    have hturn := hfair.1 m
    rw [he] at hturn
    exact rxfifo_of_offerFrame hturn hlb (hkept hm).2.2 (hkept hm).2.1 (hkept (hm.trans (Nat.le_succ m))).2.1

/-- Settles O57: the state's part, the run's part, and the fair runs. -/
theorem stuckUntilReset : Obligations.StuckUntilReset := by
  unfold Obligations.StuckUntilReset
  refine ⟨fun s hs => ⟨not_final_of_waits hs.waits, fun t h hr => ?_⟩, fun ε σ n hrun hreset =>
    ⟨stuckIn_of_stuck hrun hreset, fun hs m hm => ?_⟩, fun ε σ n hfair hreset _ =>
    ⟨fun hs m hm => (hs.lasts hfair.1 hreset hm).1.waits, stuckIn_of_always_waits hfair hreset⟩⟩
  · have hs' := (stuck_afterEvent s).mpr hs
    have hmove := engineMove_of_not_seqEnabled h hs'.not_seqEnabled hr
    exact ⟨hmove.stuck hs', hmove.seq_eq.trans (afterEvent_seq s), hmove.ci_eq.trans (afterEvent_ci s)⟩
  · obtain ⟨hstuck, hsame⟩ := hs.lasts hrun hreset hm
    exact ⟨hstuck, not_final_of_waits hstuck.waits, hsame⟩

/-! ## The wait for UDRE in three turns -/

variable {k : Nat} {more : List Event}

/-- A run that begins with SHIFT: TSR is empty after it. -/
theorem run_shift_empties (hag : s.agenda = .txShift :: more) : ∃ wire c, Host.Core.run Sys2Proof.core (k + 1) s =
    Host.Core.run Sys2Proof.core k { s with agenda := more, txwire := wire, tsr := none, txc := c } := by
  cases ht : s.tsr with
  | none =>
    refine ⟨s.txwire, s.txc, (run_event hag (txShift_of_none (s := { s with agenda := more }) ht)).trans ?_⟩
    rw [← ht]
  | some fr => exact ⟨_, _, run_shift hag ht⟩

/-- A run that begins with LOAD, TXEN = 1 and TSR empty: TXBUF is empty after it. -/
theorem run_load_empties (hag : s.agenda = .txLoad :: more) (hx : s.txen = true) (ht : s.tsr = none)
    (hf : formatOf s ≠ none) : ∃ tsr, Host.Core.run Sys2Proof.core (k + 1) s =
      Host.Core.run Sys2Proof.core k { s with agenda := more, tsr := tsr, txbuf := none } := by
  obtain ⟨f, hf⟩ := Option.ne_none_iff_exists'.mp hf
  cases hb : s.txbuf with
  | none =>
    refine ⟨s.tsr, (run_event hag (txLoad_of_not_loadEnabled (s := { s with agenda := more }) fun h => h.2.1 hb)).trans ?_⟩
    rw [← hb]
  | some v => exact ⟨_, run_load hag hx hb ht hf⟩

/-- The sequencer's turn in a wait for UDRE with TXBUF empty: the waiting character is in TXBUF and the command has moved on. -/
theorem sequencerTurn_sends (hw : WaitsTx s) (hb : s.txbuf = none) : ∃ t, sequencerTurn s = .next t ∧
    t.agenda = s.agenda ∧ t.txbuf ≠ none ∧
    ((∃ v, s.seq = .txbWait v ∧ t.seq = .idle ∧ t.ci = s.ci + 1) ∨
     (∃ a c, s.seq = .txlWait a c ∧ t.seq = .txlFetch (a + 1) ∧ t.ci = s.ci)) := by
  cases hq : s.seq with
  | txbWait v =>
    refine ⟨_, (sequencerTurn_of_txbWait hq).trans (txbWaitStep_of_empty v hb), ?_, ?_, Or.inl ⟨v, rfl, rfl, ?_⟩⟩ <;>
      simp [sendChar_eq]
  | txlWait a c =>
    exact ⟨_, (sequencerTurn_of_txlWait hq).trans (txlWaitStep_of_empty hb rfl), rfl, by simp, Or.inr ⟨a, c, rfl, rfl, rfl⟩⟩
  | _ => simp [WaitsTx, hq] at hw

/-- A wait for RXC with RXFIFO empty lasts until a frame is offered with RXEN = 1. -/
theorem rx_wait_needs_offer (hrun : IsRun ε σ) (hreset : NoReset ε n) (hw : WaitsRx (σ n)) (hr : (σ n).rxfifo = [])
    (hm : n ≤ m) (hend : ¬ WaitsRx (σ m)) : ∃ k, n ≤ k ∧ k < m ∧ Offers ε σ k ∧ (σ k).rxen = true := by
  by_contra hno
  suffices hkept : WaitsRx (σ m) ∧ (σ m).rxfifo = [] from hend hkept.1
  clear hend
  induction m, hm using Nat.le_induction with
  | base => exact ⟨hw, hr⟩
  | succ j hj ih =>
    obtain ⟨hwj, hrj⟩ := ih fun ⟨k, hk, hlt, hoff⟩ => hno ⟨k, hk, hlt.trans (Nat.lt_succ_self j), hoff⟩
    exact rxfifo_eq_nil_of_no_offer (hrun j) hwj hrj (hreset j hj) fun ⟨hfree, hlb, hx⟩ =>
      hno ⟨j, hj, Nat.lt_succ_self j, ⟨hfree, hlb⟩, hx⟩

/-- Settles O58: the three turns, the fair run, and the wait for RXC. -/
theorem transmitWaitEnds : Obligations.TransmitWaitEnds := by
  unfold Obligations.TransmitWaitEnds
  refine ⟨fun s rest hw hx hf hag => ?_, fun ε σ n hfair hreset hw hx => ?_,
    fun ε σ n m hrun hreset hw hr hm hend => rx_wait_needs_offer hrun hreset hw hr hm hend⟩
  · obtain ⟨wire, c, hshift⟩ := run_shift_empties (k := 2) hag
    obtain ⟨tsr, hload⟩ := run_load_empties (k := 1) (s := { s with
      agenda := .txLoad :: .sequencer :: rest, txwire := wire, tsr := none, txc := c }) rfl hx rfl hf
    obtain ⟨t, hturn, hag', hb, hmoved⟩ := sequencerTurn_sends (s := { s with
      agenda := rest, txwire := wire, tsr := tsr, txc := c, txbuf := none }) hw rfl
    exact ⟨t, (hshift.trans hload).trans (run_event (k := 0) rfl hturn), hag', hb, hmoved⟩
  · obtain ⟨m, hm, hq, hc, hb, he, hend⟩ := tx_wait_ends hfair hreset hw hx
    exact ⟨m, hm, hq, hc, hb, he, fun h => hend (Or.inl h)⟩

end Sys2Proof.Machine
end

section
/-! PROOF. No step's result depends on a draw: every event gives, from a state and from the state without its draws, next states
that differ in their draws at most (spec/10_state.md section 4; spec/43_frame_codec.md R98; logs 6 and 18). -/

namespace Sys2Proof.Machine

variable {s t : State}

/-! ## States without their draws -/

@[simp] theorem withoutDraw_withoutDraw (fr : Frame) : withoutDraw (withoutDraw fr) = withoutDraw fr := by
  cases h : fr.corrupt <;> simp [withoutDraw, h]

@[simp] theorem withoutDraw_length (fr : Frame) : (withoutDraw fr).bits.length = fr.bits.length := by
  cases h : fr.corrupt <;> simp [withoutDraw, h]

/-- Of the bits drawn for a corrupt frame their number is left. -/
theorem withoutDraw_drawBits (n len : Nat) :
    withoutDraw { bits := drawBits n len, corrupt := true } = { bits := List.replicate len false, corrupt := true } := by
  simp [withoutDraw, drawBits]

theorem forgetDraws_forgetDraws (s : State) : forgetDraws (forgetDraws s) = forgetDraws s := by
  have hframe : withoutDraw ∘ withoutDraw = withoutDraw := funext withoutDraw_withoutDraw
  simp [forgetDraws, hframe]

/-- Forgetting the draws once more changes no outcome. -/
theorem mapNext_forgetDraws_twice (o : Out) : mapNext forgetDraws (mapNext forgetDraws o) = mapNext forgetDraws o := by
  cases o <;> simp [mapNext, forgetDraws_forgetDraws]

/-- A meaning that takes its step alike without the draws, up to the draws of its result. -/
def IgnoresDraws (g : State → Out) : Prop :=
  ∀ s, mapNext forgetDraws (g (forgetDraws s)) = mapNext forgetDraws (g s)

/-- A meaning that takes no draw ignores them. -/
theorem IgnoresDraws.of_commutes {g : State → Out} (h : ∀ s, g (forgetDraws s) = mapNext forgetDraws (g s)) :
    IgnoresDraws g := fun s => by rw [h, mapNext_forgetDraws_twice]

/-- From states that differ in their draws only, results that do. -/
theorem IgnoresDraws.congr {g : State → Out} (hg : IgnoresDraws g) (h : forgetDraws s = forgetDraws t) :
    mapNext forgetDraws (g s) = mapNext forgetDraws (g t) := by
  rw [← hg s, h, hg t]

/-! ## The configuration commands -/

/-- The only access with a draw is BAUDL's, of the bits of the frame it makes corrupt (R98). -/
theorem access_forgetDraws (a : Access) (s : State) : forgetDraws (access a (forgetDraws s)) = forgetDraws (access a s) := by
  have commutes (h : access a (forgetDraws s) = forgetDraws (access a s)) :
      forgetDraws (access a (forgetDraws s)) = forgetDraws (access a s) := by rw [h, forgetDraws_forgetDraws]
  cases a with
  | rxen b =>
    apply commutes
    cases hr : s.rxen <;> simp [access, setRxen, forgetDraws, hr]
  | baudl v =>
    cases ht : s.tsr <;> simp [access, writeBaudl_eq, forgetDraws, withoutDraw_drawBits, ht]
  | _ => exact commutes rfl

/-- A step of accesses whose end reads and writes no draw. -/
theorem accessStep_ignoresDraws {fin : State → State} (hfin : ∀ s, fin (forgetDraws s) = forgetDraws (fin s)) :
    IgnoresDraws (accessStep fin) := by
  intro s
  have hacc (a : Access) (rest : List Access) : forgetDraws (access a { forgetDraws s with pending := rest }) =
      forgetDraws (access a { s with pending := rest }) := access_forgetDraws a { s with pending := rest }
  cases hp : s.pending with
  | nil =>
    have hp' : (forgetDraws s).pending = [] := hp
    simp only [accessStep, hp, hp', hold, mapNext, forgetDraws_forgetDraws]
  | cons a rest =>
    have hp' : (forgetDraws s).pending = a :: rest := hp
    cases rest with
    | nil => rw [accessStep_last hp, accessStep_last hp', mapNext, mapNext, ← hfin, ← hfin, hacc]
    | cons b rest => rw [accessStep_more hp, accessStep_more hp', mapNext, mapNext, hacc]

/-- A command of checks and accesses. -/
theorem commandStep_ignoresDraws {cause : State → Option Cause} {latch fin : State → State} {as : State → List Access}
    (hcause : ∀ s, cause (forgetDraws s) = cause s) (has : ∀ s, as (forgetDraws s) = as s)
    (hlatch : ∀ s, latch (forgetDraws s) = forgetDraws (latch s)) (hfin : ∀ s, fin (forgetDraws s) = forgetDraws (fin s)) :
    IgnoresDraws fun s => commandStep (cause s) latch (as s) fin s := by
  intro s
  simp only [hcause, has]
  have hstep := accessStep_ignoresDraws hfin
  by_cases hq : s.seq = .idle
  · have hq' : (forgetDraws s).seq = .idle := hq
    by_cases hp : s.pending = []
    · have hp' : (forgetDraws s).pending = [] := hp
      cases hc : cause s with
      | some c =>
        rw [commandStep_fault hq hp, commandStep_fault hq' hp']
        exact congrArg Host.Outcome.next (forgetDraws_forgetDraws (raise c s))
      | none =>
        rw [commandStep_first hq hp, commandStep_first hq' hp', hlatch]
        exact hstep { latch s with pending := as s }
    · have hp' : (forgetDraws s).pending ≠ [] := hp
      rw [commandStep_left hq hp, commandStep_left hq' hp']
      exact hstep s
  · have hq' : (forgetDraws s).seq ≠ .idle := hq
    rw [commandStep_hold hq, commandStep_hold hq']
    exact congrArg Host.Outcome.next (forgetDraws_forgetDraws s)

/-! ## The character and line commands -/

theorem sendChar_forgetDraws (v : Word16) (s : State) : sendChar v (forgetDraws s) = forgetDraws (sendChar v s) := by
  simp only [sendChar_eq]
  rfl

theorem txbWaitStep_forgetDraws (v : Word16) (s : State) :
    txbWaitStep v (forgetDraws s) = mapNext forgetDraws (txbWaitStep v s) := by
  by_cases hb : s.txbuf = none
  · rw [txbWaitStep_of_empty v hb, txbWaitStep_of_empty (s := forgetDraws s) v hb, sendChar_forgetDraws]
    rfl
  · rw [txbWaitStep_of_full v hb, txbWaitStep_of_full (s := forgetDraws s) v hb]
    rfl

theorem txlFetchStep_forgetDraws (a : Nat) (s : State) :
    txlFetchStep a (forgetDraws s) = mapNext forgetDraws (txlFetchStep a s) := by
  have hmem : (forgetDraws s).mem = s.mem := rfl
  simp only [txlFetchStep, hmem]
  split_ifs <;> rfl

theorem txlWaitStep_forgetDraws (a : Nat) (c : Byte) (s : State) :
    txlWaitStep a c (forgetDraws s) = mapNext forgetDraws (txlWaitStep a c s) := by
  by_cases hb : s.txbuf = none
  · rw [txlWaitStep_of_empty hb rfl, txlWaitStep_of_empty (s := forgetDraws s) hb rfl]
    rfl
  · rw [txlWaitStep_of_full a c hb, txlWaitStep_of_full (s := forgetDraws s) a c hb]
    rfl

/-- RXBYTE reads RXFIFO with a character in it only, so it takes no draw (log 6). -/
theorem rxbWaitStep_forgetDraws (s : State) : rxbWaitStep (forgetDraws s) = mapNext forgetDraws (rxbWaitStep s) := by
  cases hr : s.rxfifo with
  | nil =>
    rw [rxbWaitStep_of_nil hr, rxbWaitStep_of_nil (s := forgetDraws s) hr]
    rfl
  | cons e more =>
    rw [rxbWaitStep_of_cons hr, rxbWaitStep_of_cons (s := forgetDraws s) hr]
    rfl

/-- A line-buffer write whose continuation reads and writes no draw. -/
theorem storeLine_forgetDraws {k : State → State} (hk : ∀ s, k (forgetDraws s) = forgetDraws (k s)) (j : Nat) (v : Byte)
    (s : State) : storeLine j v (forgetDraws s) k = mapNext forgetDraws (storeLine j v s k) := by
  by_cases h : lineAddr s j < hostBytes
  · rw [storeLine_eq h, storeLine_eq (s := forgetDraws s) h, mapNext, ← hk]
    rfl
  · have h' : ¬ lineAddr (forgetDraws s) j < hostBytes := h
    rw [storeLine, storeLine, if_neg h, if_neg h']
    rfl

theorem finishLine_forgetDraws (i : Nat) (s : State) :
    finishLine i (forgetDraws s) = mapNext forgetDraws (finishLine i s) :=
  storeLine_forgetDraws (k := fun t => complete { t with res := t.params.linebufBase }) (fun _ => rfl) i 0 s

/-- RXLINE reads RXFIFO with a character in it only, so it takes no draw (log 6). -/
theorem rxlStep_forgetDraws (i : Nat) (s : State) : rxlStep i (forgetDraws s) = mapNext forgetDraws (rxlStep i s) := by
  cases hl : s.lineChar with
  | some c =>
    have hl' : (forgetDraws s).lineChar = some c := hl
    simp only [rxlStep, hl, hl', rxlStoreStep]
    split_ifs
    · exact finishLine_forgetDraws i { s with lineChar := none }
    · exact storeLine_forgetDraws (k := setSeq (.rxl (i + 1))) (fun _ => rfl) i c { s with lineChar := none }
  | none =>
    have hl' : (forgetDraws s).lineChar = none := hl
    by_cases hcap : i = lineCap ∧ s.params.capExtraRead = false
    · have hcap' : i = lineCap ∧ (forgetDraws s).params.capExtraRead = false := hcap
      simp only [rxlStep, hl, hl', if_pos hcap, if_pos hcap']
      exact finishLine_forgetDraws lineCap s
    · cases hr : s.rxfifo with
      | nil =>
        rw [rxlStep_of_nil hl hcap hr, rxlStep_of_nil (s := forgetDraws s) hl hcap hr]
        rfl
      | cons e more =>
        rw [rxlStep_of_cons hl hcap hr, rxlStep_of_cons (s := forgetDraws s) hl hcap hr]
        rfl

/-- Every command. -/
theorem exec_ignoresDraws (i : Instr) : IgnoresDraws (exec i) := by
  have hseq (s : State) : (forgetDraws s).seq = s.seq := rfl
  cases i with
  | init m d f p b => exact commandStep_ignoresDraws (fun _ => rfl) (fun _ => rfl) (fun _ => rfl) fun _ => rfl
  | setbaud bps => exact commandStep_ignoresDraws (fun _ => rfl) (fun _ => rfl) (fun _ => rfl) fun _ => rfl
  | enable => exact commandStep_ignoresDraws (fun _ => rfl) (fun _ => rfl) (fun _ => rfl) fun _ => rfl
  | txbyte v =>
    refine .of_commutes fun s => ?_
    simp only [exec, execTxbyte, hseq]
    split
    · rfl
    · exact txbWaitStep_forgetDraws _ s
    · rfl
  | rxbyte =>
    refine .of_commutes fun s => ?_
    simp only [exec, execRxbyte, hseq]
    split
    · rfl
    · exact rxbWaitStep_forgetDraws s
    · rfl
  | txline a =>
    refine .of_commutes fun s => ?_
    simp only [exec, execTxline, hseq]
    split
    · rfl
    · exact txlFetchStep_forgetDraws _ s
    · exact txlWaitStep_forgetDraws _ _ s
    · rfl
  | rxline =>
    refine .of_commutes fun s => ?_
    simp only [exec, execRxline, hseq]
    split
    · rfl
    · exact rxlStep_forgetDraws _ s
    · rfl

/-- The sequencer's turn. -/
theorem sequencerTurn_ignoresDraws : IgnoresDraws sequencerTurn := by
  intro s
  have hseq : (forgetDraws s).seq = s.seq := rfl
  simp only [sequencerTurn, hseq]
  split
  · have hword : (forgetDraws s).program[(forgetDraws s).ci]? = s.program[s.ci]? := rfl
    simp only [fetchStep, hword]
    split
    · split
      · exact exec_ignoresDraws _ s
      · exact congrArg Host.Outcome.next (forgetDraws_forgetDraws (raise _ s))
    · exact congrArg Host.Outcome.next (forgetDraws_forgetDraws s)
  · exact exec_ignoresDraws _ s
  · exact exec_ignoresDraws _ s
  · exact exec_ignoresDraws _ s
  · exact exec_ignoresDraws _ s
  · exact exec_ignoresDraws _ s
  · exact congrArg Host.Outcome.next (forgetDraws_forgetDraws s)

/-! ## The engines -/

/-- A frame made by the encoder has no draw in it. -/
theorem txLoad_forgetDraws (s : State) : txLoad (forgetDraws s) = mapNext forgetDraws (txLoad s) := by
  by_cases hen : LoadEnabled s
  · obtain ⟨hx, hb, ht⟩ := hen
    obtain ⟨v, hv⟩ := Option.ne_none_iff_exists'.mp hb
    have ht' : (forgetDraws s).tsr = none := by simp [forgetDraws, ht]
    have hx' : (forgetDraws s).txen = true := hx
    have hv' : (forgetDraws s).txbuf = some v := hv
    have hform : formatOf (forgetDraws s) = formatOf s := rfl
    simp only [txLoad, hx, hx', hv, hv', ht, ht', hform]
    split <;> rfl
  · have hen' : ¬ LoadEnabled (forgetDraws s) := fun h => hen ⟨h.1, h.2.1, Option.map_eq_none_iff.mp h.2.2⟩
    rw [txLoad_of_not_loadEnabled hen, txLoad_of_not_loadEnabled hen']
    rfl

/-- A frame goes from TSR to TXWIRE whatever its bits are. -/
theorem txShift_forgetDraws (s : State) : txShift (forgetDraws s) = mapNext forgetDraws (txShift s) := by
  cases ht : s.tsr with
  | none =>
    rw [txShift_of_none ht, txShift_of_none (s := forgetDraws s) (by simp [forgetDraws, ht])]
    rfl
  | some fr =>
    rw [txShift_of_some ht, txShift_of_some (s := forgetDraws s) (fr := withoutDraw fr) (by simp [forgetDraws, ht])]
    simp [mapNext, forgetDraws, udre]

/-- What is read of a corrupt frame does not depend on the bits that stand in its place. -/
theorem wireBits_withoutDraw (free : BitVec 11) (len : Nat) (source : Option Frame) :
    wireBits free len (source.map withoutDraw) = wireBits free len source := by
  cases source with
  | none => rfl
  | some fr => cases hc : fr.corrupt <;> simp [wireBits, withoutDraw, hc]

theorem receive_forgetDraws (free : BitVec 11) (source : Option Frame) (s : State) :
    receive free (source.map withoutDraw) (forgetDraws s) = mapNext forgetDraws (receive free source s) := by
  have hrx : (forgetDraws s).rxen = s.rxen := rfl
  have hfifo : (forgetDraws s).rxfifo = s.rxfifo := rfl
  have hform : formatOf (forgetDraws s) = formatOf s := rfl
  simp only [receive, wireBits_withoutDraw, hrx, hfifo, hform]
  split
  · split
    · split <;> rfl
    · rfl
  · rfl

theorem offerFrame_forgetDraws (free : BitVec 11) (s : State) :
    offerFrame free (forgetDraws s) = mapNext forgetDraws (offerFrame free s) := by
  cases hl : s.params.loopback with
  | false =>
    rw [offerFrame_of_peer hl, offerFrame_of_peer (s := forgetDraws s) hl]
    exact receive_forgetDraws free none s
  | true =>
    have hw : (forgetDraws s).txwire[(forgetDraws s).lbptr]? = (s.txwire[s.lbptr]?).map withoutDraw := List.getElem?_map
    cases hfr : s.txwire[s.lbptr]? with
    | none =>
      rw [offerFrame_of_usedUp hl hfr, offerFrame_of_usedUp (s := forgetDraws s) hl (by rw [hw, hfr]; rfl)]
      rfl
    | some fr =>
      rw [offerFrame_of_replay hl hfr, offerFrame_of_replay (s := forgetDraws s) hl (by rw [hw, hfr]; rfl)]
      exact receive_forgetDraws free (some fr) { s with lbptr := s.lbptr + 1 }

/-- Every event. -/
theorem runEvent_ignoresDraws (e : Event) : IgnoresDraws (runEvent e) := by
  cases e with
  | sequencer => exact sequencerTurn_ignoresDraws
  | txLoad => exact .of_commutes txLoad_forgetDraws
  | txShift => exact .of_commutes txShift_forgetDraws
  | offer free => exact .of_commutes (offerFrame_forgetDraws free)
  | reset => exact .of_commutes fun _ => rfl

/-- Settles O60: the two states take the same event and go on from states that differ in their draws only. -/
theorem drawsNotObserved : Obligations.DrawsNotObserved := by
  unfold Obligations.DrawsNotObserved
  intro s t e rest ha h
  have hat : t.agenda = e :: rest := (congrArg State.agenda h).symm.trans ha
  have hafter : forgetDraws { s with agenda := rest } = forgetDraws { t with agenda := rest } :=
    congrArg (fun u : State => { u with agenda := rest }) h
  rw [step_cons ha, step_cons hat]
  exact (runEvent_ignoresDraws e).congr hafter

end Sys2Proof.Machine
end
